-- ==== Sys2Proof/Word.lean ====
section
/-! DEFINITION. The two fixed-width bit vectors of the machine (spec/00_scope.md R4, R6). Every other
width is a word size chosen at run time, written `BitVec N`. -/

namespace Sys2Proof

/-- A byte: bits 7 (most significant) down to 0 (R6). -/
abbrev Byte := BitVec 8

/-- A 16-bit address or register (R4); its addition is modulo 2^16 (R46). -/
abbrev Word := BitVec 16

end Sys2Proof
end

