-- ==== Sys2Proof/Syntax.lean ====
section
/-! DEFINITION. The instruction set as syntax: operands as their IDs name them (spec/30_encoding.md R70)
and one constructor of `Instr` per row of spec/opcode_table.json. -/

namespace Sys2Proof

/-- The ten one-bit flags that have an operand ID of their own (R29). The two word-length flags are
reached together, as `Operand.wlb`. -/
inductive Flag
  | ZF | SF | OF | NOF | TF | EF | DZF | RF | SEF | FMF
  deriving DecidableEq, Repr

/-- The registers that can address memory (R100): `ip`, `flg` and `rs` have no memory form. -/
inductive AddrReg
  | wi (k : Fin 4) | pi (k : Fin 4) | ar (k : Fin 4) | sp | ap | wl
  deriving DecidableEq, Repr

/-- The registers that have an operand ID, class REG (R70). -/
inductive Reg
  | wi (k : Fin 4) | pi (k : Fin 4) | ar (k : Fin 4) | ip | sp | ap | wl | flg | rs
  deriving DecidableEq, Repr

/-- A literal, class LIT (R70): the payload itself, of 8, 16, 32 or 64 bits. -/
inductive Lit
  | b8 (v : BitVec 8) | b16 (v : BitVec 16) | b32 (v : BitVec 32) | b64 (v : BitVec 64)
  deriving DecidableEq, Repr

/-- A memory operand, class MEM, in its three forms (R100). -/
inductive MemRef
  | reg (r : AddrReg)
  | off (r : AddrReg) (offset : Word)
  | abs (a : Word)
  deriving DecidableEq, Repr

/-- The SIMD groups of R35: `w0`, `w1` the lower and upper 64 bytes of the memory window (operand IDs 0x40,
0x41), `p0`, `p1` those of the parameter space (0x42, 0x43). -/
inductive Group
  | w0 | w1 | p0 | p1
  deriving DecidableEq, Repr

/-- An operand: a data-pool address (operand type bit 0) or what an operand ID names (type bit 1), R64, R70. -/
inductive Operand
  | pool (a : Byte)
  | reg (r : Reg)
  | lit (v : Lit)
  | flag (f : Flag)
  | wlb
  | mem (m : MemRef)
  | simd (g : Group)
  deriving DecidableEq, Repr

/-- The instructions, one constructor per row of spec/opcode_table.json, in the table's order (R62, R63).
Operands stand in the order of their fields (R80). `inp` is the manual's `in`. -/
inductive Instr
  | exit (code : Byte)
  | add (d s : Operand)
  | sub (d s : Operand)
  | mul (hi lo s : Operand)
  | div (modulo quotient divisor : Operand)
  | ign (t : BitVec 3)
  | mode (imm : Byte)
  | and (d s : Operand)
  | or (d s : Operand)
  | nor (d s : Operand)
  | xor (d s : Operand)
  | not (d : Operand)
  | cmp (a b : Operand)
  | jfl (c : BitVec 3) (target : Word)
  | sfl (c : BitVec 3) (target : Word)
  | call (target : Word)
  | ret (status : Byte)
  | mov (d s : Operand)
  | mw (a : Operand)
  | alloc (n : Operand)
  | ioChan (c : Operand)
  | inp (first stop : Operand)
  | out (first stop : Operand)
  | outs (a : Operand)
  | seek (p : Operand)
  | inth (handler : Word)
  | nop
  | exit1B (code : Byte)
  | exit1C (code : Byte)
  | exit1D (code : Byte)
  | exit1E (code : Byte)
  | exit1F (code : Byte)
  deriving DecidableEq, Repr

end Sys2Proof
end

