-- ==== Sys2Proof/WellFormed.lean ====
section
/-! DEFINITION. Which instructions are valid (spec/30_encoding.md R80, R81 cases 1 to 3). Case 4, an unassigned
operand ID, names no operand and so is no term of `Instr`: the decoder rejects it (Decode.lean). -/

namespace Sys2Proof

/-- Why an instruction is invalid: cases 1, 2 and 3 of R81. -/
inductive Invalid
  | literalDestination
  | memoryDestination
  | twoMemoryOperands
  deriving DecidableEq, Repr

/-- The operand is of class LIT. -/
def Operand.isLit : Operand → Bool
  | .lit _ => true
  | _ => false

/-- The operand is of class MEM. -/
def Operand.isMem : Operand → Bool
  | .mem _ => true
  | _ => false

/-- What R81 says against an operand in a destination field other than `mov`'s first. -/
def badDest : Operand → Option Invalid
  | .lit _ => some .literalDestination
  | .mem _ => some .memoryDestination
  | _ => none

/-- What R81 says against `mov`'s two operands: its first may be memory, but not both. -/
def badMov (d s : Operand) : Option Invalid :=
  if d.isLit then some .literalDestination
  else if d.isMem && s.isMem then some .twoMemoryOperands
  else none

/-- What R81 says against two source fields. -/
def badSources (a b : Operand) : Option Invalid :=
  if a.isMem && b.isMem then some .twoMemoryOperands else none

/-- Why the instruction is invalid, if it is (R81, by the roles of R80). -/
def Instr.invalid : Instr → Option Invalid
  | .exit _ => none
  | .add d _ => badDest d
  | .sub d _ => badDest d
  | .mul hi lo _ => (badDest hi).or (badDest lo)
  | .div m q _ => (badDest m).or (badDest q)
  | .ign _ => none
  | .mode _ => none
  | .and d _ => badDest d
  | .or d _ => badDest d
  | .nor d _ => badDest d
  | .xor d _ => badDest d
  | .not d => badDest d
  | .cmp a b => badSources a b
  | .jfl _ _ => none
  | .sfl _ _ => none
  | .call _ => none
  | .ret _ => none
  | .mov d s => badMov d s
  | .mw _ => none
  | .alloc _ => none
  | .ioChan _ => none
  | .inp a b => badSources a b
  | .out a b => badSources a b
  | .outs _ => none
  | .seek _ => none
  | .inth _ => none
  | .nop => none
  | .exit1B _ => none
  | .exit1C _ => none
  | .exit1D _ => none
  | .exit1E _ => none
  | .exit1F _ => none

/-- The instruction is valid (R81, R82). -/
def Instr.wf (i : Instr) : Bool := i.invalid.isNone

end Sys2Proof
end

