-- ==== Sys2Proof/Decode.lean ====
section
/-! DEFINITION. Decoding (total on any bytes, rejecting by name) and encoding (spec/30_encoding.md R60 to R73),
with the byte-order helpers both use (spec/20_memory.md R41). -/

namespace Sys2Proof

/-- The number a list of bytes denotes, most significant byte first (R41). -/
def beNat (bs : List Byte) : Nat := bs.foldl (fun acc b => acc * 256 + b.toNat) 0

/-- The `N`-bit value of a list of bytes, most significant first, converted by `conv_N` (R6, R112): zero-extended
when the bytes are fewer than `N` bits, its low `N` bits when they are more. -/
def ofBytes (N : Nat) (bs : List Byte) : BitVec N := BitVec.ofNat N (beNat bs)

/-- The low `n` bytes of a value, most significant first (R41). -/
def toBytes (n : Nat) {N : Nat} (v : BitVec N) : List Byte :=
  (List.range n).map fun i => (v >>> (8 * (n - 1 - i))).setWidth 8

/-- Why some bytes decode to no instruction. All but `truncated` are the invalid instructions of R81;
`truncated` says that the bytes end before the instruction does (a fetch never gives so few, `maxLen`). -/
inductive DecodeError
  | truncated
  | unassignedOperand (id : Byte)
  | invalid (why : Invalid)
  deriving DecidableEq, Repr

/-- What a decoder reads off the front of some bytes: a value and the bytes after it, or why not. -/
inductive Decoded (α : Type)
  | ok (value : α) (rest : List Byte)
  | bad (e : DecodeError)
  deriving DecidableEq, Repr

/-- Go on decoding after a value. -/
def Decoded.andThen {α β : Type} (d : Decoded α) (k : α → List Byte → Decoded β) : Decoded β :=
  match d with
  | .ok v rest => k v rest
  | .bad e => .bad e

/-- The next byte. -/
def takeByte : List Byte → Decoded Byte
  | [] => .bad .truncated
  | b :: rest => .ok b rest

/-- The next `n` bytes as one big-endian value of `8 n` bits (R60: payloads, most significant byte first). -/
def takeValue (n : Nat) (bs : List Byte) : Decoded (BitVec (8 * n)) :=
  if bs.length < n then .bad .truncated else .ok (ofBytes (8 * n) (bs.take n)) (bs.drop n)

/-- What an operand ID names (R70): an operand that is complete, or a form that its payload completes (R71). -/
inductive Form
  | whole (o : Operand)
  | lit8 | lit16 | lit32 | lit64
  | offset (r : AddrReg)
  | absolute
  deriving DecidableEq, Repr

/-- The register number in the low two bits of an operand ID (R70, "the ID's low two bits select the register"). -/
def lowTwo (id : Nat) : Fin 4 := ⟨id % 4, Nat.mod_lt _ (by decide)⟩

/-- The operand ID table of R70, range by range in its order; `none` for the unassigned IDs 0x44 to 0xFF. -/
def formOf (id : Byte) : Option Form :=
  let n := id.toNat
  if n ≤ 0x03 then some (.whole (.reg (.wi (lowTwo n))))
  else if n ≤ 0x07 then some (.whole (.reg (.pi (lowTwo n))))
  else if n ≤ 0x0B then some (.offset (.wi (lowTwo n)))
  else if n ≤ 0x0F then some (.offset (.pi (lowTwo n)))
  else if n ≤ 0x13 then some (.whole (.mem (.reg (.wi (lowTwo n)))))
  else if n ≤ 0x17 then some (.whole (.mem (.reg (.pi (lowTwo n)))))
  else if n ≤ 0x1B then some (.whole (.reg (.ar (lowTwo n))))
  else if n ≤ 0x1F then some (.offset (.ar (lowTwo n)))
  else if n ≤ 0x23 then some (.whole (.mem (.reg (.ar (lowTwo n)))))
  else match n with
    | 0x24 => some (.whole (.reg .ip))
    | 0x25 => some (.whole (.reg .sp))
    | 0x26 => some (.offset .sp)
    | 0x27 => some (.whole (.mem (.reg .sp)))
    | 0x28 => some (.whole (.reg .ap))
    | 0x29 => some (.offset .ap)
    | 0x2A => some (.whole (.mem (.reg .ap)))
    | 0x2B => some (.whole (.reg .wl))
    | 0x2C => some (.offset .wl)
    | 0x2D => some (.whole (.mem (.reg .wl)))
    | 0x2E => some (.whole (.reg .flg))
    | 0x2F => some (.whole (.reg .rs))
    | 0x30 => some .lit8
    | 0x31 => some .lit16
    | 0x32 => some .absolute
    | 0x33 => some .lit32
    | 0x34 => some .lit64
    | 0x35 => some (.whole (.flag .ZF))
    | 0x36 => some (.whole (.flag .SF))
    | 0x37 => some (.whole (.flag .OF))
    | 0x38 => some (.whole (.flag .NOF))
    | 0x39 => some (.whole (.flag .TF))
    | 0x3A => some (.whole (.flag .EF))
    | 0x3B => some (.whole (.flag .DZF))
    | 0x3C => some (.whole (.flag .RF))
    | 0x3D => some (.whole (.flag .SEF))
    | 0x3E => some (.whole (.flag .FMF))
    | 0x3F => some (.whole .wlb)
    | 0x40 => some (.whole (.simd .w0))
    | 0x41 => some (.whole (.simd .w1))
    | 0x42 => some (.whole (.simd .p0))
    | 0x43 => some (.whole (.simd .p1))
    | _ => none

/-- Complete a form from the payload at the front of the bytes (R71). -/
def Form.fill (f : Form) (bs : List Byte) : Decoded Operand :=
  match f with
  | .whole o => .ok o bs
  | .lit8 => (takeValue 1 bs).andThen fun v rest => .ok (.lit (.b8 v)) rest
  | .lit16 => (takeValue 2 bs).andThen fun v rest => .ok (.lit (.b16 v)) rest
  | .lit32 => (takeValue 4 bs).andThen fun v rest => .ok (.lit (.b32 v)) rest
  | .lit64 => (takeValue 8 bs).andThen fun v rest => .ok (.lit (.b64 v)) rest
  | .offset r => (takeValue 2 bs).andThen fun v rest => .ok (.mem (.off r v)) rest
  | .absolute => (takeValue 2 bs).andThen fun v rest => .ok (.mem (.abs v)) rest

/-- The operand of a field byte `f` with type bit `t`, its payload at the front of the bytes (R64, R70, R71). -/
def decodeOperand (t : Bool) (f : Byte) (bs : List Byte) : Decoded Operand :=
  if t then
    match formOf f with
    | some form => form.fill bs
    | none => .bad (.unassignedOperand f)
  else .ok (.pool f) bs

/-- Format I: one immediate byte (R66, R67). -/
def decodeI (mk : Byte → Instr) (bs : List Byte) : Decoded Instr :=
  (takeByte bs).andThen fun b rest => .ok (mk b) rest

/-- Format A: a 16-bit address, most significant byte first (R66). -/
def decodeA (mk : Word → Instr) (bs : List Byte) : Decoded Instr :=
  (takeValue 2 bs).andThen fun a rest => .ok (mk a) rest

/-- Format 1: one field and its payload (R66). -/
def decode1 (mk : Operand → Instr) (t1 : Bool) (bs : List Byte) : Decoded Instr :=
  (takeByte bs).andThen fun f1 r1 =>
  (decodeOperand t1 f1 r1).andThen fun o1 rest => .ok (mk o1) rest

/-- Format 2: two fields, then the payload of the first, then of the second (R66, R73). -/
def decode2 (mk : Operand → Operand → Instr) (t1 t2 : Bool) (bs : List Byte) : Decoded Instr :=
  (takeByte bs).andThen fun f1 r1 =>
  (takeByte r1).andThen fun f2 r2 =>
  (decodeOperand t1 f1 r2).andThen fun o1 r3 =>
  (decodeOperand t2 f2 r3).andThen fun o2 rest => .ok (mk o1 o2) rest

/-- Format 3: three fields, then their payloads in that order (R66, R73). -/
def decode3 (mk : Operand → Operand → Operand → Instr) (t1 t2 t3 : Bool) (bs : List Byte) : Decoded Instr :=
  (takeByte bs).andThen fun f1 r1 =>
  (takeByte r1).andThen fun f2 r2 =>
  (takeByte r2).andThen fun f3 r3 =>
  (decodeOperand t1 f1 r3).andThen fun o1 r4 =>
  (decodeOperand t2 f2 r4).andThen fun o2 r5 =>
  (decodeOperand t3 f3 r5).andThen fun o3 rest => .ok (mk o1 o2 o3) rest

/-- The opcode, bits 7..3 of byte 0 (R61). -/
def opcodeOf (b0 : Byte) : Nat := (b0 >>> 3).toNat

/-- The type bits, bits 2..0 of byte 0 (R61). -/
def typeBitsOf (b0 : Byte) : BitVec 3 := b0.setWidth 3

/-- The layout of the instruction at the front of the bytes, by the opcode map of R62 (every 5-bit opcode is
assigned; the last line is 0x1F). Type bit `b0[2]` is the first field's, `b0[1]` the second's, `b0[0]` the
third's (R65). -/
def decodeLayout : List Byte → Decoded Instr
  | [] => .bad .truncated
  | b0 :: bs =>
    let t := typeBitsOf b0
    let t1 := b0.getLsbD 2
    let t2 := b0.getLsbD 1
    let t3 := b0.getLsbD 0
    match opcodeOf b0 with
    | 0x00 => decodeI .exit bs
    | 0x01 => decode2 .add t1 t2 bs
    | 0x02 => decode2 .sub t1 t2 bs
    | 0x03 => decode3 .mul t1 t2 t3 bs
    | 0x04 => decode3 .div t1 t2 t3 bs
    | 0x05 => .ok (.ign t) bs
    | 0x06 => decodeI .mode bs
    | 0x07 => decode2 .and t1 t2 bs
    | 0x08 => decode2 .or t1 t2 bs
    | 0x09 => decode2 .nor t1 t2 bs
    | 0x0A => decode2 .xor t1 t2 bs
    | 0x0B => decode1 .not t1 bs
    | 0x0C => decode2 .cmp t1 t2 bs
    | 0x0D => decodeA (.jfl t) bs
    | 0x0E => decodeA (.sfl t) bs
    | 0x0F => decodeA .call bs
    | 0x10 => decodeI .ret bs
    | 0x11 => decode2 .mov t1 t2 bs
    | 0x12 => decode1 .mw t1 bs
    | 0x13 => decode1 .alloc t1 bs
    | 0x14 => decode1 .ioChan t1 bs
    | 0x15 => decode2 .inp t1 t2 bs
    | 0x16 => decode2 .out t1 t2 bs
    | 0x17 => decode1 .outs t1 bs
    | 0x18 => decode1 .seek t1 bs
    | 0x19 => decodeA .inth bs
    | 0x1A => .ok .nop bs
    | 0x1B => decodeI .exit1B bs
    | 0x1C => decodeI .exit1C bs
    | 0x1D => decodeI .exit1D bs
    | 0x1E => decodeI .exit1E bs
    | _ => decodeI .exit1F bs

/-- The instruction at the front of the bytes and the bytes after it; an invalid instruction (R81) is rejected
by name. -/
def decode (bs : List Byte) : Decoded Instr :=
  (decodeLayout bs).andThen fun i rest =>
    match i.invalid with
    | none => .ok i rest
    | some why => .bad (.invalid why)

/-! ### The encoder -/

/-- The operand ID of a memory operand's register form, R70. -/
def AddrReg.memId : AddrReg → Byte
  | .wi k => 0x10#8 + BitVec.ofNat 8 k.val
  | .pi k => 0x14#8 + BitVec.ofNat 8 k.val
  | .ar k => 0x20#8 + BitVec.ofNat 8 k.val
  | .sp => 0x27#8
  | .ap => 0x2A#8
  | .wl => 0x2D#8

/-- The operand ID of a memory operand's offset form, R70. -/
def AddrReg.offsetId : AddrReg → Byte
  | .wi k => 0x08#8 + BitVec.ofNat 8 k.val
  | .pi k => 0x0C#8 + BitVec.ofNat 8 k.val
  | .ar k => 0x1C#8 + BitVec.ofNat 8 k.val
  | .sp => 0x26#8
  | .ap => 0x29#8
  | .wl => 0x2C#8

/-- The operand ID of a register, R70. -/
def Reg.id : Reg → Byte
  | .wi k => 0x00#8 + BitVec.ofNat 8 k.val
  | .pi k => 0x04#8 + BitVec.ofNat 8 k.val
  | .ar k => 0x18#8 + BitVec.ofNat 8 k.val
  | .ip => 0x24#8
  | .sp => 0x25#8
  | .ap => 0x28#8
  | .wl => 0x2B#8
  | .flg => 0x2E#8
  | .rs => 0x2F#8

/-- The operand ID of a flag, R29, R70. -/
def Flag.id : Flag → Byte
  | .ZF => 0x35#8
  | .SF => 0x36#8
  | .OF => 0x37#8
  | .NOF => 0x38#8
  | .TF => 0x39#8
  | .EF => 0x3A#8
  | .DZF => 0x3B#8
  | .RF => 0x3C#8
  | .SEF => 0x3D#8
  | .FMF => 0x3E#8

/-- The operand ID of a SIMD group, R35. -/
def Group.id : Group → Byte
  | .w0 => 0x40#8
  | .w1 => 0x41#8
  | .p0 => 0x42#8
  | .p1 => 0x43#8

/-- The operand type bit (R64). -/
def Operand.typeBit : Operand → Bool
  | .pool _ => false
  | _ => true

/-- The operand field: the pool address or the operand ID (R64, R70). -/
def Operand.field : Operand → Byte
  | .pool a => a
  | .reg r => r.id
  | .lit (.b8 _) => 0x30#8
  | .lit (.b16 _) => 0x31#8
  | .lit (.b32 _) => 0x33#8
  | .lit (.b64 _) => 0x34#8
  | .flag f => f.id
  | .wlb => 0x3F#8
  | .mem (.reg r) => r.memId
  | .mem (.off r _) => r.offsetId
  | .mem (.abs _) => 0x32#8
  | .simd g => g.id

/-- The operand's payload bytes (R71). -/
def Operand.payload : Operand → List Byte
  | .pool _ => []
  | .reg _ => []
  | .lit (.b8 v) => toBytes 1 v
  | .lit (.b16 v) => toBytes 2 v
  | .lit (.b32 v) => toBytes 4 v
  | .lit (.b64 v) => toBytes 8 v
  | .flag _ => []
  | .wlb => []
  | .mem (.reg _) => []
  | .mem (.off _ o) => toBytes 2 o
  | .mem (.abs a) => toBytes 2 a
  | .simd _ => []

/-- How many payload bytes the operand has (R70, R71). -/
def Operand.payloadSize : Operand → Nat
  | .pool _ => 0
  | .reg _ => 0
  | .lit (.b8 _) => 1
  | .lit (.b16 _) => 2
  | .lit (.b32 _) => 4
  | .lit (.b64 _) => 8
  | .flag _ => 0
  | .wlb => 0
  | .mem (.reg _) => 0
  | .mem (.off _ _) => 2
  | .mem (.abs _) => 2
  | .simd _ => 0

/-- Byte 0 from the opcode and the type bits (R61). -/
def byteZero (opcode : BitVec 5) (t : BitVec 3) : Byte := opcode ++ t

/-- Three type bits, the first field's most significant (R65). -/
def typeBits (t1 t2 t3 : Bool) : BitVec 3 := BitVec.ofBool t1 ++ BitVec.ofBool t2 ++ BitVec.ofBool t3

/-- Format I; the ignored type bits are written 0 (R65). -/
def encodeI (opcode : BitVec 5) (b : Byte) : List Byte := [byteZero opcode 0#3, b]

/-- Format A (R66). -/
def encodeA (opcode : BitVec 5) (t : BitVec 3) (a : Word) : List Byte := byteZero opcode t :: toBytes 2 a

/-- Format 1 (R66). -/
def encode1 (opcode : BitVec 5) (o1 : Operand) : List Byte :=
  byteZero opcode (typeBits o1.typeBit false false) :: o1.field :: o1.payload

/-- Format 2 (R66, R73). -/
def encode2 (opcode : BitVec 5) (o1 o2 : Operand) : List Byte :=
  byteZero opcode (typeBits o1.typeBit o2.typeBit false) :: o1.field :: o2.field :: (o1.payload ++ o2.payload)

/-- Format 3 (R66, R73). -/
def encode3 (opcode : BitVec 5) (o1 o2 o3 : Operand) : List Byte :=
  byteZero opcode (typeBits o1.typeBit o2.typeBit o3.typeBit) :: o1.field :: o2.field :: o3.field ::
    (o1.payload ++ (o2.payload ++ o3.payload))

/-- The bytes of an instruction (R60 to R73). -/
def encode : Instr → List Byte
  | .exit c => encodeI 0x00#5 c
  | .add d s => encode2 0x01#5 d s
  | .sub d s => encode2 0x02#5 d s
  | .mul hi lo s => encode3 0x03#5 hi lo s
  | .div m q s => encode3 0x04#5 m q s
  | .ign t => [byteZero 0x05#5 t]
  | .mode b => encodeI 0x06#5 b
  | .and d s => encode2 0x07#5 d s
  | .or d s => encode2 0x08#5 d s
  | .nor d s => encode2 0x09#5 d s
  | .xor d s => encode2 0x0A#5 d s
  | .not d => encode1 0x0B#5 d
  | .cmp a b => encode2 0x0C#5 a b
  | .jfl c a => encodeA 0x0D#5 c a
  | .sfl c a => encodeA 0x0E#5 c a
  | .call a => encodeA 0x0F#5 0#3 a
  | .ret b => encodeI 0x10#5 b
  | .mov d s => encode2 0x11#5 d s
  | .mw a => encode1 0x12#5 a
  | .alloc n => encode1 0x13#5 n
  | .ioChan c => encode1 0x14#5 c
  | .inp a b => encode2 0x15#5 a b
  | .out a b => encode2 0x16#5 a b
  | .outs a => encode1 0x17#5 a
  | .seek p => encode1 0x18#5 p
  | .inth a => encodeA 0x19#5 0#3 a
  | .nop => [byteZero 0x1A#5 0#3]
  | .exit1B c => encodeI 0x1B#5 c
  | .exit1C c => encodeI 0x1C#5 c
  | .exit1D c => encodeI 0x1D#5 c
  | .exit1E c => encodeI 0x1E#5 c
  | .exit1F c => encodeI 0x1F#5 c

/-- The instruction's length in bytes: its format's length without payloads and the payloads of its fields (R72). -/
def Instr.len : Instr → Nat
  | .exit _ => 2
  | .add d s => 3 + d.payloadSize + s.payloadSize
  | .sub d s => 3 + d.payloadSize + s.payloadSize
  | .mul hi lo s => 4 + hi.payloadSize + lo.payloadSize + s.payloadSize
  | .div m q s => 4 + m.payloadSize + q.payloadSize + s.payloadSize
  | .ign _ => 1
  | .mode _ => 2
  | .and d s => 3 + d.payloadSize + s.payloadSize
  | .or d s => 3 + d.payloadSize + s.payloadSize
  | .nor d s => 3 + d.payloadSize + s.payloadSize
  | .xor d s => 3 + d.payloadSize + s.payloadSize
  | .not d => 2 + d.payloadSize
  | .cmp a b => 3 + a.payloadSize + b.payloadSize
  | .jfl _ _ => 3
  | .sfl _ _ => 3
  | .call _ => 3
  | .ret _ => 2
  | .mov d s => 3 + d.payloadSize + s.payloadSize
  | .mw a => 2 + a.payloadSize
  | .alloc n => 2 + n.payloadSize
  | .ioChan c => 2 + c.payloadSize
  | .inp a b => 3 + a.payloadSize + b.payloadSize
  | .out a b => 3 + a.payloadSize + b.payloadSize
  | .outs a => 2 + a.payloadSize
  | .seek p => 2 + p.payloadSize
  | .inth _ => 3
  | .nop => 1
  | .exit1B _ => 2
  | .exit1C _ => 2
  | .exit1D _ => 2
  | .exit1E _ => 2
  | .exit1F _ => 2

/-- As many bytes as the longest layout has: `mul` or `div` with three 64-bit literals, which is invalid. The longest valid
instruction has 19: `cmp`, `in` or `out` with two 64-bit literals, by the sum of R72 and by R73. DEDUCED (log entry 9):
R72 and R21 name 13 as the longest, which leaves those three out. -/
def maxLen : Nat := 28

/-! ### The opcode table's words -/

/-- The bytes of an instruction given as one number of `nbits` bits, its first byte in bits 7..0 and each later byte
above it; the bytes above `nbits`, up to `maxLen`, are 0. -/
def tableBytes (nbits w : Nat) : List Byte :=
  (List.range maxLen).map fun k => BitVec.ofNat 8 ((w % 2 ^ nbits) >>> (8 * k))

/-- The instruction the decoder reads from such a number. -/
def decodeTableWord (nbits w : Nat) : Option Instr :=
  match decode (tableBytes nbits w) with
  | .ok i _ => some i
  | .bad _ => none

end Sys2Proof
end

