-- ==== Sys2Proof/Config.lean ====
section
/-! DEFINITION. What the spec leaves to whoever uses the model (spec/00_scope.md R5): the start parameters, and
the values and host answers it leaves open, which are opaque constants: nothing in Lean can compute or prove a
value of one. -/

namespace Sys2Proof.Config

/-- `ENTRY`, the value of `ip` at reset (R5, R23): an OPEN parameter. DESIGN CHOICE (log entry 1): 0x0100, the value
spec/95_test_vectors.md uses. -/
def entry : Word := 0x0100#16

/-- `STACK_INIT`, the value of `sp` and `ap` at reset (R5, R26): an OPEN parameter. DESIGN CHOICE (log entry 1):
0x8000, the value spec/95_test_vectors.md uses. -/
def stackInit : Word := 0x8000#16

/-- `WL_INIT`, the value of `wl` at reset (R5, R27). -/
def wlInit : Word := 0x0000#16

/-- The instructions whose floating-point meaning `FLOAT_OPS` supplies (R5, R168); `cmp` and `alloc` subtract. -/
inductive FloatOp
  | add | sub | mul | div
  deriving DecidableEq, Repr

/-- An operand as a floating-point operation receives it: its natural width in bits, whether it is a data-pool operand
or a SIMD lane (the operands the float mode speaks of, R168), and its bits at that width, not yet converted. -/
structure FloatArg where
  width : Nat
  fromPool : Bool
  bits : Nat
  deriving DecidableEq, Repr, Inhabited

/-- What a floating-point operation yields: the bits stored in the instruction's one destination or, for `mul` and
`div`, in its second (`low`) and first (`high`) destinations, the flags it computes, and whether it divided by zero. -/
structure FloatResult where
  low : BitVec 64
  high : BitVec 64
  zf : Bool
  sf : Bool
  of : Bool
  nof : Bool
  divideByZero : Bool
  deriving DecidableEq, Repr, Inhabited

/-- `FLOAT_OPS` (R5, spec/93_implementation_defined.md U1): the arithmetic of floating-point mode, of which the
spec gives no format, rounding or flag rule. An uninterpreted function of the operation, the operation width in
bits and the two operands (log entry 2). -/
opaque floatOps (op : FloatOp) (width : Nat) (a b : FloatArg) : FloatResult

/-- What a file is opened or used for (R203). -/
inductive FileMode
  | reading | writing
  deriving DecidableEq, Repr

/-- What the host is asked about a file (spec/93_implementation_defined.md U12): its path, its contents if the file
exists, what it is open for (none: this transfer opens it), what this transfer does, and the position. -/
structure FileRequest where
  path : List Byte
  contents : Option (List Byte)
  openFor : Option FileMode
  wanted : FileMode
  position : BitVec 64
  deriving DecidableEq, Repr

/-- `HOST_INPUT` (R5, U12): the input the host supplies when `in` asks it for one more console input, or none when it
never does. The number counts the questions the host has been asked (log entry 4). -/
opaque hostInput (question : Nat) : Option (List Byte)

/-- The host's side of a file transfer that the spec leaves to it (U12, log entry 5): the contents the host presents for
the transfer, or none where it gives no answer. The number counts the questions the host has been asked. -/
opaque hostFile (question : Nat) (r : FileRequest) : Option (List Byte)

end Sys2Proof.Config
end

