-- ==== Sys2Proof/Machine/State.lean ====
section
/-! DEFINITION. The state of the machine as plain data (spec/10_state.md), why a step can stop, and the state after
reset (spec/70_reset_and_hazards.md R251). -/

namespace Sys2Proof.Machine

/-- Memory `M`, 65536 bytes (R40): the bytes that differ from what an unlisted address reads as, by strictly rising
address. The form is `Memory.wf` of Machine/Ops.lean. -/
abbrev Memory := List Host.Cell

/-- The data-pool `P`: 256 bytes inside the processor (R10). -/
abbrev Pool := Vector Byte 256

/-- An open file (R203): its path, read from memory when it was opened, and what it was opened for. -/
structure OpenFile where
  path : List Byte
  mode : Config.FileMode
  deriving DecidableEq, Repr

/-- A file of the host's file system: its path and its contents (R201). -/
structure HostFile where
  path : List Byte
  contents : List Byte
  deriving DecidableEq, Repr

/-- Everything the spec gives the machine (spec/10_state.md section 1, R36) and its host (R201). -/
structure State where
  /-- Memory `M` (R40). -/
  mem : Memory
  /-- The data-pool `P` (R10): the memory window, the parameter space, the imaginary registers (R15) and the SIMD
  groups (R35) are places in it. -/
  pool : Pool
  /-- The address registers `ar0` to `ar3` (R16). -/
  ar : Vector Word 4
  /-- The instruction pointer: the address of the current instruction (R20). -/
  ip : Word
  /-- The stack pointer (R24). -/
  sp : Word
  /-- The allocation pointer (R25). -/
  ap : Word
  /-- The window location (R27). -/
  wl : Word
  /-- The flags register (R28), read and written through Machine/Ops.lean. -/
  flg : Word
  /-- The return status register (R34). -/
  rs : Byte
  /-- The pending error (R36, R226). -/
  perr : Option Byte
  /-- The exit code once the program has ended (R36, R222). -/
  halted : Option Byte
  /-- The interrupt handler address that `inth` designates (R36, R211). -/
  ih : Option Word
  /-- The current I/O channel (R36, R202). -/
  chan : Word
  /-- The file position (R36, R207). -/
  fpos : BitVec 64
  /-- The file that is open on the channel, if one is (R203). -/
  openFile : Option OpenFile
  /-- The console inputs the host has supplied and `in` has not yet taken, oldest first (R201, R204). -/
  conIn : List (List Byte)
  /-- The console output log (R201). -/
  conLog : List Byte
  /-- The host's files (R201). -/
  files : List HostFile
  /-- The MODEL's own field: how many questions the host has been asked (log entry 4). -/
  hostAsked : Nat
  deriving DecidableEq, Repr

/-- Why the machine stops without the spec giving the next state a refusal's ground. -/
inductive Fault
  /-- Raised by `step` on a machine that has halted: it "takes no step" (R222). Safe: nothing follows a halt. -/
  | halted
  /-- Raised by `outs` when memory holds no 0x00 byte: "the instruction never completes" (R206, U4, stuck). Safe. -/
  | outsNeverCompletes
  /-- Raised by `in`, `out`, `outs` when the file path to be opened has no 0x00 byte after it anywhere in memory, so that
  reading it never completes (R203, log entry 6). Safe. -/
  | pathNeverEnds
  /-- Raised by `in`, `out`, `outs` where the host gives no answer: no further console input, or a file transfer that
  the host does not carry out (U12, stuck). Safe. -/
  | hostGivesNoAnswer
  deriving DecidableEq, Repr

/-- Why an instruction has no step: the cases for which the spec declines to give a meaning. -/
inductive Refusal
  /-- The instruction has no meaning in the model yet. Raised by `exec`'s own arms only. Safe. -/
  | notModelled (mnemonic : String)
  /-- `mode` with an unassigned word length, 4 to 15 (R167, U2, refuse). Safe. -/
  | modeWordLength
  /-- A data-pool operand whose bytes would run past pool address 0xFF (R13, R44, U5, refuse). Raised by every
  instruction that reads or writes an operand. Safe. -/
  | poolOverrun
  /-- `add`, `sub`, `mul`, `div`, `and`, `or`, `nor`, `xor` or `not` with `flg` or a flag as its destination (R117, U7,
  refuse). Safe. -/
  | flagDestination
  /-- `mul` or `div` whose two destinations have different natural widths (R156, R161, U8, refuse). Safe. -/
  | destinationWidths
  /-- `mul` or `div` whose two destinations are different fields covering overlapping pool bytes (R119, U8, refuse).
  Safe. -/
  | destinationOverlap
  /-- `mul` or `div` with a SIMD group in a field (R129, U9, refuse). Safe. -/
  | mulDivSimd
  /-- `in` or `out` whose first address is above its second (R204, R205, U10, refuse). Safe. -/
  | ioRangeReversed
  /-- `in`, `out` or `outs` while the channel is 1 to 255, a reserved channel (R202, U11, refuse). Safe. -/
  | reservedChannel
  deriving DecidableEq, Repr

/-- The state at the start of a run (R251). `ip`, `sp` and `ap` hold the parameters named in Config.lean (log entry 1);
no image is loaded, no console input is waiting and the host has no file (log entry 3). -/
def State.reset : State where
  mem := []
  pool := Vector.replicate 256 0x00#8
  ar := Vector.replicate 4 0x0000#16
  ip := Config.entry
  sp := Config.stackInit
  ap := Config.stackInit
  wl := Config.wlInit
  flg := 0x0900#16
  rs := 0x00#8
  perr := none
  halted := none
  ih := none
  chan := 0x0000#16
  fpos := 0#64
  openFile := none
  conIn := []
  conLog := []
  files := []
  hostAsked := 0

end Sys2Proof.Machine
end

