-- ==== Sys2Proof/Machine/Ops.lean ====
section
/-! DEFINITION. The named operations over memory, the data-pool, the flags register and the instruction pointer, and
the error mechanism: raising an error, discharging it, halting (spec/20_memory.md, spec/10_state.md,
spec/60_exceptions.md). -/

namespace Sys2Proof.Machine

/-! ### Memory -/

/-- What an address that is not listed reads as: "Every byte the image does not define is 0x00" (R252). -/
def unlistedByte : Byte := 0x00#8

/-- The byte at an address (R42). -/
def Memory.read : Memory → Nat → Byte
  | [], _ => unlistedByte
  | (k, v) :: rest, a => if k = a then v else Memory.read rest a

/-- The list without any entry for an address. -/
def Memory.erase (m : Memory) (a : Nat) : Memory := m.filter fun c => decide (c.1 ≠ a)

/-- The list with an entry added before the first higher address. -/
def Memory.insert : Memory → Nat → Byte → Memory
  | [], a, v => [(a, v)]
  | (k, w) :: rest, a, v => if a < k then (a, v) :: (k, w) :: rest else (k, w) :: Memory.insert rest a v

/-- Store a byte at an address (R43), keeping the canonical form: a byte that is what an unlisted address reads as is
not listed. -/
def Memory.write (m : Memory) (a : Nat) (v : Byte) : Memory :=
  if v = unlistedByte then m.erase a else (m.erase a).insert a v

/-- Every listed address is at least `lo`, inside the 65536 bytes of memory, above the one before it, and holds a byte
other than what an unlisted address reads as. -/
def Memory.risesFrom (lo : Nat) : Memory → Bool
  | [] => true
  | (k, v) :: rest => decide (lo ≤ k) && decide (k < 65536) && decide (v ≠ unlistedByte) && Memory.risesFrom (k + 1) rest

/-- The canonical form: equal memories are equal lists. -/
def Memory.wf (m : Memory) : Bool := Memory.risesFrom 0 m

/-- The `n` bytes from `a` on, addresses modulo 2^16 (R42, R46). -/
def Memory.readBytes (m : Memory) (a : Word) (n : Nat) : List Byte :=
  (List.range n).map fun i => m.read (a + BitVec.ofNat 16 i).toNat

/-- Store bytes from `a` on in ascending order, addresses modulo 2^16 (R43, R46). -/
def Memory.writeBytes (m : Memory) (a : Word) : List Byte → Memory
  | [] => m
  | b :: bs => Memory.writeBytes (m.write a.toNat b) (a + 1#16) bs

/-- The bytes from `a` on up to and not including the first 0x00 byte, addresses modulo 2^16, looking at `fuel` bytes;
none if there is no 0x00 byte among them (R203, R206). -/
def Memory.stringAt (m : Memory) : Nat → Word → Option (List Byte)
  | 0, _ => none
  | fuel + 1, a =>
    if m.read a.toNat = 0x00#8 then some []
    else (Memory.stringAt m fuel (a + 1#16)).map (m.read a.toNat :: ·)

/-- The memory byte `M[a]` (R7). -/
def State.readByte (s : State) (a : Word) : Byte := s.mem.read a.toNat

/-- The bytes of `MemRead(a, n)` (R42). -/
def State.readBytes (s : State) (a : Word) (n : Nat) : List Byte := s.mem.readBytes a n

/-- `MemWrite(a, n, v)` for the bytes of `v` (R43). -/
def State.writeBytes (s : State) (a : Word) (bs : List Byte) : State := { s with mem := s.mem.writeBytes a bs }

/-- The null-terminated string at `a`; none if no byte of memory is 0x00. -/
def State.stringAt (s : State) (a : Word) : Option (List Byte) := s.mem.stringAt 65536 a

/-! ### The data-pool -/

/-- The pool byte `P[a]` (R7, R10). -/
def Pool.byte (p : Pool) (a : Byte) : Byte := p[a.toNat]'a.isLt

/-- `P[a] <- v` (R10). -/
def Pool.setByte (p : Pool) (a : Byte) (v : Byte) : Pool := p.set a.toNat v a.isLt

/-- The bytes of `PoolRead(a, n)` (R44). It is defined only when `a + n <= 256`; the meanings refuse the other
operands first, `fitsPool`. -/
def Pool.readBytes (p : Pool) (a : Byte) (n : Nat) : List Byte :=
  (List.range n).map fun i => p.byte (a + BitVec.ofNat 8 i)

/-- `PoolWrite(a, n, v)` for the bytes of `v` (R44). -/
def Pool.writeBytes (p : Pool) (a : Byte) : List Byte → Pool
  | [] => p
  | b :: bs => Pool.writeBytes (p.setByte a b) (a + 1#8) bs

/-- The pool byte `P[a]` (R7). -/
def State.poolByte (s : State) (a : Byte) : Byte := s.pool.byte a

/-- The bytes of `PoolRead(a, n)` (R44). -/
def State.readPool (s : State) (a : Byte) (n : Nat) : List Byte := s.pool.readBytes a n

/-- `PoolWrite(a, n, v)` for the bytes of `v` (R44). -/
def State.writePool (s : State) (a : Byte) (bs : List Byte) : State := { s with pool := s.pool.writeBytes a bs }

/-- The access of `n` bytes at pool address `a` stays inside the pool (R13, R44, U5). -/
def fitsPool (a : Byte) (n : Nat) : Bool := decide (a.toNat + n ≤ 256)

/-! ### The flags register -/

/-- The flag's bit of `flg`, R28. -/
def flagBit : Flag → Nat
  | .ZF => 15
  | .SF => 14
  | .OF => 13
  | .NOF => 12
  | .TF => 11
  | .EF => 10
  | .DZF => 9
  | .RF => 8
  | .SEF => 7
  | .FMF => 6

/-- What `flg` holds when `v` is put into it: bit 11 (TF) stays 1 and bits 3..0 stay 0 (R31). -/
def flgForm (v : Word) : Word := (v ||| 0x0800#16) &&& 0xFFF0#16

/-- `v` with a flag's bit set or cleared; TF stays 1 (R31, R117). -/
def flgWith (f : Flag) (b : Bool) (v : Word) : Word :=
  flgForm (if b then v ||| (1#16 <<< flagBit f) else v &&& ~~~(1#16 <<< flagBit f))

/-- `v` with WLF0 (bit 5) and WLF1 (bit 4) taken from a 2-bit number (R29, R117). -/
def flgWithWlb (n : BitVec 2) (v : Word) : Word :=
  flgForm ((v &&& 0xFFCF#16) ||| (n.setWidth 16 <<< 4))

/-- `flg` as it is read: bit 11 reads 1, bits 3..0 read 0 (R31, R114). -/
def State.flgRead (s : State) : Word := flgForm s.flg

/-- A flag's value (R29); TF always reads 1 (R31). -/
def State.flag (s : State) (f : Flag) : Bool := s.flgRead.getLsbD (flagBit f)

/-- `WLB = WLF0 ++ WLF1` (R29, R30). -/
def State.wlb (s : State) : BitVec 2 := s.flgRead.extractLsb' 4 2

/-- The word size in bits, `W = 8 * 2^WLB` (R30). -/
def State.wordSize (s : State) : Nat := 8 * 2 ^ s.wlb.toNat

/-- Write `flg` whole (R117). -/
def State.setFlg (s : State) (v : Word) : State := { s with flg := flgForm v }

/-- Write one flag (R117). -/
def State.setFlag (s : State) (f : Flag) (b : Bool) : State := { s with flg := flgWith f b s.flg }

/-- Write the word length flags (R117, R167). -/
def State.setWlb (s : State) (n : BitVec 2) : State := { s with flg := flgWithWlb n s.flg }

/-- The flag a conditional branch ID names (R180). -/
def branchFlag (c : BitVec 3) : Flag :=
  match c.toNat with
  | 0 => .ZF
  | 1 => .SF
  | 2 => .OF
  | 3 => .NOF
  | 4 => .TF
  | 5 => .EF
  | 6 => .DZF
  | _ => .RF

/-! ### The instruction pointer -/

/-- `ip <- ip + len`, modulo 2^16 (R22). -/
def State.advance (s : State) (len : Nat) : State := { s with ip := s.ip + BitVec.ofNat 16 len }

/-- `ip <- target` (R7). -/
def State.jump (s : State) (target : Word) : State := { s with ip := target }

/-! ### Errors and halting: the machine's whole exception mechanism -/

/-- The exit codes of R220 that the machine itself gives. -/
def simdErrorCode : Byte := 0x02#8
def divideByZeroCode : Byte := 0x03#8
def unresolvedErrorCode : Byte := 0x04#8
def signBitOverflowCode : Byte := 0x05#8
def invalidInstructionCode : Byte := 0x06#8

/-- `if cond then raise <Error>(code)`, R226: EF is set and, if RF is 1 as the instruction leaves it, `code` becomes the
pending error. The error's own flag is set by the instruction's rule. -/
def State.raiseIf (s : State) (cond : Bool) (code : Byte) : State :=
  { s with
    flg := if cond then flgWith .EF true s.flg else s.flg
    perr := if cond && s.flag .RF then some code else s.perr }

/-- `raise <Error>(code)`, R226. -/
def State.raise (s : State) (code : Byte) : State := s.raiseIf true code

/-- The SIMD error of R128: SEF and EF are set, the pending error is 0x02 if RF is 1, no operand is written and `ip`
advances by the instruction's length. -/
def State.simdError (s : State) (len : Nat) : State := ((s.setFlag .SEF true).raise simdErrorCode).advance len

/-- The pending error is discharged by a branch that tests EF (R228). -/
def State.discharge (s : State) : State := { s with perr := none }

/-- `halt(code)`, R222: the program ends with an exit code; `ip` is not advanced. The host closes the open file
(R142, R203). -/
def State.halt (s : State) (code : Byte) : State := { s with halted := some code, openFile := none }

/-- An invalid instruction halts with code 0x06 before any state is written (R232). -/
def State.invalidInstruction (s : State) : State := s.halt invalidInstructionCode

end Sys2Proof.Machine
end

