-- ==== Sys2Proof/Machine/Flags.lean ====
section
/-! DEFINITION. The flags an operation computes from its operands and result (spec/42_arith_logic.md R151 to R174). -/

namespace Sys2Proof.Machine

/-- The result of an arithmetic operation and the flags it computes. -/
structure ArithResult (N : Nat) where
  value : BitVec N
  zf : Bool
  sf : Bool
  of : Bool
  nof : Bool
  deriving DecidableEq, Repr

/-- OF of an addition: the carry out of the top bit, `u(a) + u(b) >= 2^N` (R154). -/
def carryOut {N : Nat} (a b : BitVec N) : Bool := decide (2 ^ N ≤ a.toNat + b.toNat)

/-- OF of a subtraction: the borrow, `u(a) < u(b)` (R155). -/
def borrowOut {N : Nat} (a b : BitVec N) : Bool := decide (a.toNat < b.toNat)

/-- NOF of an addition with result `r` (R154). -/
def addOverflow {N : Nat} (a b r : BitVec N) : Bool := (a.msb == b.msb) && (r.msb != a.msb)

/-- NOF of a subtraction with result `r` (R155). -/
def subOverflow {N : Nat} (a b r : BitVec N) : Bool := (a.msb != b.msb) && (r.msb != a.msb)

/-- `add` (R154). -/
def addResult {N : Nat} (a b : BitVec N) : ArithResult N where
  value := a + b
  zf := a + b == 0#N
  sf := (a + b).msb
  of := carryOut a b
  nof := addOverflow a b (a + b)

/-- `sub`, and what `cmp` and `alloc` compute (R155, R174, R196). -/
def subResult {N : Nat} (a b : BitVec N) : ArithResult N where
  value := a - b
  zf := a - b == 0#N
  sf := (a - b).msb
  of := borrowOut a b
  nof := subOverflow a b (a - b)

/-- The sign rule of `mul`, on the signed factors `x`, `y` and the signed stored product `z` (R157). -/
def mulSignRule (x y z : Int) : Bool :=
  decide ((x > 0 ∧ y > 0 ∧ z < 0) ∨ (x < 0 ∧ y < 0 ∧ z < 0) ∨ (x < 0 ∧ y > 0 ∧ z > 0) ∨ (x > 0 ∧ y < 0 ∧ z > 0))

/-- The exact signed product (R156). -/
def signedProduct {N : Nat} (a b : BitVec N) : Int := a.toInt * b.toInt

/-- The upper half of the `2N`-bit product, `(p mod 2^(2N)) div 2^N` (R156). -/
def productHigh {N : Nat} (a b : BitVec N) : BitVec N := BitVec.ofInt N ((signedProduct a b % 2 ^ (2 * N)) / 2 ^ N)

/-- The lower half of the product, `p mod 2^N` (R156). -/
def productLow {N : Nat} (a b : BitVec N) : BitVec N := BitVec.ofInt N (signedProduct a b)

/-- `mul` with two destinations: the flags describe the whole product, which always fits (R156). -/
def mulWideResult {N : Nat} (a b : BitVec N) : ArithResult N where
  value := productLow a b
  zf := decide (signedProduct a b = 0)
  sf := decide (signedProduct a b < 0)
  of := false
  nof := false

/-- `mul` with one destination: OF when the product is not the signed value of its stored low half (R156). -/
def mulNarrowResult {N : Nat} (a b : BitVec N) : ArithResult N where
  value := productLow a b
  zf := productLow a b == 0#N
  sf := (productLow a b).msb
  of := decide (signedProduct a b ≠ (productLow a b).toInt)
  nof := mulSignRule a.toInt b.toInt (productLow a b).toInt

/-- The quotient of `div`, `floor(a / b)` in its low `N` bits (R161). -/
def divQuotient {N : Nat} (a b : BitVec N) : BitVec N := BitVec.ofInt N (Int.fdiv a.toInt b.toInt)

/-- The modulo of `div`, `a - b * q` in its low `N` bits (R161). -/
def divModulo {N : Nat} (a b : BitVec N) : BitVec N :=
  BitVec.ofInt N (a.toInt - b.toInt * Int.fdiv a.toInt b.toInt)

/-- Assign ZF and, where the operand widths agree, SF (R151, R152). -/
def State.setZeroSign (s : State) (zf : Bool) (widthsAgree : Bool) (sf : Bool) : State :=
  if widthsAgree then (s.setFlag .ZF zf).setFlag .SF sf else s.setFlag .ZF zf

/-- Assign the flags of `add`, `sub`, `cmp`, `alloc`, `mul`: ZF, SF where the widths agree, OF and NOF (R154). -/
def State.setArithFlags {N : Nat} (s : State) (r : ArithResult N) (widthsAgree : Bool) : State :=
  ((s.setZeroSign r.zf widthsAgree r.sf).setFlag .OF r.of).setFlag .NOF r.nof

end Sys2Proof.Machine
end

