-- ==== Sys2Proof/Machine/Operands.lean ====
section
/-! DEFINITION. Operands: effective addresses, widths, reading, writing, SIMD lanes
(spec/40_operands_simd.md R100 to R131). -/

namespace Sys2Proof.Machine

/-! ### Registers -/

/-- The pool address of an imaginary register of the window, `wi k` (R15). -/
def wiBase (k : Fin 4) : Byte := BitVec.ofNat 8 (2 * k.val)

/-- The pool address of an imaginary register of the parameter space, `pi k` (R15). -/
def piBase (k : Fin 4) : Byte := BitVec.ofNat 8 (0x80 + 2 * k.val)

/-- The 16-bit value at a pool address, `PoolRead(a, 2)` (R15, R44). -/
def State.readPoolWord (s : State) (a : Byte) : Word := ofBytes 16 (s.readPool a 2)

/-- A register's value (R114); `rs` is 8 bits and is extended with zeros here (R34, R112). -/
def State.readReg (s : State) : Reg → Word
  | .wi k => s.readPoolWord (wiBase k)
  | .pi k => s.readPoolWord (piBase k)
  | .ar k => s.ar[k.val]
  | .ip => s.ip
  | .sp => s.sp
  | .ap => s.ap
  | .wl => s.wl
  | .flg => s.flgRead
  | .rs => s.rs.setWidth 16

/-- Write a register (R115): `ip` gets the address of the next instruction (R118), a write to `wl` moves no data
(R27), `rs` keeps 8 bits (R34), and a write of `flg` with bit 10 set raises the general error 0x04 (R117, R227). -/
def State.writeReg (s : State) (r : Reg) (v : Word) : State :=
  match r with
  | .wi k => s.writePool (wiBase k) (toBytes 2 v)
  | .pi k => s.writePool (piBase k) (toBytes 2 v)
  | .ar k => { s with ar := s.ar.set k.val v }
  | .ip => s.jump v
  | .sp => { s with sp := v }
  | .ap => { s with ap := v }
  | .wl => { s with wl := v }
  | .flg => (s.setFlg v).raiseIf (v.getLsbD 10) unresolvedErrorCode
  | .rs => { s with rs := v.setWidth 8 }

/-- The value of a register that addresses memory (R100). -/
def State.addrReg (s : State) : AddrReg → Word
  | .wi k => s.readPoolWord (wiBase k)
  | .pi k => s.readPoolWord (piBase k)
  | .ar k => s.ar[k.val]
  | .sp => s.sp
  | .ap => s.ap
  | .wl => s.wl

/-- The effective address of a memory operand (R100), modulo 2^16. -/
def State.ea (s : State) : MemRef → Word
  | .reg r => s.addrReg r
  | .off r o => s.addrReg r + o
  | .abs a => a

/-! ### Widths -/

/-- The width of a literal (R110). -/
def litWidth : Lit → Nat
  | .b8 _ => 8
  | .b16 _ => 16
  | .b32 _ => 32
  | .b64 _ => 64

/-- The value of a literal, in 64 bits. -/
def litValue : Lit → BitVec 64
  | .b8 v => v.setWidth 64
  | .b16 v => v.setWidth 64
  | .b32 v => v.setWidth 64
  | .b64 v => v

/-- The width of a register (R110, R34). -/
def regWidth : Reg → Nat
  | .rs => 8
  | _ => 16

/-- An operand's natural width in bits at word size `W`; none for memory, which has none of its own (R110, R111). -/
def naturalWidth (W : Nat) : Operand → Option Nat
  | .pool _ => some W
  | .reg r => some (regWidth r)
  | .lit v => some (litWidth v)
  | .flag _ => some 8
  | .wlb => some 8
  | .mem _ => none
  | .simd _ => some 512

/-- The width of an operand opposite another: its own, or for memory the other's (R111). -/
def State.widthBeside (s : State) (o other : Operand) : Nat :=
  (naturalWidth s.wordSize o).getD ((naturalWidth s.wordSize other).getD 0)

/-- The natural widths of two operands are not different; memory never makes widths differ (R113). -/
def State.widthsAgree (s : State) (a b : Operand) : Bool :=
  match naturalWidth s.wordSize a, naturalWidth s.wordSize b with
  | some n, some m => n == m
  | _, _ => true

/-- The operand is a SIMD group (R121). -/
def isSimd : Operand → Bool
  | .simd _ => true
  | _ => false

/-- The operand is `flg` or a flag (class FLAG, R70; U7). -/
def isFlagOperand : Operand → Bool
  | .reg .flg => true
  | .flag _ => true
  | .wlb => true
  | _ => false

/-- The operand is a data-pool operand or a SIMD group: the operands that floating-point mode speaks of (R168). -/
def isFloatOperand : Operand → Bool
  | .pool _ => true
  | .simd _ => true
  | _ => false

/-- The bytes of a data-pool operand lie inside the pool at the current word size (R13, U5). -/
def State.operandFits (s : State) : Operand → Bool
  | .pool a => fitsPool a (s.wordSize / 8)
  | _ => true

/-! ### SIMD groups -/

/-- The first pool byte of a SIMD group (R35). -/
def groupBase : Group → Byte
  | .w0 => 0x00#8
  | .w1 => 0x40#8
  | .p0 => 0x80#8
  | .p1 => 0xC0#8

/-- The 64 bytes of a SIMD group (R35). -/
def State.readGroup (s : State) (g : Group) : List Byte := s.readPool (groupBase g) 64

/-- Write the 64 bytes of a SIMD group (R35). -/
def State.writeGroup (s : State) (g : Group) (bs : List Byte) : State := s.writePool (groupBase g) bs

/-- 64 bytes cut into lanes of `W` bits, lane `i` at bytes `i*W/8` on (R120). -/
def lanesOf (W : Nat) (bs : List Byte) : List (BitVec W) :=
  (List.range (512 / W)).map fun i => ofBytes W ((bs.drop (i * (W / 8))).take (W / 8))

/-- The bytes of lanes, in order (R120). -/
def bytesOf {W : Nat} (lanes : List (BitVec W)) : List Byte := lanes.flatMap (toBytes (W / 8))

/-! ### Reading -/

/-- `ReadOp(k, N)` (R114): the operand's value converted to `N` bits. A memory operand is read at `N` bits (R111).
(A SIMD group is no scalar; it is given its 512 bits here, R110, and no meaning reads it this way.) -/
def State.readOp (s : State) (o : Operand) (N : Nat) : BitVec N :=
  match o with
  | .pool a => ofBytes N (s.readPool a (s.wordSize / 8))
  | .reg r => (s.readReg r).setWidth N
  | .lit v => (litValue v).setWidth N
  | .flag f => (BitVec.ofBool (s.flag f)).setWidth N
  | .wlb => s.wlb.setWidth N
  | .mem m => ofBytes N (s.readBytes (s.ea m) (N / 8))
  | .simd g => ofBytes N (s.readGroup g)

/-! ### Writing -/

/-- `WriteOp(k, N, v)` (R115, R117). A literal is no destination, and an instruction that has one is invalid (R81): it
stores nothing. -/
def State.writeOp {N : Nat} (s : State) (o : Operand) (v : BitVec N) : State :=
  match o with
  | .pool a => s.writePool a (toBytes (s.wordSize / 8) v)
  | .reg r => s.writeReg r (v.setWidth 16)
  | .lit _ => s
  | .flag f => (s.setFlag f (v.getLsbD 0)).raiseIf (decide (f = .EF) && v.getLsbD 0) unresolvedErrorCode
  | .wlb => s.setWlb (v.setWidth 2)
  | .mem m => s.writeBytes (s.ea m) (toBytes (N / 8) v)
  | .simd g => s.writeGroup g (toBytes 64 v)

/-- The end of an instruction with destination `d`: `ip` advances by its length unless `d` is `ip` (R22, R118). -/
def State.finish (s : State) (d : Operand) (len : Nat) : State :=
  if d = .reg .ip then s else s.advance len

/-! ### Floating-point mode -/

/-- The instruction is one whose arithmetic floating-point mode changes: FMF is 1 and some operand is a data-pool
operand or a SIMD group (R168). -/
def State.floatMode (s : State) (ops : List Operand) : Bool := s.flag .FMF && ops.any isFloatOperand

/-- An operand as a floating-point operation receives it; a memory operand has the operation's width (R111). -/
def State.floatArg (s : State) (o : Operand) (N : Nat) : Config.FloatArg :=
  let n := (naturalWidth s.wordSize o).getD N
  { width := n, fromPool := isFloatOperand o, bits := (s.readOp o n).toNat }

/-- The result of a floating-point operation with one destination: `FLOAT_OPS`' value and flags (U1, log entry 2). -/
def floatResult (op : Config.FloatOp) (N : Nat) (a b : Config.FloatArg) : ArithResult N :=
  let r := Config.floatOps op N a b
  { value := r.low.setWidth N, zf := r.zf, sf := r.sf, of := r.of, nof := r.nof }

end Sys2Proof.Machine
end

