-- ==== Sys2Proof/Machine/Alu.lean ====
section
/-! DEFINITION. What the two-operand arithmetic and logic instructions share: which operands they act on, refuse or
err on, the SIMD lanes, and storing a scalar result (spec/40_operands_simd.md R121 to R130,
spec/42_arith_logic.md R150 to R155). -/

namespace Sys2Proof.Machine

/-- How an instruction ends. -/
abbrev StepOutcome := Host.Outcome State Fault Refusal

/-- The lanes a SIMD destination is combined with (R122, R123, R124): the lanes of the source group, of 64 bytes of
memory, or the scalar, read once and converted to the lane width, for every lane. -/
def State.sourceLanes (s : State) (src : Operand) : List (BitVec s.wordSize) :=
  match src with
  | .simd h => lanesOf s.wordSize (s.readGroup h)
  | .mem m => lanesOf s.wordSize (s.readBytes (s.ea m) 64)
  | o => List.replicate (512 / s.wordSize) (s.readOp o s.wordSize)

/-- `d[i] <- op(d[i], s[i])` for every lane, all lanes read before any is written; no flags (R122, R126). -/
def State.groupOp (s : State) (g : Group) (src : Operand)
    (op : BitVec s.wordSize → BitVec s.wordSize → BitVec s.wordSize) : State :=
  s.writeGroup g (bytesOf (List.zipWith op (lanesOf s.wordSize (s.readGroup g)) (s.sourceLanes src)))

/-- The source lanes as a floating-point operation receives them (R130, U1). -/
def State.sourceArgs (s : State) (src : Operand) : List Config.FloatArg :=
  match src with
  | .simd _ => (s.sourceLanes src).map fun v => { width := s.wordSize, fromPool := true, bits := v.toNat }
  | .mem _ => (s.sourceLanes src).map fun v => { width := s.wordSize, fromPool := false, bits := v.toNat }
  | o => List.replicate (512 / s.wordSize) (s.floatArg o s.wordSize)

/-- The lanes of `add` and `sub` in floating-point mode: each is `FLOAT_OPS`' value; no flags (R126, R130, U1). -/
def State.groupFloat (s : State) (g : Group) (src : Operand) (op : Config.FloatOp) : State :=
  s.writeGroup g (bytesOf (List.zipWith
    (fun (a : BitVec s.wordSize) b =>
      ((Config.floatOps op s.wordSize { width := s.wordSize, fromPool := true, bits := a.toNat } b).low.setWidth
        s.wordSize))
    (lanesOf s.wordSize (s.readGroup g)) (s.sourceArgs src)))

/-- Store an arithmetic result: flags, destination, `ip`, and the error of NOF (R154, R155). -/
def State.storeArith {N : Nat} (s : State) (d : Operand) (len : Nat) (agree : Bool) (r : ArithResult N) : State :=
  (((s.setArithFlags r agree).writeOp d r.value).finish d len).raiseIf r.nof signBitOverflowCode

/-- Store the result of a logic instruction: ZF, SF where the widths agree, destination, `ip` (R169). -/
def State.storeLogic {N : Nat} (s : State) (d : Operand) (len : Nat) (agree : Bool) (r : BitVec N) : State :=
  ((s.setZeroSign (r == 0#N) agree r.msb).writeOp d r).finish d len

/-- The cases of a two-operand arithmetic or logic instruction (R121): an invalid destination halts (R232); a SIMD
destination is combined lane by lane; a SIMD source opposite a scalar destination is the SIMD error, which pre-empts
everything else (R128, R233); `flg` or a flag as destination is refused (U7); a pool operand that runs past the
pool is refused (U5). -/
def aluCases (d src : Operand) (len : Nat) (s : State) (lanes : Group → State) (scalar : State) : StepOutcome :=
  if (badDest d).isSome then .next s.invalidInstruction
  else match d with
    | .simd g => if s.operandFits src then .next ((lanes g).advance len) else .refused .poolOverrun
    | _ =>
      if isSimd src then .next (s.simdError len)
      else if isFlagOperand d then .refused .flagDestination
      else if s.operandFits d && s.operandFits src then .next scalar
      else .refused .poolOverrun

/-- The scalar subtraction of `sub` and `alloc` (R155, R196). -/
def State.scalarSub (s : State) (d src : Operand) (len : Nat) : State :=
  let N := s.widthBeside d src
  s.storeArith d len (s.widthsAgree d src)
    (if s.floatMode [d, src] then floatResult .sub N (s.floatArg d N) (s.floatArg src N)
     else subResult (s.readOp d N) (s.readOp src N))

/-- A scalar logic instruction (R169). -/
def State.scalarLogic (s : State) (d src : Operand) (len : Nat) (op : ∀ {N : Nat}, BitVec N → BitVec N → BitVec N) :
    State :=
  let N := s.widthBeside d src
  s.storeLogic d len (s.widthsAgree d src) (op (s.readOp d N) (s.readOp src N))

/-- A logic instruction: lanes or scalar (R122, R169). -/
def logicCases (d src : Operand) (len : Nat) (s : State) (op : ∀ {N : Nat}, BitVec N → BitVec N → BitVec N) :
    StepOutcome :=
  aluCases d src len s (fun g => s.groupOp g src op) (s.scalarLogic d src len op)

end Sys2Proof.Machine
end

