-- ==== Sys2Proof/Machine/Arith.lean ====
section
/-! DEFINITION. `add`, `sub`, `mul`, `div`, `cmp` (spec/42_arith_logic.md R154 to R162, R168, R174). -/

namespace Sys2Proof.Machine

/-- The scalar addition (R154). -/
def State.scalarAdd (s : State) (d src : Operand) (len : Nat) : State :=
  let N := s.widthBeside d src
  s.storeArith d len (s.widthsAgree d src)
    (if s.floatMode [d, src] then floatResult .add N (s.floatArg d N) (s.floatArg src N)
     else addResult (s.readOp d N) (s.readOp src N))

/-- `add` (R154, R122 to R124). -/
def execAdd (d src : Operand) (s : State) : StepOutcome :=
  aluCases d src (Instr.add d src).len s
    (fun g => if s.flag .FMF then s.groupFloat g src .add else s.groupOp g src (· + ·))
    (s.scalarAdd d src (Instr.add d src).len)

/-- `sub` (R155, R122 to R124). -/
def execSub (d src : Operand) (s : State) : StepOutcome :=
  aluCases d src (Instr.sub d src).len s
    (fun g => if s.flag .FMF then s.groupFloat g src .sub else s.groupOp g src (· - ·))
    (s.scalarSub d src (Instr.sub d src).len)

/-- The pool bytes a scalar destination covers, first and count; none if it is not in the pool (R13, R15). -/
def poolSpan (W : Nat) : Operand → Option (Nat × Nat)
  | .pool a => some (a.toNat, W / 8)
  | .reg (.wi k) => some ((wiBase k).toNat, 2)
  | .reg (.pi k) => some ((piBase k).toNat, 2)
  | _ => none

/-- Two destinations cover overlapping pool bytes (R119). -/
def spansOverlap (W : Nat) (d1 d2 : Operand) : Bool :=
  match poolSpan W d1, poolSpan W d2 with
  | some (a, n), some (b, m) => decide (a < b + m) && decide (b < a + n)
  | _, _ => false

/-- The operands on which the spec gives `mul` and `div` no meaning: a SIMD group (U9), `flg` or a flag as destination
(U7), destinations of different widths (U8), a pool operand that runs past the pool (U5), and different fields that
overlap (U8). -/
def State.mulDivRefusal (s : State) (d1 d2 src : Operand) : Option Refusal :=
  if isSimd d1 || isSimd d2 || isSimd src then some .mulDivSimd
  else if isFlagOperand d1 || isFlagOperand d2 then some .flagDestination
  else if naturalWidth s.wordSize d1 ≠ naturalWidth s.wordSize d2 then some .destinationWidths
  else if !(s.operandFits d1 && s.operandFits d2 && s.operandFits src) then some .poolOverrun
  else if decide (d1 ≠ d2) && spansOverlap s.wordSize d1 d2 then some .destinationOverlap
  else none

/-- Write the first destination, unless it is the same operand as the second, then the second, then `ip` advances
unless one of them is `ip` (R119, R156, R161, R118). -/
def State.storeTwo {N : Nat} (s : State) (d1 d2 : Operand) (len : Nat) (v1 v2 : BitVec N) : State :=
  let s1 := if d1 = d2 then s else s.writeOp d1 v1
  let s2 := s1.writeOp d2 v2
  if d1 = .reg .ip then s2 else s2.finish d2 len

/-- Store a product: flags, the halves, and the errors, 0x05 for NOF, else 0x04 for OF (R156, R227). -/
def State.storeProduct {N : Nat} (s : State) (hi lo : Operand) (len : Nat) (agree : Bool) (r : ArithResult N)
    (high : BitVec N) : State :=
  (((s.setArithFlags r agree).storeTwo hi lo len high r.value).raiseIf r.nof signBitOverflowCode).raiseIf
    (r.of && !r.nof) unresolvedErrorCode

/-- The product of `mul` (R156), at the width of the destinations; in floating-point mode `FLOAT_OPS`' (U1). -/
def State.mulStep (s : State) (hi lo src : Operand) (len : Nat) : State :=
  let N := s.widthBeside lo src
  let a := s.readOp lo N
  let b := s.readOp src N
  if s.floatMode [hi, lo, src] then
    s.storeProduct hi lo len (s.widthsAgree lo src) (floatResult .mul N (s.floatArg lo N) (s.floatArg src N))
      ((Config.floatOps .mul N (s.floatArg lo N) (s.floatArg src N)).high.setWidth N)
  else if hi = lo then
    s.storeProduct hi lo len (s.widthsAgree lo src) (mulNarrowResult a b) (productHigh a b)
  else
    s.storeProduct hi lo len (s.widthsAgree lo src) (mulWideResult a b) (productHigh a b)

/-- `mul` (R156). -/
def execMul (hi lo src : Operand) (s : State) : StepOutcome :=
  if ((badDest hi).or (badDest lo)).isSome then .next s.invalidInstruction
  else match s.mulDivRefusal hi lo src with
    | some r => .refused r
    | none => .next (s.mulStep hi lo src (Instr.mul hi lo src).len)

/-- Division by zero: DZF and the error 0x03; the destinations, ZF and SF are unchanged and `ip` advances (R161,
R226). -/
def State.divideByZero (s : State) (len : Nat) : State := ((s.setFlag .DZF true).raise divideByZeroCode).advance len

/-- Store a quotient and modulo: DZF 0, ZF, SF where the widths agree, the destinations, `ip` (R161). -/
def State.storeQuotient {N : Nat} (s : State) (m q : Operand) (len : Nat) (agree zf sf : Bool)
    (modulo quotient : BitVec N) : State :=
  (((s.setFlag .DZF false).setZeroSign zf agree sf).storeTwo m q len modulo quotient)

/-- The division of `div` (R161), at the width of the destinations; in floating-point mode `FLOAT_OPS`' (U1). -/
def State.divStep (s : State) (m q src : Operand) (len : Nat) : State :=
  let N := s.widthBeside q src
  let a := s.readOp q N
  let b := s.readOp src N
  if s.floatMode [m, q, src] then
    let r := Config.floatOps .div N (s.floatArg q N) (s.floatArg src N)
    if r.divideByZero then s.divideByZero len
    else s.storeQuotient m q len (s.widthsAgree q src) r.zf r.sf (r.high.setWidth N) (r.low.setWidth N)
  else if b = 0#N then s.divideByZero len
  else
    s.storeQuotient m q len (s.widthsAgree q src) (divQuotient a b == 0#N) (divQuotient a b).msb
      (divModulo a b) (divQuotient a b)

/-- `div` (R161). -/
def execDiv (m q src : Operand) (s : State) : StepOutcome :=
  if ((badDest m).or (badDest q)).isSome then .next s.invalidInstruction
  else match s.mulDivRefusal m q src with
    | some r => .refused r
    | none => .next (s.divStep m q src (Instr.div m q src).len)

/-- The comparison of `cmp`, at the larger width: the flags of the subtraction, nothing stored (R174). -/
def State.compare (s : State) (a b : Operand) (len : Nat) : State :=
  let N := max (s.widthBeside a b) (s.widthBeside b a)
  let r := if s.floatMode [a, b] then floatResult .sub N (s.floatArg a N) (s.floatArg b N)
    else subResult (s.readOp a N) (s.readOp b N)
  ((s.setArithFlags r (s.widthsAgree a b)).advance len).raiseIf r.nof signBitOverflowCode

/-- `cmp` (R174; SIMD error R128). -/
def execCmp (a b : Operand) (s : State) : StepOutcome :=
  if (badSources a b).isSome then .next s.invalidInstruction
  else if isSimd a || isSimd b then .next (s.simdError (Instr.cmp a b).len)
  else if s.operandFits a && s.operandFits b then .next (s.compare a b (Instr.cmp a b).len)
  else .refused .poolOverrun

end Sys2Proof.Machine
end

