-- ==== Sys2Proof/Machine/Control.lean ====
section
/-! DEFINITION. `exit` and its aliases, `ign`, `mode`, `NOP` (spec/41_exit.md R140, R141,
spec/42_arith_logic.md R166, R167, spec/45_io.md R212). -/

namespace Sys2Proof.Machine

/-- `exit` (R140). -/
def execExit (code : Byte) (s : State) : StepOutcome := .next (s.halt code)

/-- Opcode 0x1B, an alias of `exit` (R141). -/
def execExit1B (code : Byte) (s : State) : StepOutcome := .next (s.halt code)

/-- Opcode 0x1C, an alias of `exit` (R141). -/
def execExit1C (code : Byte) (s : State) : StepOutcome := .next (s.halt code)

/-- Opcode 0x1D, an alias of `exit` (R141). -/
def execExit1D (code : Byte) (s : State) : StepOutcome := .next (s.halt code)

/-- Opcode 0x1E, an alias of `exit` (R141). -/
def execExit1E (code : Byte) (s : State) : StepOutcome := .next (s.halt code)

/-- Opcode 0x1F, an alias of `exit` (R141). -/
def execExit1F (code : Byte) (s : State) : StepOutcome := .next (s.halt code)

/-- `ign` (R166): RF is cleared by zero type bits and set by any others. -/
def execIgn (t : BitVec 3) (s : State) : StepOutcome :=
  .next ((s.setFlag .RF (t != 0#3)).advance (Instr.ign t).len)

/-- `mode` (R167): the low nibble selects the word length, a non-zero high nibble floating-point mode; word lengths 4
to 15 are unassigned and refused (U2). -/
def execMode (imm : Byte) (s : State) : StepOutcome :=
  if 3 < (imm.extractLsb' 0 4).toNat then .refused .modeWordLength
  else .next (((s.setWlb (imm.extractLsb' 0 2)).setFlag .FMF (imm.extractLsb' 4 4 != 0#4)).advance (Instr.mode imm).len)

/-- `NOP` (R212). -/
def execNop (s : State) : StepOutcome := .next (s.advance Instr.nop.len)

end Sys2Proof.Machine
end

