-- ==== Sys2Proof/Machine/Flow.lean ====
section
/-! DEFINITION. `jfl`, `sfl`, `call`, `ret` (spec/43_flow_control.md R180 to R187). -/

namespace Sys2Proof.Machine

/-- A branch has tested flag `c`: testing EF clears it, no other flag changes (R181). -/
def State.tested (s : State) (c : BitVec 3) : State := if c = 5#3 then s.setFlag .EF false else s

/-- `jfl` (R182): branch if the flag is 1. -/
def execJfl (c : BitVec 3) (target : Word) (s : State) : StepOutcome :=
  .next (if s.flag (branchFlag c) then (s.tested c).jump target else (s.tested c).advance (Instr.jfl c target).len)

/-- `sfl` (R183): branch if the flag is 0. -/
def execSfl (c : BitVec 3) (target : Word) (s : State) : StepOutcome :=
  .next (if s.flag (branchFlag c) then (s.tested c).advance (Instr.sfl c target).len else (s.tested c).jump target)

/-- The three stores of `call`, in the order listed: the return address, `sp`, `ap`, all from before (R184, R51). -/
def State.pushFrame (s : State) (returnAddress : Word) : State :=
  ((s.writeBytes (s.ap - 6#16) (toBytes 2 returnAddress)).writeBytes (s.ap - 4#16) (toBytes 2 s.sp)).writeBytes
    (s.ap - 2#16) (toBytes 2 s.ap)

/-- `call` (R184). -/
def execCall (target : Word) (s : State) : StepOutcome :=
  let s1 := (s.pushFrame (s.ip + BitVec.ofNat 16 (Instr.call target).len)).setFlag .RF true
  .next { s1 with ip := target, sp := s.ap - 6#16, ap := s.ap - 6#16 }

/-- The 16-bit value in memory at an address, `MemRead(a, 2)` (R42). -/
def State.readWord (s : State) (a : Word) : Word := ofBytes 16 (s.readBytes a 2)

/-- `ret` (R186): the three loads use the old `sp`; RF is set before the error of a non-zero status is raised. -/
def execRet (status : Byte) (s : State) : StepOutcome :=
  let s1 := { s.setFlag .RF true with
    ip := s.readWord s.sp
    sp := s.readWord (s.sp + 2#16)
    ap := s.readWord (s.sp + 4#16)
    rs := status }
  .next (s1.raiseIf (status != 0#8) status)

end Sys2Proof.Machine
end

