-- ==== Sys2Proof/Machine/Transfer.lean ====
section
/-! DEFINITION. `mov`, `mw`, `alloc` (spec/44_data_transfer.md R190 to R196). -/

namespace Sys2Proof.Machine

/-- `mov` between scalars and memory (R190): a memory destination takes the source's width. -/
def State.movScalar (s : State) (d src : Operand) (len : Nat) : State :=
  (s.writeOp d (s.readOp src (s.widthBeside d src))).finish d len

/-- `mov` (R190, R192): a SIMD destination takes the source lane by lane (R122 to R124); a SIMD source is stored to 64
bytes of memory (R125) and is the SIMD error opposite a scalar destination (R128). -/
def execMov (d src : Operand) (s : State) : StepOutcome :=
  if (badMov d src).isSome then .next s.invalidInstruction
  else match d, src with
    | .simd g, _ =>
      if s.operandFits src then .next ((s.groupOp g src (fun _ x => x)).advance (Instr.mov d src).len)
      else .refused .poolOverrun
    | .mem m, .simd g => .next ((s.writeBytes (s.ea m) (s.readGroup g)).advance (Instr.mov d src).len)
    | _, .simd _ => .next (s.simdError (Instr.mov d src).len)
    | _, _ =>
      if s.operandFits d && s.operandFits src then .next (s.movScalar d src (Instr.mov d src).len)
      else .refused .poolOverrun

/-- `WindowAddr` (R194): two pool bytes whatever the word size; a memory operand's effective address, with no memory
read; any other operand's value in 16 bits. -/
def State.windowAddr (s : State) : Operand → Word
  | .pool a => s.readPoolWord a
  | .mem m => s.ea m
  | o => s.readOp o 16

/-- The number of pool bytes a data-pool operand supplies lies inside the pool (R44, U5), for the instructions that
read a fixed number of them (R194, R200). -/
def fitsBytes (n : Nat) : Operand → Bool
  | .pool a => fitsPool a n
  | _ => true

/-- Move the window to `new` (R193): the whole window to the old location, then the whole window from the new one. -/
def State.moveWindow (s : State) (new : Word) : State :=
  let s1 := s.writeBytes s.wl (s.readPool 0x00#8 128)
  { s1.writePool 0x00#8 (s1.readBytes new 128) with wl := new }

/-- `mw` (R193; SIMD error R128). -/
def execMw (a : Operand) (s : State) : StepOutcome :=
  if isSimd a then .next (s.simdError (Instr.mw a).len)
  else if fitsBytes 2 a then .next ((s.moveWindow (s.windowAddr a)).advance (Instr.mw a).len)
  else .refused .poolOverrun

/-- `alloc` (R196): exactly `sub` with destination `ap`. -/
def execAlloc (n : Operand) (s : State) : StepOutcome :=
  if isSimd n then .next (s.simdError (Instr.alloc n).len)
  else if s.operandFits n then .next (s.scalarSub (.reg .ap) n (Instr.alloc n).len)
  else .refused .poolOverrun

end Sys2Proof.Machine
end

