-- ==== Sys2Proof/Machine/Io.lean ====
section
/-! DEFINITION. The I/O instructions and `inth`, and the host at their far end: the console and the host's files
(spec/45_io.md R200 to R211, spec/93_implementation_defined.md U3, U4, U10 to U12). -/

namespace Sys2Proof.Machine

/-- `IoVal(k, B)` (R200): a data-pool operand supplies `B/8` bytes whatever the word size; a memory operand's value is
read from memory. -/
def State.ioVal (s : State) (o : Operand) (B : Nat) : BitVec B :=
  match o with
  | .pool a => ofBytes B (s.readPool a (B / 8))
  | o => s.readOp o B

/-- What a channel number selects (R202): 0 the console, 1 to 255 a reserved channel, above that a file whose path is
at that address. -/
inductive ChannelKind
  | console | reserved | file
  deriving DecidableEq, Repr

/-- The kind of the current channel (R202). -/
def channelKind (c : Word) : ChannelKind :=
  if c = 0#16 then .console else if c.toNat < 256 then .reserved else .file

/-- The next console input and the state that has taken it (R204): the oldest input the host has already supplied, or
else what the host answers when asked for one; none where it gives no answer (U12). -/
def State.nextInput (s : State) : Option (List Byte × State) :=
  match s.conIn with
  | input :: rest => some (input, { s with conIn := rest })
  | [] => (Config.hostInput s.hostAsked).map fun input => (input, { s with hostAsked := s.hostAsked + 1 })

/-- A file's contents by its path (R201). -/
def fileContents : List HostFile → List Byte → Option (List Byte)
  | [], _ => none
  | f :: rest, path => if f.path = path then some f.contents else fileContents rest path

/-- The host's files with one file's contents replaced, or the file added after the others (R201). -/
def setFileContents (fs : List HostFile) (path contents : List Byte) : List HostFile :=
  match fs with
  | [] => [{ path := path, contents := contents }]
  | f :: rest =>
    if f.path = path then { path := path, contents := contents } :: rest
    else f :: setFileContents rest path contents

/-- The path of the channel's file: that of the open file, or else the string at the channel's address (R203). -/
def State.channelPath (s : State) : Option (List Byte) :=
  match s.openFile with
  | some f => some f.path
  | none => s.stringAt s.chan

/-- The mode of the channel's file: what it is open for, or else what this transfer opens it for (R203). -/
def State.channelMode (s : State) (wanted : Config.FileMode) : Config.FileMode :=
  match s.openFile with
  | some f => f.mode
  | none => wanted

/-- A file transfer can go on: the file it acts on, its contents as the host presents them, and the state in which it is
open. -/
structure FileTransfer where
  path : List Byte
  contents : List Byte
  state : State

/-- Whether a transfer acts on the contents the file has: reading a file that is open for reading or not yet open, and
writing a file that is open for writing already. (Opening a file for writing creates, truncates or keeps it: U12.) -/
def State.actsOnOwnContents (s : State) (wanted : Config.FileMode) : Bool :=
  match wanted with
  | .reading => decide (s.channelMode .reading = .reading)
  | .writing => decide (s.openFile.map (·.mode) = some .writing)

/-- A file transfer whose contents the host presents (U12): they reach to the position, or the host gives no answer. -/
def State.hostTransfer (s : State) (wanted : Config.FileMode) (path : List Byte) : Except Fault FileTransfer :=
  let request : Config.FileRequest :=
    { path := path, contents := fileContents s.files path, openFor := s.openFile.map (·.mode), wanted := wanted,
      position := s.fpos }
  match Config.hostFile s.hostAsked request with
  | none => .error .hostGivesNoAnswer
  | some c =>
    if s.fpos.toNat ≤ c.length then
      .ok { path := path, contents := c,
            state := { s with openFile := some { path := path, mode := s.channelMode wanted },
                              hostAsked := s.hostAsked + 1 } }
    else .error .hostGivesNoAnswer

/-- Begin a file transfer (R203). A file that exists is read, or is written once it is open for writing, on its own
contents where the position lies inside it. The rest is the host's affair (U12, log entry 5): a missing file, a file open
for the other use, what a file holds when it is opened for writing, a position beyond its end. -/
def State.beginTransfer (s : State) (wanted : Config.FileMode) : Except Fault FileTransfer :=
  match s.channelPath with
  | none => .error .pathNeverEnds
  | some path =>
    match fileContents s.files path with
    | none => s.hostTransfer wanted path
    | some c =>
      if s.actsOnOwnContents wanted && decide (s.fpos.toNat ≤ c.length) then
        .ok { path := path, contents := c,
              state := { s with openFile := some { path := path, mode := s.channelMode wanted } } }
      else s.hostTransfer wanted path

/-- The position has moved by the bytes transferred (R203), modulo 2^64 (log entry 7). -/
def State.movePosition (s : State) (n : Nat) : State := { s with fpos := s.fpos + BitVec.ofNat 64 n }

/-- Contents with bytes written at a position inside them (R205). -/
def overwriteAt (contents : List Byte) (position : Nat) (bs : List Byte) : List Byte :=
  contents.take position ++ bs ++ contents.drop (position + bs.length)

/-- Store the bytes that `in` has read (R204). -/
def State.inputFrom (s : State) (a : Word) (cap : Nat) : StepOutcome :=
  match channelKind s.chan with
  | .reserved => .refused .reservedChannel
  | .console =>
    match s.nextInput with
    | none => .fault .hostGivesNoAnswer
    | some (input, s1) => .next (s1.writeBytes a (input.take cap))
  | .file =>
    match s.beginTransfer .reading with
    | .error f => .fault f
    | .ok t =>
      let bs := (t.contents.drop s.fpos.toNat).take cap
      .next ((t.state.writeBytes a bs).movePosition bs.length)

/-- Send bytes to the current channel (R205, R206). -/
def State.sendBytes (s : State) (bs : List Byte) : StepOutcome :=
  match channelKind s.chan with
  | .reserved => .refused .reservedChannel
  | .console => .next { s with conLog := s.conLog ++ bs }
  | .file =>
    match s.beginTransfer .writing with
    | .error f => .fault f
    | .ok t =>
      .next ({ t.state with files := setFileContents s.files t.path (overwriteAt t.contents s.fpos.toNat bs) }
        |>.movePosition bs.length)

/-- `ip` advances at the end of an instruction that may have stopped (R22). -/
def advanceOutcome (len : Nat) : StepOutcome → StepOutcome
  | .next s => .next (s.advance len)
  | .fault f => .fault f
  | .refused r => .refused r

/-- `IOchan` (R202): the open file is closed, the channel is the operand's value, the position is 0. -/
def execIoChan (c : Operand) (s : State) : StepOutcome :=
  if isSimd c then .next (s.simdError (Instr.ioChan c).len)
  else if fitsBytes 2 c then
    .next ({ s with openFile := none, chan := s.ioVal c 16, fpos := 0#64 }.advance (Instr.ioChan c).len)
  else .refused .poolOverrun

/-- What `in` and `out` have in common (R204, R205): two 16-bit addresses, the first not above the second. -/
def rangeCases (a b : Operand) (len : Nat) (s : State) (transfer : Word → Nat → StepOutcome) : StepOutcome :=
  if (badSources a b).isSome then .next s.invalidInstruction
  else if isSimd a || isSimd b then .next (s.simdError len)
  else if !(fitsBytes 2 a && fitsBytes 2 b) then .refused .poolOverrun
  else if (s.ioVal b 16).toNat < (s.ioVal a 16).toNat then .refused .ioRangeReversed
  else advanceOutcome len (transfer (s.ioVal a 16) ((s.ioVal b 16).toNat - (s.ioVal a 16).toNat))

/-- `in` (R204): bytes `a` to `b - 1` are the buffer. -/
def execInp (a b : Operand) (s : State) : StepOutcome :=
  rangeCases a b (Instr.inp a b).len s fun first cap => s.inputFrom first cap

/-- `out` (R205): bytes `a` to `b - 1` are sent. -/
def execOut (a b : Operand) (s : State) : StepOutcome :=
  rangeCases a b (Instr.out a b).len s fun first n => s.sendBytes (s.readBytes first n)

/-- `outs` (R206): the bytes up to the first 0x00 are sent, without it. -/
def execOuts (a : Operand) (s : State) : StepOutcome :=
  if isSimd a then .next (s.simdError (Instr.outs a).len)
  else if fitsBytes 2 a then
    match s.stringAt (s.ioVal a 16) with
    | none => .fault .outsNeverCompletes
    | some bs => advanceOutcome (Instr.outs a).len (s.sendBytes bs)
  else .refused .poolOverrun

/-- `seek` (R207). -/
def execSeek (p : Operand) (s : State) : StepOutcome :=
  if isSimd p then .next (s.simdError (Instr.seek p).len)
  else if fitsBytes 8 p then .next ({ s with fpos := s.ioVal p 64 }.advance (Instr.seek p).len)
  else .refused .poolOverrun

/-- `inth` (R211): it designates the handler address and does nothing else (log entry 8). -/
def execInth (handler : Word) (s : State) : StepOutcome :=
  .next ({ s with ih := some handler }.advance (Instr.inth handler).len)

end Sys2Proof.Machine
end

