-- ==== Sys2Proof/Machine/Logic.lean ====
section
/-! DEFINITION. `and`, `or`, `nor`, `xor`, `not` (spec/42_arith_logic.md R153, R169 to R173). -/

namespace Sys2Proof.Machine

/-- `and` (R169). -/
def execAnd (d src : Operand) (s : State) : StepOutcome :=
  logicCases d src (Instr.and d src).len s (fun a b => a &&& b)

/-- `or` (R170). -/
def execOr (d src : Operand) (s : State) : StepOutcome :=
  logicCases d src (Instr.or d src).len s (fun a b => a ||| b)

/-- `nor` (R171): the complement is taken at the destination's width. -/
def execNor (d src : Operand) (s : State) : StepOutcome :=
  logicCases d src (Instr.nor d src).len s (fun a b => ~~~(a ||| b))

/-- `xor` (R172). -/
def execXor (d src : Operand) (s : State) : StepOutcome :=
  logicCases d src (Instr.xor d src).len s (fun a b => a ^^^ b)

/-- The scalar `not` (R173): one operand, so its widths cannot differ. -/
def State.scalarNot (s : State) (d : Operand) (len : Nat) : State :=
  s.storeLogic d len true (~~~ s.readOp d (s.widthBeside d d))

/-- `not` (R173); a SIMD destination has every lane complemented (R127). -/
def execNot (d : Operand) (s : State) : StepOutcome :=
  aluCases d d (Instr.not d).len s (fun g => s.groupOp g d (fun a _ => ~~~a)) (s.scalarNot d (Instr.not d).len)

end Sys2Proof.Machine
end

