-- ==== Sys2Proof/Machine/Dispatch.lean ====
section
/-! DEFINITION. One arm per instruction: its meaning. -/

namespace Sys2Proof.Machine

def exec (i : Instr) (s : State) : Host.Outcome State Fault Refusal :=
  match i with
  | .exit code => Sys2Proof.Machine.execExit code s
  | .add d src => Sys2Proof.Machine.execAdd d src s
  | .sub d src => Sys2Proof.Machine.execSub d src s
  | .mul hi lo src => Sys2Proof.Machine.execMul hi lo src s
  | .div m q src => Sys2Proof.Machine.execDiv m q src s
  | .ign t => Sys2Proof.Machine.execIgn t s
  | .mode imm => Sys2Proof.Machine.execMode imm s
  | .and d src => Sys2Proof.Machine.execAnd d src s
  | .or d src => Sys2Proof.Machine.execOr d src s
  | .nor d src => Sys2Proof.Machine.execNor d src s
  | .xor d src => Sys2Proof.Machine.execXor d src s
  | .not d => Sys2Proof.Machine.execNot d s
  | .cmp a b => Sys2Proof.Machine.execCmp a b s
  | .jfl c target => Sys2Proof.Machine.execJfl c target s
  | .sfl c target => Sys2Proof.Machine.execSfl c target s
  | .call target => Sys2Proof.Machine.execCall target s
  | .ret status => Sys2Proof.Machine.execRet status s
  | .mov d src => Sys2Proof.Machine.execMov d src s
  | .mw a => Sys2Proof.Machine.execMw a s
  | .alloc n => Sys2Proof.Machine.execAlloc n s
  | .ioChan c => Sys2Proof.Machine.execIoChan c s
  | .inp a b => Sys2Proof.Machine.execInp a b s
  | .out a b => Sys2Proof.Machine.execOut a b s
  | .outs a => Sys2Proof.Machine.execOuts a s
  | .seek p => Sys2Proof.Machine.execSeek p s
  | .inth handler => Sys2Proof.Machine.execInth handler s
  | .nop => Sys2Proof.Machine.execNop s
  | .exit1B code => Sys2Proof.Machine.execExit1B code s
  | .exit1C code => Sys2Proof.Machine.execExit1C code s
  | .exit1D code => Sys2Proof.Machine.execExit1D code s
  | .exit1E code => Sys2Proof.Machine.execExit1E code s
  | .exit1F code => Sys2Proof.Machine.execExit1F code s

end Sys2Proof.Machine
end

