-- ==== Sys2Proof/Machine/Fetch.lean ====
section
/-! DEFINITION. What a step does before it executes: the halted machine, the pending-error check, fetching and
decoding (spec/60_exceptions.md R228, R233). -/

namespace Sys2Proof.Machine

/-- The bytes at `ip`, as many as any instruction can have (R60, R72), addresses modulo 2^16. -/
def State.fetchBytes (s : State) : List Byte := s.readBytes s.ip maxLen

/-- Byte 0 is that of a `jfl` or `sfl` that tests EF: opcode 0x0D or 0x0E with branch ID 5 (R228). -/
def testsErrorFlag (b0 : Byte) : Bool :=
  (opcodeOf b0 == 0x0D || opcodeOf b0 == 0x0E) && typeBitsOf b0 == 5#3

/-- How a step begins: the machine has halted and takes none; the step is a halt; or an instruction is executed. -/
inductive StepStart
  | stopped
  | halts (s : State)
  | runs (i : Instr) (s : State)
  deriving DecidableEq, Repr

/-- Decode the instruction at `ip`; an invalid one halts with code 0x06 (R228, R232). -/
def State.startDecoded (s : State) : StepStart :=
  match decode s.fetchBytes with
  | .ok i _ => .runs i s
  | .bad _ => .halts s.invalidInstruction

/-- The start of a step (R228): a halted machine takes no step; a pending error is discharged by a branch that tests EF
and halts the machine otherwise; then the instruction is decoded. -/
def State.start (s : State) : StepStart :=
  match s.halted, s.perr with
  | some _, _ => .stopped
  | none, none => s.startDecoded
  | none, some code => if testsErrorFlag (s.readByte s.ip) then s.discharge.startDecoded else .halts (s.halt code)

end Sys2Proof.Machine
end

