-- ==== Sys2Proof/Machine/Step.lean ====
section
/-! DEFINITION. One step of the machine (spec/60_exceptions.md R228). -/

namespace Sys2Proof.Machine

/-- One step (R228). -/
def step (s : State) : Host.Outcome State Fault Refusal :=
  match s.start with
  | .stopped => .fault .halted
  | .halts t => .next t
  | .runs i t => exec i t

/-- `s` with an instruction, given as one number of `nbits` bits whose first byte is its least significant, stored where
the next step fetches, the bytes above `nbits` 0 up to `maxLen`. A halted machine and a pending error
fetch nothing (R228), so both are cleared. -/
def State.withFetchWord (s : State) (nbits w : Nat) : State :=
  { s.writeBytes s.ip (tableBytes nbits w) with perr := none, halted := none }

end Sys2Proof.Machine
end

