-- ==== Sys2Proof/Safety.lean ====
section
/-! DEFINITION. The terms claims are stated in: what an instruction leaves unchanged, the operands on which it runs,
SIMD lanes read one at a time, and the invariants of the machine. -/

namespace Sys2Proof.Machine

/-! ### What an instruction leaves unchanged -/

/-- The pool byte `b` is one of the `n` bytes from `a` on. -/
def inPoolRange (a : Byte) (n : Nat) (b : Byte) : Bool := decide ((b - a).toNat < n)

/-- The pool byte `b` is part of the operand's storage at word size `W` (R13, R15, R35). -/
def covers (W : Nat) (d : Operand) (b : Byte) : Bool :=
  match d with
  | .pool a => inPoolRange a (W / 8) b
  | .reg (.wi k) => inPoolRange (wiBase k) 2 b
  | .reg (.pi k) => inPoolRange (piBase k) 2 b
  | .simd g => inPoolRange (groupBase g) 64 b
  | _ => false

/-- A range of memory: its first address and its number of bytes. -/
structure MemRange where
  first : Word
  count : Nat
  deriving DecidableEq, Repr

/-- The address is one of the range's, addresses modulo 2^16 (R46). -/
def MemRange.holds (r : MemRange) (a : Word) : Bool := decide ((a - r.first).toNat < r.count)

/-- From `s` to `t`, every register, pool byte, flag and memory byte is unchanged but for the named destinations, the
named flags and the named ranges of memory. (`ip` and the pending error are not spoken of.) -/
structure KeepsData (s t : State) (dests : List Operand) (flags : List Flag) (stores : List MemRange) : Prop where
  pool : ∀ b : Byte, (∀ d ∈ dests, covers s.wordSize d b = false) → t.poolByte b = s.poolByte b
  ar : ∀ k : Fin 4, .reg (.ar k) ∉ dests → t.readReg (.ar k) = s.readReg (.ar k)
  sp : .reg .sp ∉ dests → t.sp = s.sp
  ap : .reg .ap ∉ dests → t.ap = s.ap
  wl : .reg .wl ∉ dests → t.wl = s.wl
  rs : .reg .rs ∉ dests → t.rs = s.rs
  flag : ∀ f : Flag, f ∉ flags → t.flag f = s.flag f
  wlb : .wlb ∉ dests → t.wlb = s.wlb
  mem : ∀ a : Word, (∀ r ∈ stores, r.holds a = false) → t.readByte a = s.readByte a

/-- From `s` to `t`, the host's side, the interrupt handler address and the halted state are unchanged (R36, R201). -/
structure KeepsHost (s t : State) : Prop where
  halted : t.halted = s.halted
  ih : t.ih = s.ih
  chan : t.chan = s.chan
  fpos : t.fpos = s.fpos
  openFile : t.openFile = s.openFile
  conIn : t.conIn = s.conIn
  conLog : t.conLog = s.conLog
  files : t.files = s.files
  hostAsked : t.hostAsked = s.hostAsked

/-! ### When an instruction runs -/

/-- The next step fetches: the machine has not halted and no error is pending (R228). -/
def Ready (s : State) : Prop := s.halted = none ∧ s.perr = none

/-- The operands on which a two-operand arithmetic or logic instruction with a scalar destination runs: the destination
is a data-pool operand or a register other than `flg`, the source no SIMD group, and data-pool operands lie inside the
pool (R82, R121, U5, U7). -/
structure ScalarOperands (s : State) (d src : Operand) : Prop where
  valid : badDest d = none
  destScalar : isSimd d = false
  sourceScalar : isSimd src = false
  notFlags : isFlagOperand d = false
  destFits : s.operandFits d = true
  sourceFits : s.operandFits src = true

/-- The operands on which `mul` and `div` run: destinations of equal width that are the same operand or do not overlap, no
SIMD group, no flag as destination, data-pool operands inside the pool (R119, R129, U5, U7, U8, U9). -/
structure TwoDestinations (s : State) (d1 d2 src : Operand) : Prop where
  valid : (badDest d1).or (badDest d2) = none
  runs : s.mulDivRefusal d1 d2 src = none

/-- The source operand of an instruction that takes one number: no SIMD group, and a data-pool operand of `n` bytes lies
inside the pool (R128, R194, R200, U5). -/
structure NumberOperand (n : Nat) (o : Operand) : Prop where
  scalar : isSimd o = false
  fits : fitsBytes n o = true

/-- What a transfer on the file at `path` acts on, where `own` says that it may act on the contents the file has: those
contents if the position lies inside them, else the contents the host answers with; it stops where the host gives no
answer, or one that does not reach to the position (R203, U12, log entry 5). `acts` is what the transfer does with
contents, the host having been asked so many questions. -/
def OnContents (s : State) (wanted : Config.FileMode) (path : List Byte) (own : Prop) (answer : StepOutcome)
    (acts : List Byte → Nat → Prop) : Prop :=
  (∀ c, own → fileContents s.files path = some c → s.fpos.toNat ≤ c.length → acts c s.hostAsked) ∧
  ((own → ∀ c, fileContents s.files path = some c → c.length < s.fpos.toNat) →
    match Config.hostFile s.hostAsked
      ⟨path, fileContents s.files path, s.openFile.map (·.mode), wanted, s.fpos⟩ with
    | none => answer = .fault .hostGivesNoAnswer
    | some c => if s.fpos.toNat ≤ c.length then acts c (s.hostAsked + 1) else answer = .fault .hostGivesNoAnswer)

/-- The destination operands of an instruction (R80). -/
def destsOf : Instr → List Operand
  | .add d _ => [d]
  | .sub d _ => [d]
  | .mul hi lo _ => [hi, lo]
  | .div m q _ => [m, q]
  | .and d _ => [d]
  | .or d _ => [d]
  | .nor d _ => [d]
  | .xor d _ => [d]
  | .not d => [d]
  | .mov d _ => [d]
  | _ => []

/-! ### How an instruction ends -/

/-- EF and the pending error are as `if cond then raise <Error>(code)` leaves them (R226), RF being unchanged. -/
def Raises (s t : State) (cond : Bool) (code : Byte) : Prop :=
  t.flag .EF = (s.flag .EF || cond) ∧ t.perr = if cond && s.flag .RF then some code else s.perr

/-- `ip` has advanced by the instruction's length, unless the destination is `ip` (R22, R118). -/
def Advances (s t : State) (d : Operand) (len : Nat) : Prop := d ≠ .reg .ip → t.ip = s.ip + BitVec.ofNat 16 len

/-- From `s` to `t` a scalar result `r` has been stored in `d` with the flags of an addition or subtraction: ZF, SF where
the operand widths agree, the carry or borrow in OF, and the signed overflow in NOF, which raises error 0x05; all else
but `ip` is unchanged (R151, R152, R154, R155). -/
structure StoredArith {N : Nat} (s t : State) (d : Operand) (len : Nat) (agree : Bool) (r : BitVec N) (carry overflow : Bool) :
    Prop where
  value : t.readOp d N = r
  ip : Advances s t d len
  zf : t.flag .ZF = decide (r = 0#N)
  sf : t.flag .SF = if agree then r.getLsbD (N - 1) else s.flag .SF
  of : t.flag .OF = carry
  nof : t.flag .NOF = overflow
  error : Raises s t overflow 0x05#8
  data : KeepsData s t [d] [.ZF, .SF, .OF, .NOF, .EF] []
  host : KeepsHost s t

/-- From `s` to `t` an addition or subtraction in floating-point mode has run with the free value and flags of `FLOAT_OPS`
(log entry 2): whatever they are, SF is written only where the operand widths agree, NOF as it then stands raises error
0x05, and all else but `ip`, the destinations, ZF, OF and NOF is unchanged. -/
structure OpenArith (s t : State) (dests : List Operand) (agree : Bool) : Prop where
  sf : agree = false → t.flag .SF = s.flag .SF
  error : Raises s t (t.flag .NOF) 0x05#8
  data : KeepsData s t dests [.ZF, .SF, .OF, .NOF, .EF] []
  host : KeepsHost s t

/-- From `s` to `t` a `mul` in floating-point mode has run so: NOF as it then stands raises error 0x05, OF without NOF error
0x04 (log entry 2). -/
structure OpenProduct (s t : State) (dests : List Operand) (agree : Bool) : Prop where
  sf : agree = false → t.flag .SF = s.flag .SF
  ef : t.flag .EF = (s.flag .EF || (t.flag .OF || t.flag .NOF))
  perr : t.perr =
    if (t.flag .OF || t.flag .NOF) && s.flag .RF then (if t.flag .NOF then some 0x05#8 else some 0x04#8) else s.perr
  data : KeepsData s t dests [.ZF, .SF, .OF, .NOF, .EF] []
  host : KeepsHost s t

/-- From `s` to `t` a `div` of `len` bytes in floating-point mode has run so: DZF as it then stands raises error 0x03, and
with it set nothing is stored and `ip` advances (log entries 2 and 16). -/
structure OpenQuotient (s t : State) (dests : List Operand) (agree : Bool) (len : Nat) : Prop where
  sf : agree = false → t.flag .SF = s.flag .SF
  error : Raises s t (t.flag .DZF) 0x03#8
  byZero : t.flag .DZF = true → t.ip = s.ip + BitVec.ofNat 16 len ∧ KeepsData s t [] [.DZF, .EF] []
  data : KeepsData s t dests [.ZF, .SF, .DZF, .EF] []
  host : KeepsHost s t

/-- From `s` to `t` the result `r` of a logic instruction has been stored in `d`: ZF, SF where the widths agree; all else
but `ip` is unchanged (R169). -/
structure StoredLogic {N : Nat} (s t : State) (d : Operand) (len : Nat) (agree : Bool) (r : BitVec N) : Prop where
  value : t.readOp d N = r
  ip : Advances s t d len
  zf : t.flag .ZF = decide (r = 0#N)
  sf : t.flag .SF = if agree then r.getLsbD (N - 1) else s.flag .SF
  perr : t.perr = s.perr
  data : KeepsData s t [d] [.ZF, .SF] []
  host : KeepsHost s t

/-- From `s` to `t` the SIMD error has been raised and nothing else has happened but that `ip` advances (R128). -/
structure SimdErrorRaised (s t : State) (len : Nat) : Prop where
  sef : t.flag .SEF = true
  error : Raises s t true 0x02#8
  ip : t.ip = s.ip + BitVec.ofNat 16 len
  data : KeepsData s t [] [.SEF, .EF] []
  host : KeepsHost s t

/-! ### SIMD lanes -/

/-- Lane `i` of a SIMD group at word size `W`: `PoolRead(b + i*W/8, W/8)` (R120). -/
def State.lane (s : State) (W : Nat) (g : Group) (i : Nat) : BitVec W :=
  ofBytes W (s.readPool (groupBase g + BitVec.ofNat 8 (i * (W / 8))) (W / 8))

/-- The value lane `i` of a SIMD destination is combined with: the same lane of a source group (R122), the scalar
converted to the lane width (R123), or bytes `i*W/8` on of the 64 bytes of memory (R124). -/
def State.sourceLane (s : State) (W : Nat) (src : Operand) (i : Nat) : BitVec W :=
  match src with
  | .simd h => s.lane W h i
  | .mem m => ofBytes W (s.readBytes (s.ea m + BitVec.ofNat 16 (i * (W / 8))) (W / 8))
  | o => s.readOp o W

/-- From `s` to `t` every lane `i` of the group holds `f i`; no flag, no error, all else but `ip` is unchanged (R122,
R126). -/
structure StoredLanes (s t : State) (g : Group) (len : Nat) (f : Nat → BitVec s.wordSize) : Prop where
  lanes : ∀ i < 512 / s.wordSize, t.lane s.wordSize g i = f i
  ip : t.ip = s.ip + BitVec.ofNat 16 len
  perr : t.perr = s.perr
  data : KeepsData s t [.simd g] [] []
  host : KeepsHost s t

/-! ### Invariants -/

/-- Memory is in its canonical form. -/
def MemoryCanonical (s : State) : Prop := s.mem.wf = true

/-- TF is stored as 1 and bits 3..0 of `flg` as 0 (R31). -/
def FlagsHardWired (s : State) : Prop := s.flg.getLsbD 11 = true ∧ ∀ i < 4, s.flg.getLsbD i = false

/-- An error is pending only while EF and RF are 1 (R226, R228). -/
def PendingErrorSound (s : State) : Prop := s.perr ≠ none → s.flag .EF = true ∧ s.flag .RF = true

/-- A file is open only on a file channel, and none once the program has halted (R202, R203, R142). -/
def OpenFileSound (s : State) : Prop :=
  (s.openFile ≠ none → 256 ≤ s.chan.toNat) ∧ (s.halted ≠ none → s.openFile = none)

/-- The file system is a map: no path is listed twice (R201). -/
def FilesAreAMap (s : State) : Prop := (s.files.map (·.path)).Nodup

end Sys2Proof.Machine
end

