-- ==== Sys2Proof/Certificates/Slice0/Obligations.lean ====
section
/-! DEFINITION. The statements for the provers, each a numbered rule of the spec or what several of them say together.
A statement about a next state says what it holds and what it leaves unchanged. -/

open Sys2Proof Sys2Proof.Machine

/-! ### Encoding -/

/-- Decoding the bytes of a valid instruction gives it back, whatever bytes follow (R60 to R73). -/
def Obligations.DecodingAnEncodingGivesItBack : Prop :=
  ∀ (i : Instr) (rest : List Byte), i.wf = true → decode (encode i ++ rest) = .ok i rest

/-- A decoded instruction is valid, is 1 to 13 bytes long but for `cmp`, `in` and `out`, which have up to 19, and leaves
the bytes after it; the 28 bytes of a fetch never end before the instruction does (R60, R72, R73, R81; log entry 9 for
the 19). -/
def Obligations.DecodedInstructionIsValidAndHasItsLength : Prop :=
  (∀ (bs : List Byte) (i : Instr) (rest : List Byte), decode bs = .ok i rest →
    i.wf = true ∧ 1 ≤ i.len ∧ i.len ≤ 19 ∧ i.len ≤ bs.length ∧ rest = bs.drop i.len ∧
      (13 < i.len → ∃ a b, i = .cmp a b ∨ i = .inp a b ∨ i = .out a b)) ∧
  (∀ bs : List Byte, 28 ≤ bs.length → decode bs ≠ .bad .truncated)

/-- The bytes of an instruction with a literal destination, a memory destination outside `mov`, or two memory operands
decode to no instruction, by name (R81 cases 1 to 3). -/
def Obligations.InvalidOperandRolesAreRejectedByName : Prop :=
  ∀ (i : Instr) (why : Invalid) (rest : List Byte), i.invalid = some why →
    decode (encode i ++ rest) = .bad (.invalid why)

/-- An operand ID below 0x44 is that of the operand it decodes to, given the bytes of a payload; one from 0x44 on is
rejected by name (R70, R81 case 4). -/
def Obligations.OperandIdsDecodeExactlyBelow0x44 : Prop :=
  ∀ (f : Byte) (bs : List Byte),
    (f.toNat < 0x44 → 8 ≤ bs.length →
      ∃ o, decodeOperand true f bs = .ok o (bs.drop o.payloadSize) ∧ o.typeBit = true ∧ o.field = f ∧
        o.payload = bs.take o.payloadSize) ∧
    (0x44 ≤ f.toNat → decodeOperand true f bs = .bad (.unassignedOperand f))

/-- Type bits that an instruction does not use are ignored (R65, U13): all three by `exit`, `mode`, `ret`, `call`,
`inth`, `NOP` and the aliases of `exit`; the low two by the one-field instructions; the lowest by the two-field ones. -/
def Obligations.UnusedTypeBitsAreIgnored : Prop :=
  ∀ (op : BitVec 5) (t u : BitVec 3) (bs : List Byte),
    (op ∈ [0x00#5, 0x06#5, 0x0F#5, 0x10#5, 0x19#5, 0x1A#5, 0x1B#5, 0x1C#5, 0x1D#5, 0x1E#5, 0x1F#5] →
      decode (byteZero op t :: bs) = decode (byteZero op u :: bs)) ∧
    (op ∈ [0x0B#5, 0x12#5, 0x13#5, 0x14#5, 0x17#5, 0x18#5] → t.getLsbD 2 = u.getLsbD 2 →
      decode (byteZero op t :: bs) = decode (byteZero op u :: bs)) ∧
    (op ∈ [0x01#5, 0x02#5, 0x07#5, 0x08#5, 0x09#5, 0x0A#5, 0x0C#5, 0x11#5, 0x15#5, 0x16#5] →
      t.getLsbD 2 = u.getLsbD 2 → t.getLsbD 1 = u.getLsbD 1 →
      decode (byteZero op t :: bs) = decode (byteZero op u :: bs))

/-- One instruction's bytes of each format, written out from the spec's encoding, decode to it (R66, examples of R154,
R156, R166, R167, R182, R190, R193, R212). -/
def Obligations.SampleBytesDecode : Prop :=
  decode [0x0A#8, 0x10#8, 0x30#8, 0x01#8] = .ok (.add (.pool 0x10#8) (.lit (.b8 0x01#8))) [] ∧
  decode [0x19#8, 0x21#8, 0x20#8, 0x30#8, 0x04#8] =
    .ok (.mul (.pool 0x21#8) (.pool 0x20#8) (.lit (.b8 0x04#8))) [] ∧
  decode [0x28#8] = .ok (.ign 0#3) [] ∧
  decode [0x30#8, 0x13#8] = .ok (.mode 0x13#8) [] ∧
  decode [0x6C#8, 0x01#8, 0x00#8] = .ok (.jfl 4#3 0x0100#16) [] ∧
  decode [0x8E#8, 0x20#8, 0x31#8, 0x12#8, 0x34#8] =
    .ok (.mov (.mem (.reg (.ar 0))) (.lit (.b16 0x1234#16))) [] ∧
  decode [0x94#8, 0x2C#8, 0x00#8, 0x40#8] = .ok (.mw (.mem (.off .wl 0x0040#16))) [] ∧
  decode [0xD0#8] = .ok .nop []

/-! ### Stepping, halting, invalid instructions -/

/-- When no error is pending and the bytes at `ip` decode to an instruction, the step is that instruction's execution;
moving `ip` past its bytes is part of `exec` (R228, R22). -/
def Obligations.StepRunsTheDecodedInstruction : Prop :=
  ∀ (s : State) (i : Instr) (rest : List Byte), Ready s → decode s.fetchBytes = .ok i rest → step s = exec i s

/-- The pending-error check at the start of every step (R228); where it halts, the host closes the open file (R203, log
entry 14). -/
def Obligations.PendingErrorCheckComesFirst : Prop :=
  ∀ s : State,
    (s.halted ≠ none → step s = .fault .halted) ∧
    (s.halted = none → s.perr = none →
      (∀ i rest, decode s.fetchBytes = .ok i rest → step s = exec i s) ∧
      (∀ e, decode s.fetchBytes = .bad e → step s = .next { s with halted := some 0x06#8, openFile := none })) ∧
    (∀ code, s.halted = none → s.perr = some code →
      (((s.readByte s.ip).extractLsb' 3 5 = 0x0D#5 ∨ (s.readByte s.ip).extractLsb' 3 5 = 0x0E#5) ∧
          (s.readByte s.ip).extractLsb' 0 3 = 5#3 →
        ∃ i rest, decode s.fetchBytes = .ok i rest ∧ step s = exec i { s with perr := none }) ∧
      (¬(((s.readByte s.ip).extractLsb' 3 5 = 0x0D#5 ∨ (s.readByte s.ip).extractLsb' 3 5 = 0x0E#5) ∧
          (s.readByte s.ip).extractLsb' 0 3 = 5#3) →
        step s = .next { s with halted := some code, openFile := none }))

/-- An invalid instruction halts the program with exit code 0x06: `ip` stays, no operand, flag or error changes, and RF
has no influence (R232); the host closes the open file (R142, R203, log entry 14); nothing else changes. -/
def Obligations.InvalidInstructionHaltsWithCode06 : Prop :=
  ∀ (s : State) (e : DecodeError), Ready s → decode s.fetchBytes = .bad e →
    ∃ t, step s = .next t ∧ t.halted = some 0x06#8 ∧ t.ip = s.ip ∧ t.perr = s.perr ∧ KeepsData s t [] [] [] ∧
      t = { s with halted := some 0x06#8, openFile := none }

/-- Opcodes 0x00 and above 0x1A are `exit`: two bytes, and the program halts with the second as its exit code, nothing
else of the machine changing (R140, R141); the host closes the open file (R142, R203). -/
def Obligations.ExitAndItsAliasesHaltWithTheirOperand : Prop :=
  (∀ (b0 code : Byte) (rest : List Byte), opcodeOf b0 = 0x00 ∨ 0x1A < opcodeOf b0 →
    ∃ i, decode (b0 :: code :: rest) = .ok i rest ∧
      ∀ s : State, exec i s = .next { s with halted := some code, openFile := none }) ∧
  (∀ (code : Byte) (s : State),
    exec (.exit code) s = .next { s with halted := some code, openFile := none } ∧
    exec (.exit1B code) s = .next { s with halted := some code, openFile := none } ∧
    exec (.exit1C code) s = .next { s with halted := some code, openFile := none } ∧
    exec (.exit1D code) s = .next { s with halted := some code, openFile := none } ∧
    exec (.exit1E code) s = .next { s with halted := some code, openFile := none } ∧
    exec (.exit1F code) s = .next { s with halted := some code, openFile := none })

/-- Execution that runs into zero-filled memory halts with exit code 0x00 (R223); the host closes the open file (R142,
R203). -/
def Obligations.ZeroFilledMemoryHaltsWithCode00 : Prop :=
  ∀ s : State, Ready s → s.readByte s.ip = 0x00#8 → s.readByte (s.ip + 1#16) = 0x00#8 →
    step s = .next { s with halted := some 0x00#8, openFile := none }

/-! ### Invariants -/

/-- Every step keeps memory in its canonical form. -/
def Obligations.StepKeepsMemoryCanonical : Prop :=
  ∀ s t : State, MemoryCanonical s → step s = .next t → MemoryCanonical t

/-- Every step keeps the hard-wired bits of `flg`: TF 1 and bits 3..0 zero (R31). -/
def Obligations.StepKeepsFlagsHardWired : Prop :=
  ∀ s t : State, FlagsHardWired s → step s = .next t → FlagsHardWired t

/-- Every step keeps: an error is pending only while EF and RF are 1 (R226, R228). -/
def Obligations.StepKeepsPendingErrorSound : Prop :=
  ∀ s t : State, PendingErrorSound s → step s = .next t → PendingErrorSound t

/-- Every step keeps: a file is open only on a file channel and not once the program has halted, and the file system is
a map (R202, R203). -/
def Obligations.StepKeepsFilesSound : Prop :=
  ∀ s t : State, OpenFileSound s ∧ FilesAreAMap s → step s = .next t → OpenFileSound t ∧ FilesAreAMap t

/-- The state after reset meets the invariants. -/
def Obligations.ResetMeetsTheInvariants : Prop :=
  MemoryCanonical State.reset ∧ FlagsHardWired State.reset ∧ PendingErrorSound State.reset ∧
    OpenFileSound State.reset ∧ FilesAreAMap State.reset

/-- The state after reset holds the values of R251 that are no parameter: `sp` and `ap` equal; `wl`, the address
registers, `rs`, every pool byte and every memory byte zero; `flg` 0x0900; no pending error, handler or halt; the console
channel at position 0, and an empty log. -/
def Obligations.ResetHoldsTheValuesOfR251 : Prop :=
  State.reset.sp = State.reset.ap ∧ State.reset.wl = 0x0000#16 ∧
  (∀ k : Fin 4, State.reset.readReg (.ar k) = 0x0000#16) ∧ State.reset.flgRead = 0x0900#16 ∧ State.reset.rs = 0x00#8 ∧
  (∀ a : Byte, State.reset.poolByte a = 0x00#8) ∧ (∀ a : Word, State.reset.readByte a = 0x00#8) ∧
  State.reset.perr = none ∧ State.reset.chan = 0x0000#16 ∧ State.reset.fpos = 0#64 ∧ State.reset.ih = none ∧
  State.reset.halted = none ∧ State.reset.conLog = []

/-! ### Rules of the whole machine -/

/-- A register changes only as a destination operand, but that `call` and `ret` also change `sp`, `call`, `ret` and
`alloc` also `ap`, `mw` also `wl`, and `ret` also `rs` (R16, R24, R25, R27, R34). -/
def Obligations.RegistersChangeOnlyByTheirInstructions : Prop :=
  ∀ (i : Instr) (s t : State), exec i s = .next t →
    (∀ k : Fin 4, t.readReg (.ar k) ≠ s.readReg (.ar k) → .reg (.ar k) ∈ destsOf i) ∧
    (t.sp ≠ s.sp → .reg .sp ∈ destsOf i ∨ (∃ a, i = .call a) ∨ ∃ c, i = .ret c) ∧
    (t.ap ≠ s.ap → .reg .ap ∈ destsOf i ∨ (∃ a, i = .call a) ∨ (∃ c, i = .ret c) ∨ ∃ n, i = .alloc n) ∧
    (t.wl ≠ s.wl → .reg .wl ∈ destsOf i ∨ ∃ a, i = .mw a) ∧
    (t.rs ≠ s.rs → .reg .rs ∈ destsOf i ∨ ∃ c, i = .ret c)

/-- The response flag changes only by `ign`, `call`, `ret`, or `mov` to it or to `flg` (R229); FMF and WLB only by `mode`
or `mov` to them or to `flg` (R29). -/
def Obligations.ControlFlagsChangeOnlyByTheirInstructions : Prop :=
  ∀ (i : Instr) (s t : State), exec i s = .next t →
    (t.flag .RF ≠ s.flag .RF → (∃ b, i = .ign b) ∨ (∃ a, i = .call a) ∨ (∃ c, i = .ret c) ∨
      ∃ d src, i = .mov d src ∧ (d = .flag .RF ∨ d = .reg .flg)) ∧
    (t.flag .FMF ≠ s.flag .FMF → (∃ b, i = .mode b) ∨ ∃ d src, i = .mov d src ∧ (d = .flag .FMF ∨ d = .reg .flg)) ∧
    (t.wlb ≠ s.wlb → (∃ b, i = .mode b) ∨ ∃ d src, i = .mov d src ∧ (d = .wlb ∨ d = .reg .flg))

/-- EF and SEF are only set by an error: EF returns to 0 only when `jfl` or `sfl` tests it or `mov` writes it or `flg`;
SEF only when `mov` writes it or `flg` (R32, R181). -/
def Obligations.ErrorFlagsAreClearedOnlyByTestOrWrite : Prop :=
  ∀ (i : Instr) (s t : State), exec i s = .next t →
    (s.flag .EF = true → t.flag .EF = false →
      (∃ a, i = .jfl 5#3 a) ∨ (∃ a, i = .sfl 5#3 a) ∨ ∃ d src, i = .mov d src ∧ (d = .flag .EF ∨ d = .reg .flg)) ∧
    (s.flag .SEF = true → t.flag .SEF = false → ∃ d src, i = .mov d src ∧ (d = .flag .SEF ∨ d = .reg .flg))

/-- An instruction that leaves an error pending leaves EF and RF set; one that newly sets EF while RF is 1 leaves an error
pending; with RF 0 none is ever pending afterwards (R226, R229). -/
def Obligations.ErrorsArePendingExactlyWhileResponding : Prop :=
  ∀ (i : Instr) (s t : State), s.perr = none → exec i s = .next t →
    (t.perr ≠ none → t.flag .EF = true ∧ t.flag .RF = true) ∧
    (s.flag .EF = false → t.flag .EF = true → t.flag .RF = true → t.perr ≠ none)

/-- A byte of memory changes only by `mov` with a memory destination, `call`, `mw` or `in` (R40, R47). -/
def Obligations.MemoryChangesOnlyByStoringInstructions : Prop :=
  ∀ (i : Instr) (s t : State) (a : Word), exec i s = .next t → t.readByte a ≠ s.readByte a →
    (∃ m src, i = .mov (.mem m) src) ∨ (∃ b, i = .call b) ∨ (∃ o, i = .mw o) ∨ ∃ o p, i = .inp o p

/-- The console log only grows, and only by `out` and `outs`; the waiting inputs are only taken from the front, and only by
`in` (R201, R204 to R206). -/
def Obligations.ConsoleIsOnlyAppendedToAndTakenFrom : Prop :=
  ∀ (i : Instr) (s t : State), exec i s = .next t →
    (∃ bs, t.conLog = s.conLog ++ bs) ∧ (∃ taken, s.conIn = taken ++ t.conIn) ∧
    (t.conLog ≠ s.conLog → (∃ o p, i = .out o p) ∨ ∃ o, i = .outs o) ∧
    (t.conIn ≠ s.conIn → ∃ o p, i = .inp o p)

/-- TF always reads 1 and bits 3..0 of `flg` always read 0, in every state, whatever is written to `flg`; writing TF
through its own operand ID or through `flg` leaves it 1 (R31). -/
def Obligations.TrueFlagAndUnusedBitsAreFixed : Prop :=
  ∀ s : State, s.flag .TF = true ∧ s.flgRead.getLsbD 11 = true ∧ (∀ i < 4, s.flgRead.getLsbD i = false) ∧
    s.flag (branchFlag 4#3) = true ∧ (∀ b : Bool, ((s.setFlag .TF b).flgRead = s.flgRead)) ∧
    (∀ v : Word, (s.setFlg v).flgRead.getLsbD 11 = true ∧ ∀ i < 4, (s.setFlg v).flgRead.getLsbD i = false)

/-! ### Arithmetic and logic on scalars -/

/-- `add` (R154). -/
def Obligations.AddStoresTheSum : Prop :=
  ∀ (d src : Operand) (s : State), ScalarOperands s d src → s.floatMode [d, src] = false →
    let N := s.widthBeside d src
    let a := s.readOp d N
    let b := s.readOp src N
    let r := BitVec.ofNat N (a.toNat + b.toNat)
    ∃ t, exec (.add d src) s = .next t ∧
      StoredArith s t d (Instr.add d src).len (s.widthsAgree d src) r (decide (2 ^ N ≤ a.toNat + b.toNat))
        (decide (r.toInt ≠ a.toInt + b.toInt))

/-- `sub` (R155). -/
def Obligations.SubStoresTheDifference : Prop :=
  ∀ (d src : Operand) (s : State), ScalarOperands s d src → s.floatMode [d, src] = false →
    let N := s.widthBeside d src
    let a := s.readOp d N
    let b := s.readOp src N
    let r := BitVec.ofInt N (a.toNat - b.toNat : Int)
    ∃ t, exec (.sub d src) s = .next t ∧
      StoredArith s t d (Instr.sub d src).len (s.widthsAgree d src) r (decide (a.toNat < b.toNat))
        (decide (r.toInt ≠ a.toInt - b.toInt))

/-- `alloc` subtracts its operand, read in 16 bits, from `ap` with the flags and error of `sub` (R196). -/
def Obligations.AllocLowersTheAllocationPointer : Prop :=
  ∀ (n : Operand) (s : State), isSimd n = false → s.operandFits n = true → s.floatMode [.reg .ap, n] = false →
    let b := s.readOp n 16
    let r := BitVec.ofInt 16 (s.ap.toNat - b.toNat : Int)
    ∃ t, exec (.alloc n) s = .next t ∧ t.ap = r ∧
      StoredArith s t (.reg .ap) (Instr.alloc n).len
        (decide (naturalWidth s.wordSize n = some 16) || n.isMem) r (decide (s.ap.toNat < b.toNat))
        (decide (r.toInt ≠ s.ap.toInt - b.toInt))

/-- `cmp` sets the flags of the subtraction at the larger width and stores nothing (R174). -/
def Obligations.CmpSetsTheFlagsOfSub : Prop :=
  ∀ (x y : Operand) (s : State), badSources x y = none → isSimd x = false → isSimd y = false →
    s.operandFits x = true → s.operandFits y = true → s.floatMode [x, y] = false →
    let N := max (s.widthBeside x y) (s.widthBeside y x)
    let a := s.readOp x N
    let b := s.readOp y N
    let r := BitVec.ofInt N (a.toNat - b.toNat : Int)
    ∃ t, exec (.cmp x y) s = .next t ∧ t.ip = s.ip + BitVec.ofNat 16 (Instr.cmp x y).len ∧
      t.flag .ZF = decide (r = 0#N) ∧
      t.flag .SF = (if s.widthsAgree x y then r.getLsbD (N - 1) else s.flag .SF) ∧
      t.flag .OF = decide (a.toNat < b.toNat) ∧ t.flag .NOF = decide (r.toInt ≠ a.toInt - b.toInt) ∧
      Raises s t (decide (r.toInt ≠ a.toInt - b.toInt)) 0x05#8 ∧
      KeepsData s t [] [.ZF, .SF, .OF, .NOF, .EF] [] ∧ KeepsHost s t

/-- `and`, `or`, `nor`, `xor` and `not` on scalars; `not` has one operand and always writes SF (R169 to R173). -/
def Obligations.LogicInstructionsStoreTheirResult : Prop :=
  (∀ (d src : Operand) (s : State), ScalarOperands s d src →
    let N := s.widthBeside d src
    let a := s.readOp d N
    let b := s.readOp src N
    (∃ t, exec (.and d src) s = .next t ∧
      StoredLogic s t d (Instr.and d src).len (s.widthsAgree d src) (a &&& b)) ∧
    (∃ t, exec (.or d src) s = .next t ∧
      StoredLogic s t d (Instr.or d src).len (s.widthsAgree d src) (a ||| b)) ∧
    (∃ t, exec (.nor d src) s = .next t ∧
      StoredLogic s t d (Instr.nor d src).len (s.widthsAgree d src) (~~~(a ||| b))) ∧
    (∃ t, exec (.xor d src) s = .next t ∧
      StoredLogic s t d (Instr.xor d src).len (s.widthsAgree d src) (a ^^^ b))) ∧
  (∀ (d : Operand) (s : State), ScalarOperands s d d →
    ∃ t, exec (.not d) s = .next t ∧
      StoredLogic s t d (Instr.not d).len true (~~~ s.readOp d (s.widthBeside d d)))

/-- `mul` with two destinations: together they hold the exact signed product, OF and NOF are 0, nothing is raised
(R156). -/
def Obligations.MulStoresTheWholeProduct : Prop :=
  ∀ (hi lo src : Operand) (s : State), TwoDestinations s hi lo src → hi ≠ lo → s.floatMode [hi, lo, src] = false →
    let N := s.widthBeside lo src
    let p := (s.readOp lo N).toInt * (s.readOp src N).toInt
    ∃ t, exec (.mul hi lo src) s = .next t ∧ (t.readOp hi N ++ t.readOp lo N).toInt = p ∧
      (hi ≠ .reg .ip → Advances s t lo (Instr.mul hi lo src).len) ∧
      t.flag .ZF = decide (p = 0) ∧
      t.flag .SF = (if s.widthsAgree lo src then decide (p < 0) else s.flag .SF) ∧
      t.flag .OF = false ∧ t.flag .NOF = false ∧ t.perr = s.perr ∧
      KeepsData s t [hi, lo] [.ZF, .SF, .OF, .NOF] [] ∧ KeepsHost s t

/-- `mul` with one destination: the low half of the signed product is stored; OF says that it is not the product, NOF is
the sign rule; NOF raises 0x05, OF alone 0x04 (R156, R157, R227). -/
def Obligations.MulWithOneDestinationStoresTheLowHalf : Prop :=
  ∀ (d src : Operand) (s : State), TwoDestinations s d d src → s.floatMode [d, d, src] = false →
    let N := s.widthBeside d src
    let x := (s.readOp d N).toInt
    let y := (s.readOp src N).toInt
    let r := BitVec.ofInt N (x * y)
    let z := r.toInt
    let nof := decide ((0 < x ∧ 0 < y ∧ z < 0) ∨ (x < 0 ∧ y < 0 ∧ z < 0) ∨ (x < 0 ∧ 0 < y ∧ 0 < z) ∨
      (0 < x ∧ y < 0 ∧ 0 < z))
    let of := decide (x * y ≠ z)
    ∃ t, exec (.mul d d src) s = .next t ∧ t.readOp d N = r ∧ Advances s t d (Instr.mul d d src).len ∧
      t.flag .ZF = decide (r = 0#N) ∧
      t.flag .SF = (if s.widthsAgree d src then r.getLsbD (N - 1) else s.flag .SF) ∧
      t.flag .OF = of ∧ t.flag .NOF = nof ∧
      t.flag .EF = (s.flag .EF || of) ∧
      t.perr = (if of && s.flag .RF then (if nof then some 0x05#8 else some 0x04#8) else s.perr) ∧
      KeepsData s t [d] [.ZF, .SF, .OF, .NOF, .EF] [] ∧ KeepsHost s t

/-- `div` by a divisor other than zero: the quotient and modulo of signed floor division, in the low bits (R161, R162,
R175). -/
def Obligations.DivStoresFloorQuotientAndModulo : Prop :=
  ∀ (m q src : Operand) (s : State), TwoDestinations s m q src → s.floatMode [m, q, src] = false →
    s.readOp src (s.widthBeside q src) ≠ 0 →
    let N := s.widthBeside q src
    let a := (s.readOp q N).toInt
    let b := (s.readOp src N).toInt
    ∃ (t : State) (quotient modulo : Int), exec (.div m q src) s = .next t ∧ a = b * quotient + modulo ∧
      ((0 ≤ modulo ∧ modulo < b) ∨ (b < modulo ∧ modulo ≤ 0)) ∧
      t.readOp q N = BitVec.ofInt N quotient ∧ (m ≠ q → t.readOp m N = BitVec.ofInt N modulo) ∧
      (m ≠ .reg .ip → Advances s t q (Instr.div m q src).len) ∧
      t.flag .ZF = decide (BitVec.ofInt N quotient = 0#N) ∧
      t.flag .SF = (if s.widthsAgree q src then (BitVec.ofInt N quotient).getLsbD (N - 1) else s.flag .SF) ∧
      t.flag .DZF = false ∧ t.perr = s.perr ∧
      KeepsData s t [m, q] [.ZF, .SF, .DZF] [] ∧ KeepsHost s t

/-- `div` by zero: DZF and the error 0x03, the destinations and every other flag unchanged (R161, R226). `ip` goes past the
instruction (R22); that it does so also where a destination is `ip` itself, which R22 does not speak of when nothing is
written, is the model's reading: log entry 16. -/
def Obligations.DivByZeroRaisesAndStoresNothing : Prop :=
  ∀ (m q src : Operand) (s : State), TwoDestinations s m q src → s.floatMode [m, q, src] = false →
    s.readOp src (s.widthBeside q src) = 0 →
    ∃ t, exec (.div m q src) s = .next t ∧ t.flag .DZF = true ∧ Raises s t true 0x03#8 ∧
      t.ip = s.ip + BitVec.ofNat 16 (Instr.div m q src).len ∧
      KeepsData s t [] [.DZF, .EF] [] ∧ KeepsHost s t

/-- In floating-point mode `add`, `sub`, `alloc`, `cmp`, `mul` and `div` with a data-pool operand run, whatever value and
flags `FLOAT_OPS` gives; they change only `ip`, their destinations and the flags their integer rules write, and raise only
the errors their integer rules give those flags; with a SIMD destination `add` and `sub` run and change that group and
`ip` alone. (That they run there, and with which flags and errors, is the model's choice, log entry 2: the spec leaves the
arithmetic open. Where a division by zero moves `ip` is log entry 16.) -/
def Obligations.FloatArithmeticRunsWithOpenResults : Prop :=
  (∀ (d src : Operand) (s : State), ScalarOperands s d src → s.floatMode [d, src] = true →
    (∃ t, exec (.add d src) s = .next t ∧ Advances s t d (Instr.add d src).len ∧
      OpenArith s t [d] (s.widthsAgree d src)) ∧
    (∃ t, exec (.sub d src) s = .next t ∧ Advances s t d (Instr.sub d src).len ∧
      OpenArith s t [d] (s.widthsAgree d src))) ∧
  (∀ (x y : Operand) (s : State), badSources x y = none → isSimd x = false → isSimd y = false →
    s.operandFits x = true → s.operandFits y = true → s.floatMode [x, y] = true →
    ∃ t, exec (.cmp x y) s = .next t ∧ t.ip = s.ip + BitVec.ofNat 16 (Instr.cmp x y).len ∧
      OpenArith s t [] (s.widthsAgree x y)) ∧
  (∀ (hi lo src : Operand) (s : State), TwoDestinations s hi lo src → s.floatMode [hi, lo, src] = true →
    (∃ t, exec (.mul hi lo src) s = .next t ∧ (hi ≠ .reg .ip → Advances s t lo (Instr.mul hi lo src).len) ∧
      OpenProduct s t [hi, lo] (s.widthsAgree lo src)) ∧
    (∃ t, exec (.div hi lo src) s = .next t ∧ (hi ≠ .reg .ip → Advances s t lo (Instr.div hi lo src).len) ∧
      OpenQuotient s t [hi, lo] (s.widthsAgree lo src) (Instr.div hi lo src).len)) ∧
  (∀ (n : Operand) (s : State), isSimd n = false → s.operandFits n = true → s.floatMode [.reg .ap, n] = true →
    ∃ t, exec (.alloc n) s = .next t ∧ t.ip = s.ip + BitVec.ofNat 16 (Instr.alloc n).len ∧
      OpenArith s t [.reg .ap] (s.widthsAgree (.reg .ap) n)) ∧
  (∀ (g : Group) (src : Operand) (s : State), s.operandFits src = true → s.flag .FMF = true →
    (∃ t, exec (.add (.simd g) src) s = .next t ∧ t.perr = s.perr ∧
      t.ip = s.ip + BitVec.ofNat 16 (Instr.add (.simd g) src).len ∧ KeepsData s t [.simd g] [] [] ∧ KeepsHost s t) ∧
    (∃ t, exec (.sub (.simd g) src) s = .next t ∧ t.perr = s.perr ∧
      t.ip = s.ip + BitVec.ofNat 16 (Instr.sub (.simd g) src).len ∧ KeepsData s t [.simd g] [] [] ∧ KeepsHost s t))

/-! ### SIMD -/

/-- With a SIMD destination the two-operand instructions act lane by lane, the source being a group, a scalar or 64 bytes
of memory, and write no flag; `add` and `sub` so in signed integer mode (R122, R123, R124, R126). -/
def Obligations.SimdDestinationIsCombinedLaneByLane : Prop :=
  ∀ (g : Group) (src : Operand) (s : State), s.operandFits src = true →
    let W := s.wordSize
    let d := Operand.simd g
    (s.flag .FMF = false →
      (∃ t, exec (.add d src) s = .next t ∧
        StoredLanes s t g (Instr.add d src).len fun i => s.lane W g i + s.sourceLane W src i) ∧
      (∃ t, exec (.sub d src) s = .next t ∧
        StoredLanes s t g (Instr.sub d src).len fun i => s.lane W g i - s.sourceLane W src i)) ∧
    (∃ t, exec (.and d src) s = .next t ∧
      StoredLanes s t g (Instr.and d src).len fun i => s.lane W g i &&& s.sourceLane W src i) ∧
    (∃ t, exec (.or d src) s = .next t ∧
      StoredLanes s t g (Instr.or d src).len fun i => s.lane W g i ||| s.sourceLane W src i) ∧
    (∃ t, exec (.nor d src) s = .next t ∧
      StoredLanes s t g (Instr.nor d src).len fun i => ~~~(s.lane W g i ||| s.sourceLane W src i)) ∧
    (∃ t, exec (.xor d src) s = .next t ∧
      StoredLanes s t g (Instr.xor d src).len fun i => s.lane W g i ^^^ s.sourceLane W src i) ∧
    (∃ t, exec (.mov d src) s = .next t ∧
      StoredLanes s t g (Instr.mov d src).len fun i => s.sourceLane W src i)

/-- `not` of a SIMD group complements all its 64 bytes and writes no flag (R127). -/
def Obligations.NotOfASimdGroupComplementsItsBytes : Prop :=
  ∀ (g : Group) (s : State), ∃ t, exec (.not (.simd g)) s = .next t ∧
    (∀ b : Byte, covers s.wordSize (.simd g) b = true → t.poolByte b = ~~~ s.poolByte b) ∧
    t.ip = s.ip + 2#16 ∧ t.perr = s.perr ∧ KeepsData s t [.simd g] [] [] ∧ KeepsHost s t

/-- A SIMD group where a scalar is needed raises the SIMD error and does nothing else: a SIMD source opposite a scalar
destination, a SIMD group in `cmp`, and one in the instructions that take one number (R128). -/
def Obligations.SimdOperandWhereScalarIsNeededRaises : Prop :=
  (∀ (d : Operand) (g : Group) (s : State), isSimd d = false → badDest d = none →
    let src := Operand.simd g
    (∃ t, exec (.add d src) s = .next t ∧ SimdErrorRaised s t 3) ∧
    (∃ t, exec (.sub d src) s = .next t ∧ SimdErrorRaised s t 3) ∧
    (∃ t, exec (.and d src) s = .next t ∧ SimdErrorRaised s t 3) ∧
    (∃ t, exec (.or d src) s = .next t ∧ SimdErrorRaised s t 3) ∧
    (∃ t, exec (.nor d src) s = .next t ∧ SimdErrorRaised s t 3) ∧
    (∃ t, exec (.xor d src) s = .next t ∧ SimdErrorRaised s t 3) ∧
    (∃ t, exec (.mov d src) s = .next t ∧ SimdErrorRaised s t 3)) ∧
  (∀ (x y : Operand) (s : State), isSimd x = true ∨ isSimd y = true →
    (∃ t, exec (.cmp x y) s = .next t ∧ SimdErrorRaised s t (Instr.cmp x y).len) ∧
    (∃ t, exec (.inp x y) s = .next t ∧ SimdErrorRaised s t (Instr.inp x y).len) ∧
    (∃ t, exec (.out x y) s = .next t ∧ SimdErrorRaised s t (Instr.out x y).len)) ∧
  (∀ (g : Group) (s : State),
    (∃ t, exec (.mw (.simd g)) s = .next t ∧ SimdErrorRaised s t 2) ∧
    (∃ t, exec (.alloc (.simd g)) s = .next t ∧ SimdErrorRaised s t 2) ∧
    (∃ t, exec (.ioChan (.simd g)) s = .next t ∧ SimdErrorRaised s t 2) ∧
    (∃ t, exec (.outs (.simd g)) s = .next t ∧ SimdErrorRaised s t 2) ∧
    (∃ t, exec (.seek (.simd g)) s = .next t ∧ SimdErrorRaised s t 2))

/-- `mov` with a memory destination and a SIMD source writes the group's 64 bytes to memory (R125). -/
def Obligations.MovStoresASimdGroup : Prop :=
  ∀ (m : MemRef) (g : Group) (s : State), ∃ t, exec (.mov (.mem m) (.simd g)) s = .next t ∧
    (∀ i < 64, t.readByte (s.ea m + BitVec.ofNat 16 i) = s.poolByte (groupBase g + BitVec.ofNat 8 i)) ∧
    t.ip = s.ip + BitVec.ofNat 16 (Instr.mov (.mem m) (.simd g)).len ∧ t.perr = s.perr ∧
    KeepsData s t [] [] [⟨s.ea m, 64⟩] ∧ KeepsHost s t

/-! ### Data transfer -/

/-- `mov` to a data-pool operand or a register other than `flg`: the source converted to the destination's width, no flag
(R190, R112). -/
def Obligations.MovCopiesToAScalar : Prop :=
  ∀ (d src : Operand) (s : State), ScalarOperands s d src →
    let N := s.widthBeside d src
    ∃ t, exec (.mov d src) s = .next t ∧ t.readOp d N = s.readOp src N ∧
      Advances s t d (Instr.mov d src).len ∧ t.perr = s.perr ∧ KeepsData s t [d] [] [] ∧ KeepsHost s t

/-- `mov` to memory stores as many bytes as the source is wide, most significant first (R190, R43). -/
def Obligations.MovStoresToMemory : Prop :=
  ∀ (m : MemRef) (src : Operand) (n : Nat) (s : State), src.isMem = false → isSimd src = false →
    s.operandFits src = true → naturalWidth s.wordSize src = some (8 * n) →
    ∃ t, exec (.mov (.mem m) src) s = .next t ∧
      ofBytes (8 * n) (t.readBytes (s.ea m) n) = s.readOp src (8 * n) ∧
      t.ip = s.ip + BitVec.ofNat 16 (Instr.mov (.mem m) src).len ∧ t.perr = s.perr ∧
      KeepsData s t [] [] [⟨s.ea m, n⟩] ∧ KeepsHost s t

/-- `mov` to a flag stores bit 0 of the value, but TF stays 1; writing 1 to EF raises error 0x04. `mov` to `WLB` stores the
two low bits (R117, R227). -/
def Obligations.MovWritesFlags : Prop :=
  (∀ (f : Flag) (src : Operand) (s : State), isSimd src = false → s.operandFits src = true →
    let b := (s.readOp src 8).getLsbD 0
    ∃ t, exec (.mov (.flag f) src) s = .next t ∧ t.flag f = (if f = .TF then true else b) ∧
      t.perr = (if f = .EF ∧ b = true ∧ s.flag .RF = true then some 0x04#8 else s.perr) ∧
      t.ip = s.ip + BitVec.ofNat 16 (Instr.mov (.flag f) src).len ∧ KeepsData s t [] [f] [] ∧ KeepsHost s t) ∧
  (∀ (src : Operand) (s : State), isSimd src = false → s.operandFits src = true →
    ∃ t, exec (.mov .wlb src) s = .next t ∧ t.wlb = (s.readOp src 8).extractLsb' 0 2 ∧ t.perr = s.perr ∧
      t.ip = s.ip + BitVec.ofNat 16 (Instr.mov .wlb src).len ∧ KeepsData s t [.wlb] [] [] ∧ KeepsHost s t)

/-- `mov` to `flg` stores bits 15..12 and 10..4, bit 11 staying 1 and bits 3..0 zero; a value with bit 10 set raises error
0x04, pending if its bit 8 sets RF (R117, R226). -/
def Obligations.MovWritesTheFlagsRegister : Prop :=
  ∀ (src : Operand) (s : State), isSimd src = false → s.operandFits src = true →
    let v := s.readOp src 16
    ∃ t, exec (.mov (.reg .flg) src) s = .next t ∧
      (∀ i, 4 ≤ i → i ≠ 11 → t.flgRead.getLsbD i = v.getLsbD i) ∧ t.flgRead.getLsbD 11 = true ∧
      (∀ i < 4, t.flgRead.getLsbD i = false) ∧
      t.perr = (if v.getLsbD 10 && v.getLsbD 8 then some 0x04#8 else s.perr) ∧
      t.ip = s.ip + BitVec.ofNat 16 (Instr.mov (.reg .flg) src).len ∧
      KeepsData s t [.wlb] [.ZF, .SF, .OF, .NOF, .EF, .DZF, .RF, .SEF, .FMF] [] ∧ KeepsHost s t

/-- `mw`: the whole window goes to the old location, then the window holds the 128 bytes at the new one, which `wl` then
holds; the parameter space is untouched (R193). -/
def Obligations.MwMovesTheWindow : Prop :=
  ∀ (a : Operand) (s : State), NumberOperand 2 a →
    ∃ t, exec (.mw a) s = .next t ∧ t.wl = s.windowAddr a ∧
      (∀ i < 128, t.readByte (s.wl + BitVec.ofNat 16 i) = s.poolByte (BitVec.ofNat 8 i)) ∧
      (∀ i < 128, t.poolByte (BitVec.ofNat 8 i) = t.readByte (s.windowAddr a + BitVec.ofNat 16 i)) ∧
      t.ip = s.ip + BitVec.ofNat 16 (Instr.mw a).len ∧ t.perr = s.perr ∧
      KeepsData s t [.simd .w0, .simd .w1, .reg .wl] [] [⟨s.wl, 128⟩] ∧ KeepsHost s t

/-- The address that `mw` takes from its operand, a memory operand's own address with no memory read (R194, R100), and the
value an I/O instruction takes from its operand: pool bytes whatever the word size, memory by a read, any other operand
converted (R200). -/
def Obligations.AddressAndIoValueOfEachOperandForm : Prop :=
  ∀ s : State,
    (∀ a : Byte, s.windowAddr (.pool a) = s.poolByte a ++ s.poolByte (a + 1#8) ∧
      s.ioVal (.pool a) 16 = s.poolByte a ++ s.poolByte (a + 1#8) ∧
      s.ioVal (.pool a) 64 = ofBytes 64 (s.readPool a 8)) ∧
    (∀ v, s.windowAddr (.lit (.b8 v)) = v.setWidth 16 ∧ s.ioVal (.lit (.b8 v)) 16 = v.setWidth 16 ∧
      s.ioVal (.lit (.b8 v)) 64 = v.setWidth 64) ∧
    (∀ v, s.windowAddr (.lit (.b16 v)) = v ∧ s.ioVal (.lit (.b16 v)) 16 = v ∧
      s.ioVal (.lit (.b16 v)) 64 = v.setWidth 64) ∧
    (∀ v, s.windowAddr (.lit (.b32 v)) = v.setWidth 16 ∧ s.ioVal (.lit (.b32 v)) 16 = v.setWidth 16 ∧
      s.ioVal (.lit (.b32 v)) 64 = v.setWidth 64) ∧
    (∀ v, s.windowAddr (.lit (.b64 v)) = v.setWidth 16 ∧ s.ioVal (.lit (.b64 v)) 16 = v.setWidth 16 ∧
      s.ioVal (.lit (.b64 v)) 64 = v) ∧
    (∀ r, s.windowAddr (.reg r) = s.readReg r ∧ s.ioVal (.reg r) 16 = s.readReg r ∧
      s.ioVal (.reg r) 64 = (s.readReg r).setWidth 64) ∧
    (∀ r o, s.windowAddr (.mem (.off r o)) = s.addrReg r + o ∧
      s.ioVal (.mem (.off r o)) 16 = s.readByte (s.addrReg r + o) ++ s.readByte (s.addrReg r + o + 1#16) ∧
      s.ioVal (.mem (.off r o)) 64 = ofBytes 64 (s.readBytes (s.addrReg r + o) 8)) ∧
    (∀ r, s.windowAddr (.mem (.reg r)) = s.addrReg r ∧
      s.ioVal (.mem (.reg r)) 16 = s.readByte (s.addrReg r) ++ s.readByte (s.addrReg r + 1#16) ∧
      s.ioVal (.mem (.reg r)) 64 = ofBytes 64 (s.readBytes (s.addrReg r) 8)) ∧
    (∀ a, s.windowAddr (.mem (.abs a)) = a ∧ s.ioVal (.mem (.abs a)) 16 = s.readByte a ++ s.readByte (a + 1#16) ∧
      s.ioVal (.mem (.abs a)) 64 = ofBytes 64 (s.readBytes a 8)) ∧
    (∀ f, s.windowAddr (.flag f) = (if s.flag f then 1#16 else 0#16) ∧
      s.ioVal (.flag f) 16 = (if s.flag f then 1#16 else 0#16) ∧
      s.ioVal (.flag f) 64 = (if s.flag f then 1#64 else 0#64)) ∧
    (s.windowAddr .wlb = s.wlb.setWidth 16 ∧ s.ioVal .wlb 16 = s.wlb.setWidth 16 ∧
      s.ioVal .wlb 64 = s.wlb.setWidth 64)

/-- The imaginary registers are pool bytes `2k`, `2k+1` and `0x80+2k`, `0x80+2k+1`, most significant first: reading one
reads them and writing one writes them (R15, R116). -/
def Obligations.ImaginaryRegistersArePoolBytes : Prop :=
  ∀ (s : State) (k : Fin 4) (v : Word),
    s.readReg (.wi k) = s.poolByte (BitVec.ofNat 8 (2 * k.val)) ++ s.poolByte (BitVec.ofNat 8 (2 * k.val + 1)) ∧
    s.readReg (.pi k) =
      s.poolByte (BitVec.ofNat 8 (0x80 + 2 * k.val)) ++ s.poolByte (BitVec.ofNat 8 (0x80 + 2 * k.val + 1)) ∧
    (s.writeReg (.wi k) v).poolByte (BitVec.ofNat 8 (2 * k.val)) = v.extractLsb' 8 8 ∧
    (s.writeReg (.wi k) v).poolByte (BitVec.ofNat 8 (2 * k.val + 1)) = v.extractLsb' 0 8 ∧
    (s.writeReg (.pi k) v).poolByte (BitVec.ofNat 8 (0x80 + 2 * k.val)) = v.extractLsb' 8 8 ∧
    (s.writeReg (.pi k) v).poolByte (BitVec.ofNat 8 (0x80 + 2 * k.val + 1)) = v.extractLsb' 0 8

/-! ### Flow control -/

/-- `jfl` branches if its flag is 1 and `sfl` if it is 0; testing EF clears it, and nothing else changes (R180 to R183). -/
def Obligations.BranchesFollowTheirFlag : Prop :=
  ∀ (c : BitVec 3) (target : Word) (s : State),
    let f := [Flag.ZF, .SF, .OF, .NOF, .TF, .EF, .DZF, .RF].getD c.toNat .ZF
    let tested : List Flag := if c = 5#3 then [.EF] else []
    (∃ t, exec (.jfl c target) s = .next t ∧ t.ip = (if s.flag f then target else s.ip + 3#16) ∧
      (c = 5#3 → t.flag .EF = false) ∧ t.perr = s.perr ∧ KeepsData s t [] tested [] ∧ KeepsHost s t) ∧
    (∃ t, exec (.sfl c target) s = .next t ∧ t.ip = (if s.flag f then s.ip + 3#16 else target) ∧
      (c = 5#3 → t.flag .EF = false) ∧ t.perr = s.perr ∧ KeepsData s t [] tested [] ∧ KeepsHost s t)

/-- `call` stores the return address, `sp` and `ap` of before at `ap - 6`, `ap - 4` and `ap - 2`, sets `sp` and `ap` to
`ap - 6`, sets RF and jumps (R184). -/
def Obligations.CallPushesAFrame : Prop :=
  ∀ (target : Word) (s : State), ∃ t, exec (.call target) s = .next t ∧
    ofBytes 16 (t.readBytes (s.ap - 6#16) 2) = s.ip + 3#16 ∧ ofBytes 16 (t.readBytes (s.ap - 4#16) 2) = s.sp ∧
    ofBytes 16 (t.readBytes (s.ap - 2#16) 2) = s.ap ∧ t.ip = target ∧ t.sp = s.ap - 6#16 ∧ t.ap = s.ap - 6#16 ∧
    t.flag .RF = true ∧ t.perr = s.perr ∧
    KeepsData s t [.reg .sp, .reg .ap] [.RF] [⟨s.ap - 6#16, 6⟩] ∧ KeepsHost s t

/-- `ret` loads `ip`, `sp` and `ap` from `sp`, `sp + 2` and `sp + 4`, sets RF and writes `rs`; a status other than zero sets
EF and is the pending error (R186). -/
def Obligations.RetRestoresFromTheFrame : Prop :=
  ∀ (status : Byte) (s : State), ∃ t, exec (.ret status) s = .next t ∧
    t.ip = ofBytes 16 (s.readBytes s.sp 2) ∧ t.sp = ofBytes 16 (s.readBytes (s.sp + 2#16) 2) ∧
    t.ap = ofBytes 16 (s.readBytes (s.sp + 4#16) 2) ∧ t.flag .RF = true ∧ t.rs = status ∧
    t.flag .EF = (s.flag .EF || decide (status ≠ 0#8)) ∧
    t.perr = (if status = 0#8 then s.perr else some status) ∧
    KeepsData s t [.reg .sp, .reg .ap, .reg .rs] [.RF, .EF] [] ∧ KeepsHost s t

/-- `ret` reverses a `call`: with the frame record and `sp` as the call left them, it returns to the instruction after the
call with the caller's `sp` and `ap` (R184, R186). -/
def Obligations.RetReversesCall : Prop :=
  ∀ (target : Word) (status : Byte) (s t u : State), exec (.call target) s = .next t → u.sp = t.sp →
    (∀ i < 6, u.readByte (t.sp + BitVec.ofNat 16 i) = t.readByte (t.sp + BitVec.ofNat 16 i)) →
    ∃ v, exec (.ret status) u = .next v ∧ v.ip = s.ip + 3#16 ∧ v.sp = s.sp ∧ v.ap = s.ap

/-! ### Control and I/O -/

/-- `ign` sets RF to whether its type bits are not zero and writes no other flag (R166). -/
def Obligations.IgnWritesTheResponseFlag : Prop :=
  ∀ (b : BitVec 3) (s : State), ∃ t, exec (.ign b) s = .next t ∧ t.flag .RF = decide (b ≠ 0#3) ∧
    t.ip = s.ip + 1#16 ∧ t.perr = s.perr ∧ KeepsData s t [] [.RF] [] ∧ KeepsHost s t

/-- `mode` with a low nibble of 0 to 3 selects that word length, and floating-point mode if its high nibble is not zero; no
other flag and no data changes. A low nibble of 4 to 15 is refused (R167, U2). -/
def Obligations.ModeSelectsWordLengthAndNumberMode : Prop :=
  ∀ (imm : Byte) (s : State),
    (imm.toNat % 16 ≤ 3 → ∃ t, exec (.mode imm) s = .next t ∧ t.wordSize = 8 * 2 ^ (imm.toNat % 16) ∧
      t.flag .FMF = decide (16 ≤ imm.toNat) ∧ t.ip = s.ip + 2#16 ∧ t.perr = s.perr ∧
      KeepsData s t [.wlb] [.FMF] [] ∧ KeepsHost s t) ∧
    (3 < imm.toNat % 16 → exec (.mode imm) s = .refused .modeWordLength)

/-- `NOP` only advances `ip` by 1; `inth` records its address and advances `ip` by 3 (R211, R212; that `inth` has this
effect rather than a refusal is log entry 8). -/
def Obligations.NopAdvancesAndInthRecordsItsAddress : Prop :=
  ∀ (handler : Word) (s : State), exec .nop s = .next { s with ip := s.ip + 1#16 } ∧
    exec (.inth handler) s = .next { s with ih := some handler, ip := s.ip + 3#16 }

/-- `IOchan` closes the open file, makes its operand's value the channel and sets the position to 0; `seek` sets the
position (R202, R207). -/
def Obligations.IOchanAndSeekSetTheirState : Prop :=
  (∀ (c : Operand) (s : State), NumberOperand 2 c →
    ∃ t, exec (.ioChan c) s = .next t ∧ t.ip = s.ip + BitVec.ofNat 16 (2 + c.payloadSize) ∧ t.perr = s.perr ∧
      KeepsData s t [] [] [] ∧
      KeepsHost { s with openFile := none, chan := s.ioVal c 16, fpos := 0#64 } t) ∧
  (∀ (p : Operand) (s : State), NumberOperand 8 p →
    ∃ t, exec (.seek p) s = .next t ∧ t.ip = s.ip + BitVec.ofNat 16 (2 + p.payloadSize) ∧ t.perr = s.perr ∧
      KeepsData s t [] [] [] ∧ KeepsHost { s with fpos := s.ioVal p 64 } t)

/-- `in` on the console takes the oldest waiting input, or else the host's answer, stores as much of it as fits below the
stop address, and discards the rest; memory from the stop address on and beyond the input is unchanged; with no answer it
never completes (R204, U12, log entry 4). -/
def Obligations.InTakesOneConsoleInput : Prop :=
  ∀ (x y : Operand) (s : State), badSources x y = none → NumberOperand 2 x → NumberOperand 2 y → s.chan = 0#16 →
    (s.ioVal x 16).toNat ≤ (s.ioVal y 16).toNat →
    let takes (input : List Byte) (u : State) : Prop :=
      let n := min ((s.ioVal y 16).toNat - (s.ioVal x 16).toNat) input.length
      ∃ t, exec (.inp x y) s = .next t ∧ t.readBytes (s.ioVal x 16) n = input.take n ∧
        t.ip = s.ip + BitVec.ofNat 16 (Instr.inp x y).len ∧ t.perr = s.perr ∧
        KeepsData s t [] [] [⟨s.ioVal x 16, n⟩] ∧ KeepsHost u t
    (∀ input waiting, s.conIn = input :: waiting → takes input { s with conIn := waiting }) ∧
    (s.conIn = [] → match Config.hostInput s.hostAsked with
      | some input => takes input { s with hostAsked := s.hostAsked + 1 }
      | none => exec (.inp x y) s = .fault .hostGivesNoAnswer)

/-- `in` on a file stores the bytes from the position on, as many as there are and fit, and moves the position past them:
the bytes of the file, if it exists, is open for reading or not yet open, and reaches to the position, else the host's
answer; where the path has no end it never completes (R203, R204, U12, log entries 5 and 6). -/
def Obligations.InReadsAFileFromThePosition : Prop :=
  ∀ (x y : Operand) (s : State), badSources x y = none → NumberOperand 2 x → NumberOperand 2 y → 256 ≤ s.chan.toNat →
    (s.ioVal x 16).toNat ≤ (s.ioVal y 16).toNat →
    (∀ path, s.channelPath = some path →
      OnContents s .reading path (s.channelMode .reading = .reading) (exec (.inp x y) s) fun contents asked =>
        let n := min ((s.ioVal y 16).toNat - (s.ioVal x 16).toNat) (contents.length - s.fpos.toNat)
        ∃ t, exec (.inp x y) s = .next t ∧ t.readBytes (s.ioVal x 16) n = (contents.drop s.fpos.toNat).take n ∧
          t.ip = s.ip + BitVec.ofNat 16 (Instr.inp x y).len ∧ t.perr = s.perr ∧
          KeepsData s t [] [] [⟨s.ioVal x 16, n⟩] ∧
          KeepsHost { s with
            openFile := some ⟨path, s.channelMode .reading⟩, hostAsked := asked
            fpos := s.fpos + BitVec.ofNat 64 n } t) ∧
    (s.channelPath = none → exec (.inp x y) s = .fault .pathNeverEnds)

/-- `out` on the console appends the bytes from the first address up to, not including, the second to the log (R205). -/
def Obligations.OutAppendsToTheConsoleLog : Prop :=
  ∀ (x y : Operand) (s : State), badSources x y = none → NumberOperand 2 x → NumberOperand 2 y → s.chan = 0#16 →
    (s.ioVal x 16).toNat ≤ (s.ioVal y 16).toNat →
    let n := (s.ioVal y 16).toNat - (s.ioVal x 16).toNat
    let sent := (List.range n).map fun i => s.readByte (s.ioVal x 16 + BitVec.ofNat 16 i)
    ∃ t, exec (.out x y) s = .next t ∧ t.ip = s.ip + BitVec.ofNat 16 (Instr.out x y).len ∧ t.perr = s.perr ∧
      KeepsData s t [] [] [] ∧ KeepsHost { s with conLog := s.conLog ++ sent } t

/-- `outs` on the console appends the bytes before the first 0x00 byte, without it, addresses modulo 2^16; where no byte of
memory is 0x00 it never completes, whatever the channel (R206, U4). -/
def Obligations.OutsAppendsAStringToTheConsoleLog : Prop :=
  ∀ (x : Operand) (n : Nat) (s : State), NumberOperand 2 x →
    let a := s.ioVal x 16
    (s.chan = 0#16 → n < 65536 → (∀ i < n, s.readByte (a + BitVec.ofNat 16 i) ≠ 0x00#8) →
      s.readByte (a + BitVec.ofNat 16 n) = 0x00#8 →
      ∃ t, exec (.outs x) s = .next t ∧ t.ip = s.ip + BitVec.ofNat 16 (Instr.outs x).len ∧ t.perr = s.perr ∧
        KeepsData s t [] [] [] ∧
        KeepsHost { s with conLog := s.conLog ++ (List.range n).map fun i => s.readByte (a + BitVec.ofNat 16 i) } t) ∧
    ((∀ b : Word, s.readByte b ≠ 0x00#8) → exec (.outs x) s = .fault .outsNeverCompletes)

/-- `out` and `outs` on a file: it then holds the bytes sent at the position, with the contents it had around them, the
position moves past them, and no other file changes. A file that is open for writing has its own contents; where it is
only now opened for writing, or they do not reach to the position, what it holds is the host's answer; where the path has
no end `out` never completes (R203, R205, R206, U12, log entries 5 and 6). -/
def Obligations.OutputToAFileIsWrittenAtThePosition : Prop :=
  ∀ (path bs : List Byte) (s : State), 256 ≤ s.chan.toNat →
    let sends (answer : StepOutcome) (len : Nat) : Prop :=
      OnContents s .writing path (s.openFile.map (·.mode) = some .writing) answer fun contents asked =>
        ∃ t, answer = .next t ∧ t.ip = s.ip + BitVec.ofNat 16 len ∧ t.perr = s.perr ∧
          fileContents t.files path = some (contents.take s.fpos.toNat ++ bs ++
            contents.drop (s.fpos.toNat + bs.length)) ∧
          (∀ p, p ≠ path → fileContents t.files p = fileContents s.files p) ∧ KeepsData s t [] [] [] ∧
          KeepsHost { s with
            openFile := some ⟨path, s.channelMode .writing⟩, files := t.files, hostAsked := asked
            fpos := s.fpos + BitVec.ofNat 64 bs.length } t
    (∀ x y : Operand, badSources x y = none → NumberOperand 2 x → NumberOperand 2 y →
      (s.ioVal x 16).toNat ≤ (s.ioVal y 16).toNat →
      bs = s.readBytes (s.ioVal x 16) ((s.ioVal y 16).toNat - (s.ioVal x 16).toNat) →
      (s.channelPath = some path → sends (exec (.out x y) s) (Instr.out x y).len) ∧
      (s.channelPath = none → exec (.out x y) s = .fault .pathNeverEnds)) ∧
    (∀ x : Operand, NumberOperand 2 x → s.stringAt (s.ioVal x 16) = some bs → s.channelPath = some path →
      sends (exec (.outs x) s) (Instr.outs x).len)

/-! ### Forms the spec declines to give a meaning -/

/-- The forms of the arithmetic, logic and transfer instructions that stop. With one destination: `flg` or a flag as
destination of arithmetic or logic (U7), else a data-pool operand that runs past the pool (U5), where no SIMD error comes
first (R233); `cmp` and `alloc` with such an operand. `mul` and `div`: a SIMD group (U9); else a flag destination (U7);
else destinations of different widths (U8); else a data-pool operand that runs past the pool (U5); else two different
pool destinations of equal width that overlap (U8). -/
def Obligations.ArithmeticFormsWithNoMeaningAreRefused : Prop :=
  (∀ (d src : Operand) (s : State), badDest d = none → isSimd src = false →
    (isFlagOperand d = true →
      exec (.add d src) s = .refused .flagDestination ∧ exec (.sub d src) s = .refused .flagDestination ∧
      exec (.and d src) s = .refused .flagDestination ∧ exec (.or d src) s = .refused .flagDestination ∧
      exec (.nor d src) s = .refused .flagDestination ∧ exec (.xor d src) s = .refused .flagDestination ∧
      exec (.not d) s = .refused .flagDestination) ∧
    (isFlagOperand d = false → (s.operandFits d && s.operandFits src) = false →
      exec (.add d src) s = .refused .poolOverrun ∧ exec (.sub d src) s = .refused .poolOverrun ∧
      exec (.and d src) s = .refused .poolOverrun ∧ exec (.or d src) s = .refused .poolOverrun ∧
      exec (.nor d src) s = .refused .poolOverrun ∧ exec (.xor d src) s = .refused .poolOverrun) ∧
    (isFlagOperand d = false → s.operandFits d = false → exec (.not d) s = .refused .poolOverrun)) ∧
  (∀ (d src : Operand) (s : State), badMov d src = none → isSimd src = false →
    (s.operandFits d && s.operandFits src) = false → exec (.mov d src) s = .refused .poolOverrun) ∧
  (∀ (x y : Operand) (s : State), badSources x y = none → isSimd x = false → isSimd y = false →
    ((s.operandFits x && s.operandFits y) = false → exec (.cmp x y) s = .refused .poolOverrun) ∧
    (s.operandFits x = false → exec (.alloc x) s = .refused .poolOverrun)) ∧
  (∀ (d1 d2 src : Operand) (s : State), (badDest d1).or (badDest d2) = none →
    let stops (r : Refusal) : Prop := exec (.mul d1 d2 src) s = .refused r ∧ exec (.div d1 d2 src) s = .refused r
    (isSimd d1 = true ∨ isSimd d2 = true ∨ isSimd src = true → stops .mulDivSimd) ∧
    (isSimd d1 = false → isSimd d2 = false → isSimd src = false →
      (isFlagOperand d1 = true ∨ isFlagOperand d2 = true → stops .flagDestination) ∧
      (isFlagOperand d1 = false → isFlagOperand d2 = false →
        (naturalWidth s.wordSize d1 ≠ naturalWidth s.wordSize d2 → stops .destinationWidths) ∧
        (naturalWidth s.wordSize d1 = naturalWidth s.wordSize d2 →
          ((s.operandFits d1 && s.operandFits d2 && s.operandFits src) = false → stops .poolOverrun) ∧
          ((s.operandFits d1 && s.operandFits d2 && s.operandFits src) = true → d1 ≠ d2 →
            (∃ b : Byte, covers s.wordSize d1 b = true ∧ covers s.wordSize d2 b = true) →
            stops .destinationOverlap)))))

/-- `in` and `out` with the first address above the second (U10), `in`, `out`, `outs` on a reserved channel (U11), and
`mw` and the I/O instructions with a data-pool operand whose 2 bytes (of `seek`: 8 bytes) run past the pool (U5), stop. -/
def Obligations.IoFormsWithNoMeaningAreRefused : Prop :=
  (∀ (x y : Operand) (s : State), badSources x y = none → NumberOperand 2 x → NumberOperand 2 y →
    ((s.ioVal y 16).toNat < (s.ioVal x 16).toNat →
      exec (.inp x y) s = .refused .ioRangeReversed ∧ exec (.out x y) s = .refused .ioRangeReversed) ∧
    ((s.ioVal x 16).toNat ≤ (s.ioVal y 16).toNat → 1 ≤ s.chan.toNat → s.chan.toNat ≤ 255 →
      exec (.inp x y) s = .refused .reservedChannel ∧ exec (.out x y) s = .refused .reservedChannel)) ∧
  (∀ (x : Operand) (s : State) (bs : List Byte), NumberOperand 2 x → 1 ≤ s.chan.toNat → s.chan.toNat ≤ 255 →
    s.stringAt (s.ioVal x 16) = some bs → exec (.outs x) s = .refused .reservedChannel) ∧
  (∀ (x y : Operand) (s : State), badSources x y = none → isSimd x = false → isSimd y = false →
    (fitsBytes 2 x && fitsBytes 2 y) = false →
    exec (.inp x y) s = .refused .poolOverrun ∧ exec (.out x y) s = .refused .poolOverrun) ∧
  (∀ (x : Operand) (s : State),
    (fitsBytes 2 x = false → exec (.mw x) s = .refused .poolOverrun ∧ exec (.ioChan x) s = .refused .poolOverrun ∧
      exec (.outs x) s = .refused .poolOverrun) ∧
    (fitsBytes 8 x = false → exec (.seek x) s = .refused .poolOverrun))
end

