-- ==== Sys2Proof/Laws/Bytes.lean ====
section
/-! SUPPORT. Byte order (spec/20_memory.md R41): a value's bytes and the value of bytes are inverse. -/

namespace Sys2Proof

theorem beNat_append_byte (bs : List Byte) (b : Byte) : beNat (bs ++ [b]) = beNat bs * 256 + b.toNat := by
  simp [beNat]

theorem beNat_foldl (bs : List Byte) (acc : Nat) :
    bs.foldl (fun acc b => acc * 256 + b.toNat) acc = acc * 256 ^ bs.length + beNat bs := by
  induction bs generalizing acc with
  | nil => simp [beNat]
  | cons b bs ih =>
    simp only [List.foldl_cons, beNat, List.length_cons]
    rw [ih, ih]
    simp only [Nat.zero_mul, Nat.zero_add, Nat.pow_succ, Nat.add_mul]
    rw [Nat.mul_assoc, Nat.mul_comm 256, Nat.add_assoc]

theorem beNat_cons (b : Byte) (bs : List Byte) : beNat (b :: bs) = b.toNat * 256 ^ bs.length + beNat bs := by
  rw [beNat, List.foldl_cons, beNat_foldl, Nat.zero_mul, Nat.zero_add]

theorem beNat_lt (bs : List Byte) : beNat bs < 256 ^ bs.length := by
  induction bs with
  | nil => simp [beNat]
  | cons b bs ih =>
    rw [beNat_cons, List.length_cons, Nat.pow_succ]
    have hb : b.toNat < 256 := b.isLt
    calc b.toNat * 256 ^ bs.length + beNat bs < b.toNat * 256 ^ bs.length + 256 ^ bs.length := by omega
      _ = (b.toNat + 1) * 256 ^ bs.length := by rw [Nat.add_mul, Nat.one_mul]
      _ ≤ 256 * 256 ^ bs.length := Nat.mul_le_mul_right _ (by omega)
      _ = 256 ^ bs.length * 256 := Nat.mul_comm _ _

@[simp] theorem length_toBytes (n : Nat) {N : Nat} (v : BitVec N) : (toBytes n v).length = n := by simp [toBytes]

theorem toBytes_succ (n : Nat) {N : Nat} (v : BitVec N) :
    toBytes (n + 1) v = (v >>> (8 * n)).setWidth 8 :: toBytes n v := by
  simp only [toBytes, List.range_succ_eq_map, List.map_cons, List.map_map]
  congr 1
  apply List.map_congr_left
  intro i hi
  have : i < n := List.mem_range.mp hi
  simp only [Function.comp, Nat.succ_eq_add_one]
  rw [show n + 1 - 1 - (i + 1) = n - 1 - i by omega]

theorem beNat_toBytes (n : Nat) {N : Nat} (v : BitVec N) : beNat (toBytes n v) = v.toNat % 256 ^ n := by
  induction n with
  | zero => simp [toBytes, beNat, Nat.mod_one]
  | succ n ih =>
    rw [toBytes_succ, beNat_cons, ih, length_toBytes]
    have h8 : (256 : Nat) ^ n = 2 ^ (8 * n) := by rw [Nat.pow_mul]
    have : ((v >>> (8 * n)).setWidth 8).toNat = v.toNat / 256 ^ n % 256 := by
      simp [BitVec.toNat_setWidth, BitVec.toNat_ushiftRight, Nat.shiftRight_eq_div_pow, h8]
    rw [this, Nat.pow_succ, Nat.mod_mul, Nat.mul_comm, Nat.add_comm]

/-- The bytes of an `8 n`-bit value denote it (R41). -/
@[simp] theorem ofBytes_toBytes (n : Nat) (v : BitVec (8 * n)) : ofBytes (8 * n) (toBytes n v) = v := by
  apply BitVec.eq_of_toNat_eq
  have hv := v.isLt
  have h8 : (256 : Nat) ^ n = 2 ^ (8 * n) := by rw [Nat.pow_mul]
  simp only [ofBytes, BitVec.toNat_ofNat, beNat_toBytes, h8]
  rw [Nat.mod_mod, Nat.mod_eq_of_lt hv]

/-- The bytes of a value whose width is `8 n` denote it (R41). -/
theorem ofBytes_toBytes_of_eq {n N : Nat} (h : N = 8 * n) (v : BitVec N) : ofBytes N (toBytes n v) = v := by
  subst h; exact ofBytes_toBytes n v

/-- Bytes are the bytes of the value they denote (R41). -/
theorem toBytes_ofBytes (N : Nat) (bs : List Byte) (h : N = 8 * bs.length) : toBytes bs.length (ofBytes N bs) = bs := by
  have key : ∀ (bs : List Byte) (M : Nat), toBytes bs.length (BitVec.ofNat (8 * bs.length + M) (beNat bs)) = bs := by
    intro bs
    induction bs with
    | nil => intro M; rfl
    | cons b bs ih =>
      intro M
      have h8 : (256 : Nat) ^ bs.length = 2 ^ (8 * bs.length) := by rw [Nat.pow_mul]
      have hlt := beNat_lt bs
      have hb : b.toNat < 256 := b.isLt
      simp only [List.length_cons]
      rw [toBytes_succ]
      congr 1
      · apply BitVec.eq_of_toNat_eq
        simp only [BitVec.toNat_setWidth, BitVec.toNat_ushiftRight, BitVec.toNat_ofNat, Nat.shiftRight_eq_div_pow]
        have hbound : beNat (b :: bs) < 2 ^ (8 * (bs.length + 1) + M) := by
          have h1 := beNat_lt (b :: bs)
          have h2 : (256 : Nat) ^ (b :: bs).length = 2 ^ (8 * (bs.length + 1)) := by
            rw [List.length_cons, Nat.pow_mul]
          rw [h2] at h1
          exact Nat.lt_of_lt_of_le h1 (Nat.pow_le_pow_right (by decide) (by omega))
        rw [Nat.mod_eq_of_lt hbound, beNat_cons, ← h8]
        have hpos : 0 < 256 ^ bs.length := Nat.pow_pos (by decide)
        rw [Nat.add_comm, Nat.add_mul_div_right _ _ hpos, Nat.div_eq_of_lt hlt, Nat.zero_add, Nat.mod_eq_of_lt hb]
      · have e : toBytes bs.length (BitVec.ofNat (8 * (bs.length + 1) + M) (beNat (b :: bs))) =
            toBytes bs.length (BitVec.ofNat (8 * bs.length + M) (beNat bs)) := by
          simp only [toBytes]
          apply List.map_congr_left
          intro i hi
          have hi : i < bs.length := List.mem_range.mp hi
          apply BitVec.eq_of_toNat_eq
          simp only [BitVec.toNat_setWidth, BitVec.toNat_ushiftRight, BitVec.toNat_ofNat, Nat.shiftRight_eq_div_pow]
          have hbound : beNat (b :: bs) < 2 ^ (8 * (bs.length + 1) + M) := by
            have h1 := beNat_lt (b :: bs)
            have h2 : (256 : Nat) ^ (b :: bs).length = 2 ^ (8 * (bs.length + 1)) := by
              rw [List.length_cons, Nat.pow_mul]
            rw [h2] at h1
            exact Nat.lt_of_lt_of_le h1 (Nat.pow_le_pow_right (by decide) (by omega))
          have hbound2 : beNat bs < 2 ^ (8 * bs.length + M) := by
            rw [h8] at hlt
            exact Nat.lt_of_lt_of_le hlt (Nat.pow_le_pow_right (by decide) (by omega))
          rw [Nat.mod_eq_of_lt hbound, Nat.mod_eq_of_lt hbound2, beNat_cons, h8]
          have hs : 2 ^ (8 * bs.length) = 2 ^ 8 * 2 ^ (8 * i) * 2 ^ (8 * (bs.length - 1 - i)) := by
            rw [← Nat.pow_add, ← Nat.pow_add]
            congr 1; omega
          rw [hs]
          have hpos : 0 < 2 ^ (8 * (bs.length - 1 - i)) := Nat.pow_pos (by decide)
          rw [← Nat.mul_assoc, Nat.add_comm, Nat.add_mul_div_right _ _ hpos, ← Nat.mul_assoc, Nat.mul_right_comm,
            Nat.add_mul_mod_self_right]
        rw [e]
        exact ih M
  subst h
  exact key bs 0

end Sys2Proof
end

