-- ==== Sys2Proof/Laws/State.lean ====
section
/-! SUPPORT. What each named update of the state does to each field, and which reads it leaves alone: all true by
unfolding the one update. No other proof unfolds a record update. -/

namespace Sys2Proof.Machine

/-! ### advance -/

@[simp] theorem State.advance_mem (s : State) (n : Nat) : (s.advance n).mem = s.mem := rfl
@[simp] theorem State.advance_pool (s : State) (n : Nat) : (s.advance n).pool = s.pool := rfl
@[simp] theorem State.advance_ar (s : State) (n : Nat) : (s.advance n).ar = s.ar := rfl
@[simp] theorem State.advance_ip (s : State) (n : Nat) : (s.advance n).ip = s.ip + BitVec.ofNat 16 n := rfl
@[simp] theorem State.advance_sp (s : State) (n : Nat) : (s.advance n).sp = s.sp := rfl
@[simp] theorem State.advance_ap (s : State) (n : Nat) : (s.advance n).ap = s.ap := rfl
@[simp] theorem State.advance_wl (s : State) (n : Nat) : (s.advance n).wl = s.wl := rfl
@[simp] theorem State.advance_flg (s : State) (n : Nat) : (s.advance n).flg = s.flg := rfl
@[simp] theorem State.advance_rs (s : State) (n : Nat) : (s.advance n).rs = s.rs := rfl
@[simp] theorem State.advance_perr (s : State) (n : Nat) : (s.advance n).perr = s.perr := rfl
@[simp] theorem State.advance_halted (s : State) (n : Nat) : (s.advance n).halted = s.halted := rfl
@[simp] theorem State.advance_ih (s : State) (n : Nat) : (s.advance n).ih = s.ih := rfl
@[simp] theorem State.advance_chan (s : State) (n : Nat) : (s.advance n).chan = s.chan := rfl
@[simp] theorem State.advance_fpos (s : State) (n : Nat) : (s.advance n).fpos = s.fpos := rfl
@[simp] theorem State.advance_openFile (s : State) (n : Nat) : (s.advance n).openFile = s.openFile := rfl
@[simp] theorem State.advance_conIn (s : State) (n : Nat) : (s.advance n).conIn = s.conIn := rfl
@[simp] theorem State.advance_conLog (s : State) (n : Nat) : (s.advance n).conLog = s.conLog := rfl
@[simp] theorem State.advance_files (s : State) (n : Nat) : (s.advance n).files = s.files := rfl
@[simp] theorem State.advance_hostAsked (s : State) (n : Nat) : (s.advance n).hostAsked = s.hostAsked := rfl
@[simp] theorem State.advance_flgRead (s : State) (n : Nat) : (s.advance n).flgRead = s.flgRead := rfl
@[simp] theorem State.advance_flag (s : State) (n : Nat) (f : Flag) : (s.advance n).flag f = s.flag f := rfl
@[simp] theorem State.advance_wlb (s : State) (n : Nat) : (s.advance n).wlb = s.wlb := rfl
@[simp] theorem State.advance_wordSize (s : State) (n : Nat) : (s.advance n).wordSize = s.wordSize := rfl
@[simp] theorem State.advance_readByte (s : State) (n : Nat) (x : Word) : (s.advance n).readByte x = s.readByte x := rfl
@[simp] theorem State.advance_readBytes (s : State) (n : Nat) (x : Word) (k : Nat) : (s.advance n).readBytes x k = s.readBytes x k := rfl
@[simp] theorem State.advance_stringAt (s : State) (n : Nat) (x : Word) : (s.advance n).stringAt x = s.stringAt x := rfl
@[simp] theorem State.advance_poolByte (s : State) (n : Nat) (x : Byte) : (s.advance n).poolByte x = s.poolByte x := rfl
@[simp] theorem State.advance_readPool (s : State) (n : Nat) (x : Byte) (k : Nat) : (s.advance n).readPool x k = s.readPool x k := rfl
@[simp] theorem State.advance_readGroup (s : State) (n : Nat) (g : Group) : (s.advance n).readGroup g = s.readGroup g := rfl

/-! ### jump -/

@[simp] theorem State.jump_mem (s : State) (a : Word) : (s.jump a).mem = s.mem := rfl
@[simp] theorem State.jump_pool (s : State) (a : Word) : (s.jump a).pool = s.pool := rfl
@[simp] theorem State.jump_ar (s : State) (a : Word) : (s.jump a).ar = s.ar := rfl
@[simp] theorem State.jump_ip (s : State) (a : Word) : (s.jump a).ip = a := rfl
@[simp] theorem State.jump_sp (s : State) (a : Word) : (s.jump a).sp = s.sp := rfl
@[simp] theorem State.jump_ap (s : State) (a : Word) : (s.jump a).ap = s.ap := rfl
@[simp] theorem State.jump_wl (s : State) (a : Word) : (s.jump a).wl = s.wl := rfl
@[simp] theorem State.jump_flg (s : State) (a : Word) : (s.jump a).flg = s.flg := rfl
@[simp] theorem State.jump_rs (s : State) (a : Word) : (s.jump a).rs = s.rs := rfl
@[simp] theorem State.jump_perr (s : State) (a : Word) : (s.jump a).perr = s.perr := rfl
@[simp] theorem State.jump_halted (s : State) (a : Word) : (s.jump a).halted = s.halted := rfl
@[simp] theorem State.jump_ih (s : State) (a : Word) : (s.jump a).ih = s.ih := rfl
@[simp] theorem State.jump_chan (s : State) (a : Word) : (s.jump a).chan = s.chan := rfl
@[simp] theorem State.jump_fpos (s : State) (a : Word) : (s.jump a).fpos = s.fpos := rfl
@[simp] theorem State.jump_openFile (s : State) (a : Word) : (s.jump a).openFile = s.openFile := rfl
@[simp] theorem State.jump_conIn (s : State) (a : Word) : (s.jump a).conIn = s.conIn := rfl
@[simp] theorem State.jump_conLog (s : State) (a : Word) : (s.jump a).conLog = s.conLog := rfl
@[simp] theorem State.jump_files (s : State) (a : Word) : (s.jump a).files = s.files := rfl
@[simp] theorem State.jump_hostAsked (s : State) (a : Word) : (s.jump a).hostAsked = s.hostAsked := rfl
@[simp] theorem State.jump_flgRead (s : State) (a : Word) : (s.jump a).flgRead = s.flgRead := rfl
@[simp] theorem State.jump_flag (s : State) (a : Word) (f : Flag) : (s.jump a).flag f = s.flag f := rfl
@[simp] theorem State.jump_wlb (s : State) (a : Word) : (s.jump a).wlb = s.wlb := rfl
@[simp] theorem State.jump_wordSize (s : State) (a : Word) : (s.jump a).wordSize = s.wordSize := rfl
@[simp] theorem State.jump_readByte (s : State) (a : Word) (x : Word) : (s.jump a).readByte x = s.readByte x := rfl
@[simp] theorem State.jump_readBytes (s : State) (a : Word) (x : Word) (k : Nat) : (s.jump a).readBytes x k = s.readBytes x k := rfl
@[simp] theorem State.jump_stringAt (s : State) (a : Word) (x : Word) : (s.jump a).stringAt x = s.stringAt x := rfl
@[simp] theorem State.jump_poolByte (s : State) (a : Word) (x : Byte) : (s.jump a).poolByte x = s.poolByte x := rfl
@[simp] theorem State.jump_readPool (s : State) (a : Word) (x : Byte) (k : Nat) : (s.jump a).readPool x k = s.readPool x k := rfl
@[simp] theorem State.jump_readGroup (s : State) (a : Word) (g : Group) : (s.jump a).readGroup g = s.readGroup g := rfl

/-! ### writeBytes -/

@[simp] theorem State.writeBytes_mem (s : State) (a : Word) (bs : List Byte) : (s.writeBytes a bs).mem = s.mem.writeBytes a bs := rfl
@[simp] theorem State.writeBytes_pool (s : State) (a : Word) (bs : List Byte) : (s.writeBytes a bs).pool = s.pool := rfl
@[simp] theorem State.writeBytes_ar (s : State) (a : Word) (bs : List Byte) : (s.writeBytes a bs).ar = s.ar := rfl
@[simp] theorem State.writeBytes_ip (s : State) (a : Word) (bs : List Byte) : (s.writeBytes a bs).ip = s.ip := rfl
@[simp] theorem State.writeBytes_sp (s : State) (a : Word) (bs : List Byte) : (s.writeBytes a bs).sp = s.sp := rfl
@[simp] theorem State.writeBytes_ap (s : State) (a : Word) (bs : List Byte) : (s.writeBytes a bs).ap = s.ap := rfl
@[simp] theorem State.writeBytes_wl (s : State) (a : Word) (bs : List Byte) : (s.writeBytes a bs).wl = s.wl := rfl
@[simp] theorem State.writeBytes_flg (s : State) (a : Word) (bs : List Byte) : (s.writeBytes a bs).flg = s.flg := rfl
@[simp] theorem State.writeBytes_rs (s : State) (a : Word) (bs : List Byte) : (s.writeBytes a bs).rs = s.rs := rfl
@[simp] theorem State.writeBytes_perr (s : State) (a : Word) (bs : List Byte) : (s.writeBytes a bs).perr = s.perr := rfl
@[simp] theorem State.writeBytes_halted (s : State) (a : Word) (bs : List Byte) : (s.writeBytes a bs).halted = s.halted := rfl
@[simp] theorem State.writeBytes_ih (s : State) (a : Word) (bs : List Byte) : (s.writeBytes a bs).ih = s.ih := rfl
@[simp] theorem State.writeBytes_chan (s : State) (a : Word) (bs : List Byte) : (s.writeBytes a bs).chan = s.chan := rfl
@[simp] theorem State.writeBytes_fpos (s : State) (a : Word) (bs : List Byte) : (s.writeBytes a bs).fpos = s.fpos := rfl
@[simp] theorem State.writeBytes_openFile (s : State) (a : Word) (bs : List Byte) : (s.writeBytes a bs).openFile = s.openFile := rfl
@[simp] theorem State.writeBytes_conIn (s : State) (a : Word) (bs : List Byte) : (s.writeBytes a bs).conIn = s.conIn := rfl
@[simp] theorem State.writeBytes_conLog (s : State) (a : Word) (bs : List Byte) : (s.writeBytes a bs).conLog = s.conLog := rfl
@[simp] theorem State.writeBytes_files (s : State) (a : Word) (bs : List Byte) : (s.writeBytes a bs).files = s.files := rfl
@[simp] theorem State.writeBytes_hostAsked (s : State) (a : Word) (bs : List Byte) : (s.writeBytes a bs).hostAsked = s.hostAsked := rfl
@[simp] theorem State.writeBytes_flgRead (s : State) (a : Word) (bs : List Byte) : (s.writeBytes a bs).flgRead = s.flgRead := rfl
@[simp] theorem State.writeBytes_flag (s : State) (a : Word) (bs : List Byte) (f : Flag) : (s.writeBytes a bs).flag f = s.flag f := rfl
@[simp] theorem State.writeBytes_wlb (s : State) (a : Word) (bs : List Byte) : (s.writeBytes a bs).wlb = s.wlb := rfl
@[simp] theorem State.writeBytes_wordSize (s : State) (a : Word) (bs : List Byte) : (s.writeBytes a bs).wordSize = s.wordSize := rfl
@[simp] theorem State.writeBytes_poolByte (s : State) (a : Word) (bs : List Byte) (x : Byte) : (s.writeBytes a bs).poolByte x = s.poolByte x := rfl
@[simp] theorem State.writeBytes_readPool (s : State) (a : Word) (bs : List Byte) (x : Byte) (k : Nat) : (s.writeBytes a bs).readPool x k = s.readPool x k := rfl
@[simp] theorem State.writeBytes_readGroup (s : State) (a : Word) (bs : List Byte) (g : Group) : (s.writeBytes a bs).readGroup g = s.readGroup g := rfl

/-! ### writePool -/

@[simp] theorem State.writePool_mem (s : State) (a : Byte) (bs : List Byte) : (s.writePool a bs).mem = s.mem := rfl
@[simp] theorem State.writePool_pool (s : State) (a : Byte) (bs : List Byte) : (s.writePool a bs).pool = s.pool.writeBytes a bs := rfl
@[simp] theorem State.writePool_ar (s : State) (a : Byte) (bs : List Byte) : (s.writePool a bs).ar = s.ar := rfl
@[simp] theorem State.writePool_ip (s : State) (a : Byte) (bs : List Byte) : (s.writePool a bs).ip = s.ip := rfl
@[simp] theorem State.writePool_sp (s : State) (a : Byte) (bs : List Byte) : (s.writePool a bs).sp = s.sp := rfl
@[simp] theorem State.writePool_ap (s : State) (a : Byte) (bs : List Byte) : (s.writePool a bs).ap = s.ap := rfl
@[simp] theorem State.writePool_wl (s : State) (a : Byte) (bs : List Byte) : (s.writePool a bs).wl = s.wl := rfl
@[simp] theorem State.writePool_flg (s : State) (a : Byte) (bs : List Byte) : (s.writePool a bs).flg = s.flg := rfl
@[simp] theorem State.writePool_rs (s : State) (a : Byte) (bs : List Byte) : (s.writePool a bs).rs = s.rs := rfl
@[simp] theorem State.writePool_perr (s : State) (a : Byte) (bs : List Byte) : (s.writePool a bs).perr = s.perr := rfl
@[simp] theorem State.writePool_halted (s : State) (a : Byte) (bs : List Byte) : (s.writePool a bs).halted = s.halted := rfl
@[simp] theorem State.writePool_ih (s : State) (a : Byte) (bs : List Byte) : (s.writePool a bs).ih = s.ih := rfl
@[simp] theorem State.writePool_chan (s : State) (a : Byte) (bs : List Byte) : (s.writePool a bs).chan = s.chan := rfl
@[simp] theorem State.writePool_fpos (s : State) (a : Byte) (bs : List Byte) : (s.writePool a bs).fpos = s.fpos := rfl
@[simp] theorem State.writePool_openFile (s : State) (a : Byte) (bs : List Byte) : (s.writePool a bs).openFile = s.openFile := rfl
@[simp] theorem State.writePool_conIn (s : State) (a : Byte) (bs : List Byte) : (s.writePool a bs).conIn = s.conIn := rfl
@[simp] theorem State.writePool_conLog (s : State) (a : Byte) (bs : List Byte) : (s.writePool a bs).conLog = s.conLog := rfl
@[simp] theorem State.writePool_files (s : State) (a : Byte) (bs : List Byte) : (s.writePool a bs).files = s.files := rfl
@[simp] theorem State.writePool_hostAsked (s : State) (a : Byte) (bs : List Byte) : (s.writePool a bs).hostAsked = s.hostAsked := rfl
@[simp] theorem State.writePool_flgRead (s : State) (a : Byte) (bs : List Byte) : (s.writePool a bs).flgRead = s.flgRead := rfl
@[simp] theorem State.writePool_flag (s : State) (a : Byte) (bs : List Byte) (f : Flag) : (s.writePool a bs).flag f = s.flag f := rfl
@[simp] theorem State.writePool_wlb (s : State) (a : Byte) (bs : List Byte) : (s.writePool a bs).wlb = s.wlb := rfl
@[simp] theorem State.writePool_wordSize (s : State) (a : Byte) (bs : List Byte) : (s.writePool a bs).wordSize = s.wordSize := rfl
@[simp] theorem State.writePool_readByte (s : State) (a : Byte) (bs : List Byte) (x : Word) : (s.writePool a bs).readByte x = s.readByte x := rfl
@[simp] theorem State.writePool_readBytes (s : State) (a : Byte) (bs : List Byte) (x : Word) (k : Nat) : (s.writePool a bs).readBytes x k = s.readBytes x k := rfl
@[simp] theorem State.writePool_stringAt (s : State) (a : Byte) (bs : List Byte) (x : Word) : (s.writePool a bs).stringAt x = s.stringAt x := rfl

/-! ### setFlg -/

@[simp] theorem State.setFlg_mem (s : State) (v : Word) : (s.setFlg v).mem = s.mem := rfl
@[simp] theorem State.setFlg_pool (s : State) (v : Word) : (s.setFlg v).pool = s.pool := rfl
@[simp] theorem State.setFlg_ar (s : State) (v : Word) : (s.setFlg v).ar = s.ar := rfl
@[simp] theorem State.setFlg_ip (s : State) (v : Word) : (s.setFlg v).ip = s.ip := rfl
@[simp] theorem State.setFlg_sp (s : State) (v : Word) : (s.setFlg v).sp = s.sp := rfl
@[simp] theorem State.setFlg_ap (s : State) (v : Word) : (s.setFlg v).ap = s.ap := rfl
@[simp] theorem State.setFlg_wl (s : State) (v : Word) : (s.setFlg v).wl = s.wl := rfl
@[simp] theorem State.setFlg_flg (s : State) (v : Word) : (s.setFlg v).flg = flgForm v := rfl
@[simp] theorem State.setFlg_rs (s : State) (v : Word) : (s.setFlg v).rs = s.rs := rfl
@[simp] theorem State.setFlg_perr (s : State) (v : Word) : (s.setFlg v).perr = s.perr := rfl
@[simp] theorem State.setFlg_halted (s : State) (v : Word) : (s.setFlg v).halted = s.halted := rfl
@[simp] theorem State.setFlg_ih (s : State) (v : Word) : (s.setFlg v).ih = s.ih := rfl
@[simp] theorem State.setFlg_chan (s : State) (v : Word) : (s.setFlg v).chan = s.chan := rfl
@[simp] theorem State.setFlg_fpos (s : State) (v : Word) : (s.setFlg v).fpos = s.fpos := rfl
@[simp] theorem State.setFlg_openFile (s : State) (v : Word) : (s.setFlg v).openFile = s.openFile := rfl
@[simp] theorem State.setFlg_conIn (s : State) (v : Word) : (s.setFlg v).conIn = s.conIn := rfl
@[simp] theorem State.setFlg_conLog (s : State) (v : Word) : (s.setFlg v).conLog = s.conLog := rfl
@[simp] theorem State.setFlg_files (s : State) (v : Word) : (s.setFlg v).files = s.files := rfl
@[simp] theorem State.setFlg_hostAsked (s : State) (v : Word) : (s.setFlg v).hostAsked = s.hostAsked := rfl
@[simp] theorem State.setFlg_readByte (s : State) (v : Word) (x : Word) : (s.setFlg v).readByte x = s.readByte x := rfl
@[simp] theorem State.setFlg_readBytes (s : State) (v : Word) (x : Word) (k : Nat) : (s.setFlg v).readBytes x k = s.readBytes x k := rfl
@[simp] theorem State.setFlg_stringAt (s : State) (v : Word) (x : Word) : (s.setFlg v).stringAt x = s.stringAt x := rfl
@[simp] theorem State.setFlg_poolByte (s : State) (v : Word) (x : Byte) : (s.setFlg v).poolByte x = s.poolByte x := rfl
@[simp] theorem State.setFlg_readPool (s : State) (v : Word) (x : Byte) (k : Nat) : (s.setFlg v).readPool x k = s.readPool x k := rfl
@[simp] theorem State.setFlg_readGroup (s : State) (v : Word) (g : Group) : (s.setFlg v).readGroup g = s.readGroup g := rfl

/-! ### setFlag -/

@[simp] theorem State.setFlag_mem (s : State) (f : Flag) (b : Bool) : (s.setFlag f b).mem = s.mem := rfl
@[simp] theorem State.setFlag_pool (s : State) (f : Flag) (b : Bool) : (s.setFlag f b).pool = s.pool := rfl
@[simp] theorem State.setFlag_ar (s : State) (f : Flag) (b : Bool) : (s.setFlag f b).ar = s.ar := rfl
@[simp] theorem State.setFlag_ip (s : State) (f : Flag) (b : Bool) : (s.setFlag f b).ip = s.ip := rfl
@[simp] theorem State.setFlag_sp (s : State) (f : Flag) (b : Bool) : (s.setFlag f b).sp = s.sp := rfl
@[simp] theorem State.setFlag_ap (s : State) (f : Flag) (b : Bool) : (s.setFlag f b).ap = s.ap := rfl
@[simp] theorem State.setFlag_wl (s : State) (f : Flag) (b : Bool) : (s.setFlag f b).wl = s.wl := rfl
@[simp] theorem State.setFlag_flg (s : State) (f : Flag) (b : Bool) : (s.setFlag f b).flg = flgWith f b s.flg := rfl
@[simp] theorem State.setFlag_rs (s : State) (f : Flag) (b : Bool) : (s.setFlag f b).rs = s.rs := rfl
@[simp] theorem State.setFlag_perr (s : State) (f : Flag) (b : Bool) : (s.setFlag f b).perr = s.perr := rfl
@[simp] theorem State.setFlag_halted (s : State) (f : Flag) (b : Bool) : (s.setFlag f b).halted = s.halted := rfl
@[simp] theorem State.setFlag_ih (s : State) (f : Flag) (b : Bool) : (s.setFlag f b).ih = s.ih := rfl
@[simp] theorem State.setFlag_chan (s : State) (f : Flag) (b : Bool) : (s.setFlag f b).chan = s.chan := rfl
@[simp] theorem State.setFlag_fpos (s : State) (f : Flag) (b : Bool) : (s.setFlag f b).fpos = s.fpos := rfl
@[simp] theorem State.setFlag_openFile (s : State) (f : Flag) (b : Bool) : (s.setFlag f b).openFile = s.openFile := rfl
@[simp] theorem State.setFlag_conIn (s : State) (f : Flag) (b : Bool) : (s.setFlag f b).conIn = s.conIn := rfl
@[simp] theorem State.setFlag_conLog (s : State) (f : Flag) (b : Bool) : (s.setFlag f b).conLog = s.conLog := rfl
@[simp] theorem State.setFlag_files (s : State) (f : Flag) (b : Bool) : (s.setFlag f b).files = s.files := rfl
@[simp] theorem State.setFlag_hostAsked (s : State) (f : Flag) (b : Bool) : (s.setFlag f b).hostAsked = s.hostAsked := rfl
@[simp] theorem State.setFlag_readByte (s : State) (f : Flag) (b : Bool) (x : Word) : (s.setFlag f b).readByte x = s.readByte x := rfl
@[simp] theorem State.setFlag_readBytes (s : State) (f : Flag) (b : Bool) (x : Word) (k : Nat) : (s.setFlag f b).readBytes x k = s.readBytes x k := rfl
@[simp] theorem State.setFlag_stringAt (s : State) (f : Flag) (b : Bool) (x : Word) : (s.setFlag f b).stringAt x = s.stringAt x := rfl
@[simp] theorem State.setFlag_poolByte (s : State) (f : Flag) (b : Bool) (x : Byte) : (s.setFlag f b).poolByte x = s.poolByte x := rfl
@[simp] theorem State.setFlag_readPool (s : State) (f : Flag) (b : Bool) (x : Byte) (k : Nat) : (s.setFlag f b).readPool x k = s.readPool x k := rfl
@[simp] theorem State.setFlag_readGroup (s : State) (f : Flag) (b : Bool) (g : Group) : (s.setFlag f b).readGroup g = s.readGroup g := rfl

/-! ### setWlb -/

@[simp] theorem State.setWlb_mem (s : State) (n : BitVec 2) : (s.setWlb n).mem = s.mem := rfl
@[simp] theorem State.setWlb_pool (s : State) (n : BitVec 2) : (s.setWlb n).pool = s.pool := rfl
@[simp] theorem State.setWlb_ar (s : State) (n : BitVec 2) : (s.setWlb n).ar = s.ar := rfl
@[simp] theorem State.setWlb_ip (s : State) (n : BitVec 2) : (s.setWlb n).ip = s.ip := rfl
@[simp] theorem State.setWlb_sp (s : State) (n : BitVec 2) : (s.setWlb n).sp = s.sp := rfl
@[simp] theorem State.setWlb_ap (s : State) (n : BitVec 2) : (s.setWlb n).ap = s.ap := rfl
@[simp] theorem State.setWlb_wl (s : State) (n : BitVec 2) : (s.setWlb n).wl = s.wl := rfl
@[simp] theorem State.setWlb_flg (s : State) (n : BitVec 2) : (s.setWlb n).flg = flgWithWlb n s.flg := rfl
@[simp] theorem State.setWlb_rs (s : State) (n : BitVec 2) : (s.setWlb n).rs = s.rs := rfl
@[simp] theorem State.setWlb_perr (s : State) (n : BitVec 2) : (s.setWlb n).perr = s.perr := rfl
@[simp] theorem State.setWlb_halted (s : State) (n : BitVec 2) : (s.setWlb n).halted = s.halted := rfl
@[simp] theorem State.setWlb_ih (s : State) (n : BitVec 2) : (s.setWlb n).ih = s.ih := rfl
@[simp] theorem State.setWlb_chan (s : State) (n : BitVec 2) : (s.setWlb n).chan = s.chan := rfl
@[simp] theorem State.setWlb_fpos (s : State) (n : BitVec 2) : (s.setWlb n).fpos = s.fpos := rfl
@[simp] theorem State.setWlb_openFile (s : State) (n : BitVec 2) : (s.setWlb n).openFile = s.openFile := rfl
@[simp] theorem State.setWlb_conIn (s : State) (n : BitVec 2) : (s.setWlb n).conIn = s.conIn := rfl
@[simp] theorem State.setWlb_conLog (s : State) (n : BitVec 2) : (s.setWlb n).conLog = s.conLog := rfl
@[simp] theorem State.setWlb_files (s : State) (n : BitVec 2) : (s.setWlb n).files = s.files := rfl
@[simp] theorem State.setWlb_hostAsked (s : State) (n : BitVec 2) : (s.setWlb n).hostAsked = s.hostAsked := rfl
@[simp] theorem State.setWlb_readByte (s : State) (n : BitVec 2) (x : Word) : (s.setWlb n).readByte x = s.readByte x := rfl
@[simp] theorem State.setWlb_readBytes (s : State) (n : BitVec 2) (x : Word) (k : Nat) : (s.setWlb n).readBytes x k = s.readBytes x k := rfl
@[simp] theorem State.setWlb_stringAt (s : State) (n : BitVec 2) (x : Word) : (s.setWlb n).stringAt x = s.stringAt x := rfl
@[simp] theorem State.setWlb_poolByte (s : State) (n : BitVec 2) (x : Byte) : (s.setWlb n).poolByte x = s.poolByte x := rfl
@[simp] theorem State.setWlb_readPool (s : State) (n : BitVec 2) (x : Byte) (k : Nat) : (s.setWlb n).readPool x k = s.readPool x k := rfl
@[simp] theorem State.setWlb_readGroup (s : State) (n : BitVec 2) (g : Group) : (s.setWlb n).readGroup g = s.readGroup g := rfl

/-! ### raiseIf -/

@[simp] theorem State.raiseIf_mem (s : State) (c : Bool) (code : Byte) : (s.raiseIf c code).mem = s.mem := rfl
@[simp] theorem State.raiseIf_pool (s : State) (c : Bool) (code : Byte) : (s.raiseIf c code).pool = s.pool := rfl
@[simp] theorem State.raiseIf_ar (s : State) (c : Bool) (code : Byte) : (s.raiseIf c code).ar = s.ar := rfl
@[simp] theorem State.raiseIf_ip (s : State) (c : Bool) (code : Byte) : (s.raiseIf c code).ip = s.ip := rfl
@[simp] theorem State.raiseIf_sp (s : State) (c : Bool) (code : Byte) : (s.raiseIf c code).sp = s.sp := rfl
@[simp] theorem State.raiseIf_ap (s : State) (c : Bool) (code : Byte) : (s.raiseIf c code).ap = s.ap := rfl
@[simp] theorem State.raiseIf_wl (s : State) (c : Bool) (code : Byte) : (s.raiseIf c code).wl = s.wl := rfl
@[simp] theorem State.raiseIf_flg (s : State) (c : Bool) (code : Byte) : (s.raiseIf c code).flg = if c then flgWith .EF true s.flg else s.flg := rfl
@[simp] theorem State.raiseIf_rs (s : State) (c : Bool) (code : Byte) : (s.raiseIf c code).rs = s.rs := rfl
@[simp] theorem State.raiseIf_perr (s : State) (c : Bool) (code : Byte) : (s.raiseIf c code).perr = if c && s.flag .RF then some code else s.perr := rfl
@[simp] theorem State.raiseIf_halted (s : State) (c : Bool) (code : Byte) : (s.raiseIf c code).halted = s.halted := rfl
@[simp] theorem State.raiseIf_ih (s : State) (c : Bool) (code : Byte) : (s.raiseIf c code).ih = s.ih := rfl
@[simp] theorem State.raiseIf_chan (s : State) (c : Bool) (code : Byte) : (s.raiseIf c code).chan = s.chan := rfl
@[simp] theorem State.raiseIf_fpos (s : State) (c : Bool) (code : Byte) : (s.raiseIf c code).fpos = s.fpos := rfl
@[simp] theorem State.raiseIf_openFile (s : State) (c : Bool) (code : Byte) : (s.raiseIf c code).openFile = s.openFile := rfl
@[simp] theorem State.raiseIf_conIn (s : State) (c : Bool) (code : Byte) : (s.raiseIf c code).conIn = s.conIn := rfl
@[simp] theorem State.raiseIf_conLog (s : State) (c : Bool) (code : Byte) : (s.raiseIf c code).conLog = s.conLog := rfl
@[simp] theorem State.raiseIf_files (s : State) (c : Bool) (code : Byte) : (s.raiseIf c code).files = s.files := rfl
@[simp] theorem State.raiseIf_hostAsked (s : State) (c : Bool) (code : Byte) : (s.raiseIf c code).hostAsked = s.hostAsked := rfl
@[simp] theorem State.raiseIf_readByte (s : State) (c : Bool) (code : Byte) (x : Word) : (s.raiseIf c code).readByte x = s.readByte x := rfl
@[simp] theorem State.raiseIf_readBytes (s : State) (c : Bool) (code : Byte) (x : Word) (k : Nat) : (s.raiseIf c code).readBytes x k = s.readBytes x k := rfl
@[simp] theorem State.raiseIf_stringAt (s : State) (c : Bool) (code : Byte) (x : Word) : (s.raiseIf c code).stringAt x = s.stringAt x := rfl
@[simp] theorem State.raiseIf_poolByte (s : State) (c : Bool) (code : Byte) (x : Byte) : (s.raiseIf c code).poolByte x = s.poolByte x := rfl
@[simp] theorem State.raiseIf_readPool (s : State) (c : Bool) (code : Byte) (x : Byte) (k : Nat) : (s.raiseIf c code).readPool x k = s.readPool x k := rfl
@[simp] theorem State.raiseIf_readGroup (s : State) (c : Bool) (code : Byte) (g : Group) : (s.raiseIf c code).readGroup g = s.readGroup g := rfl

/-! ### discharge -/

@[simp] theorem State.discharge_mem (s : State) : (s.discharge).mem = s.mem := rfl
@[simp] theorem State.discharge_pool (s : State) : (s.discharge).pool = s.pool := rfl
@[simp] theorem State.discharge_ar (s : State) : (s.discharge).ar = s.ar := rfl
@[simp] theorem State.discharge_ip (s : State) : (s.discharge).ip = s.ip := rfl
@[simp] theorem State.discharge_sp (s : State) : (s.discharge).sp = s.sp := rfl
@[simp] theorem State.discharge_ap (s : State) : (s.discharge).ap = s.ap := rfl
@[simp] theorem State.discharge_wl (s : State) : (s.discharge).wl = s.wl := rfl
@[simp] theorem State.discharge_flg (s : State) : (s.discharge).flg = s.flg := rfl
@[simp] theorem State.discharge_rs (s : State) : (s.discharge).rs = s.rs := rfl
@[simp] theorem State.discharge_perr (s : State) : (s.discharge).perr = none := rfl
@[simp] theorem State.discharge_halted (s : State) : (s.discharge).halted = s.halted := rfl
@[simp] theorem State.discharge_ih (s : State) : (s.discharge).ih = s.ih := rfl
@[simp] theorem State.discharge_chan (s : State) : (s.discharge).chan = s.chan := rfl
@[simp] theorem State.discharge_fpos (s : State) : (s.discharge).fpos = s.fpos := rfl
@[simp] theorem State.discharge_openFile (s : State) : (s.discharge).openFile = s.openFile := rfl
@[simp] theorem State.discharge_conIn (s : State) : (s.discharge).conIn = s.conIn := rfl
@[simp] theorem State.discharge_conLog (s : State) : (s.discharge).conLog = s.conLog := rfl
@[simp] theorem State.discharge_files (s : State) : (s.discharge).files = s.files := rfl
@[simp] theorem State.discharge_hostAsked (s : State) : (s.discharge).hostAsked = s.hostAsked := rfl
@[simp] theorem State.discharge_flgRead (s : State) : (s.discharge).flgRead = s.flgRead := rfl
@[simp] theorem State.discharge_flag (s : State) (f : Flag) : (s.discharge).flag f = s.flag f := rfl
@[simp] theorem State.discharge_wlb (s : State) : (s.discharge).wlb = s.wlb := rfl
@[simp] theorem State.discharge_wordSize (s : State) : (s.discharge).wordSize = s.wordSize := rfl
@[simp] theorem State.discharge_readByte (s : State) (x : Word) : (s.discharge).readByte x = s.readByte x := rfl
@[simp] theorem State.discharge_readBytes (s : State) (x : Word) (k : Nat) : (s.discharge).readBytes x k = s.readBytes x k := rfl
@[simp] theorem State.discharge_stringAt (s : State) (x : Word) : (s.discharge).stringAt x = s.stringAt x := rfl
@[simp] theorem State.discharge_poolByte (s : State) (x : Byte) : (s.discharge).poolByte x = s.poolByte x := rfl
@[simp] theorem State.discharge_readPool (s : State) (x : Byte) (k : Nat) : (s.discharge).readPool x k = s.readPool x k := rfl
@[simp] theorem State.discharge_readGroup (s : State) (g : Group) : (s.discharge).readGroup g = s.readGroup g := rfl

/-! ### halt -/

@[simp] theorem State.halt_mem (s : State) (code : Byte) : (s.halt code).mem = s.mem := rfl
@[simp] theorem State.halt_pool (s : State) (code : Byte) : (s.halt code).pool = s.pool := rfl
@[simp] theorem State.halt_ar (s : State) (code : Byte) : (s.halt code).ar = s.ar := rfl
@[simp] theorem State.halt_ip (s : State) (code : Byte) : (s.halt code).ip = s.ip := rfl
@[simp] theorem State.halt_sp (s : State) (code : Byte) : (s.halt code).sp = s.sp := rfl
@[simp] theorem State.halt_ap (s : State) (code : Byte) : (s.halt code).ap = s.ap := rfl
@[simp] theorem State.halt_wl (s : State) (code : Byte) : (s.halt code).wl = s.wl := rfl
@[simp] theorem State.halt_flg (s : State) (code : Byte) : (s.halt code).flg = s.flg := rfl
@[simp] theorem State.halt_rs (s : State) (code : Byte) : (s.halt code).rs = s.rs := rfl
@[simp] theorem State.halt_perr (s : State) (code : Byte) : (s.halt code).perr = s.perr := rfl
@[simp] theorem State.halt_halted (s : State) (code : Byte) : (s.halt code).halted = some code := rfl
@[simp] theorem State.halt_ih (s : State) (code : Byte) : (s.halt code).ih = s.ih := rfl
@[simp] theorem State.halt_chan (s : State) (code : Byte) : (s.halt code).chan = s.chan := rfl
@[simp] theorem State.halt_fpos (s : State) (code : Byte) : (s.halt code).fpos = s.fpos := rfl
@[simp] theorem State.halt_openFile (s : State) (code : Byte) : (s.halt code).openFile = none := rfl
@[simp] theorem State.halt_conIn (s : State) (code : Byte) : (s.halt code).conIn = s.conIn := rfl
@[simp] theorem State.halt_conLog (s : State) (code : Byte) : (s.halt code).conLog = s.conLog := rfl
@[simp] theorem State.halt_files (s : State) (code : Byte) : (s.halt code).files = s.files := rfl
@[simp] theorem State.halt_hostAsked (s : State) (code : Byte) : (s.halt code).hostAsked = s.hostAsked := rfl
@[simp] theorem State.halt_flgRead (s : State) (code : Byte) : (s.halt code).flgRead = s.flgRead := rfl
@[simp] theorem State.halt_flag (s : State) (code : Byte) (f : Flag) : (s.halt code).flag f = s.flag f := rfl
@[simp] theorem State.halt_wlb (s : State) (code : Byte) : (s.halt code).wlb = s.wlb := rfl
@[simp] theorem State.halt_wordSize (s : State) (code : Byte) : (s.halt code).wordSize = s.wordSize := rfl
@[simp] theorem State.halt_readByte (s : State) (code : Byte) (x : Word) : (s.halt code).readByte x = s.readByte x := rfl
@[simp] theorem State.halt_readBytes (s : State) (code : Byte) (x : Word) (k : Nat) : (s.halt code).readBytes x k = s.readBytes x k := rfl
@[simp] theorem State.halt_stringAt (s : State) (code : Byte) (x : Word) : (s.halt code).stringAt x = s.stringAt x := rfl
@[simp] theorem State.halt_poolByte (s : State) (code : Byte) (x : Byte) : (s.halt code).poolByte x = s.poolByte x := rfl
@[simp] theorem State.halt_readPool (s : State) (code : Byte) (x : Byte) (k : Nat) : (s.halt code).readPool x k = s.readPool x k := rfl
@[simp] theorem State.halt_readGroup (s : State) (code : Byte) (g : Group) : (s.halt code).readGroup g = s.readGroup g := rfl

/-! ### movePosition -/

@[simp] theorem State.movePosition_mem (s : State) (n : Nat) : (s.movePosition n).mem = s.mem := rfl
@[simp] theorem State.movePosition_pool (s : State) (n : Nat) : (s.movePosition n).pool = s.pool := rfl
@[simp] theorem State.movePosition_ar (s : State) (n : Nat) : (s.movePosition n).ar = s.ar := rfl
@[simp] theorem State.movePosition_ip (s : State) (n : Nat) : (s.movePosition n).ip = s.ip := rfl
@[simp] theorem State.movePosition_sp (s : State) (n : Nat) : (s.movePosition n).sp = s.sp := rfl
@[simp] theorem State.movePosition_ap (s : State) (n : Nat) : (s.movePosition n).ap = s.ap := rfl
@[simp] theorem State.movePosition_wl (s : State) (n : Nat) : (s.movePosition n).wl = s.wl := rfl
@[simp] theorem State.movePosition_flg (s : State) (n : Nat) : (s.movePosition n).flg = s.flg := rfl
@[simp] theorem State.movePosition_rs (s : State) (n : Nat) : (s.movePosition n).rs = s.rs := rfl
@[simp] theorem State.movePosition_perr (s : State) (n : Nat) : (s.movePosition n).perr = s.perr := rfl
@[simp] theorem State.movePosition_halted (s : State) (n : Nat) : (s.movePosition n).halted = s.halted := rfl
@[simp] theorem State.movePosition_ih (s : State) (n : Nat) : (s.movePosition n).ih = s.ih := rfl
@[simp] theorem State.movePosition_chan (s : State) (n : Nat) : (s.movePosition n).chan = s.chan := rfl
@[simp] theorem State.movePosition_fpos (s : State) (n : Nat) : (s.movePosition n).fpos = s.fpos + BitVec.ofNat 64 n := rfl
@[simp] theorem State.movePosition_openFile (s : State) (n : Nat) : (s.movePosition n).openFile = s.openFile := rfl
@[simp] theorem State.movePosition_conIn (s : State) (n : Nat) : (s.movePosition n).conIn = s.conIn := rfl
@[simp] theorem State.movePosition_conLog (s : State) (n : Nat) : (s.movePosition n).conLog = s.conLog := rfl
@[simp] theorem State.movePosition_files (s : State) (n : Nat) : (s.movePosition n).files = s.files := rfl
@[simp] theorem State.movePosition_hostAsked (s : State) (n : Nat) : (s.movePosition n).hostAsked = s.hostAsked := rfl
@[simp] theorem State.movePosition_flgRead (s : State) (n : Nat) : (s.movePosition n).flgRead = s.flgRead := rfl
@[simp] theorem State.movePosition_flag (s : State) (n : Nat) (f : Flag) : (s.movePosition n).flag f = s.flag f := rfl
@[simp] theorem State.movePosition_wlb (s : State) (n : Nat) : (s.movePosition n).wlb = s.wlb := rfl
@[simp] theorem State.movePosition_wordSize (s : State) (n : Nat) : (s.movePosition n).wordSize = s.wordSize := rfl
@[simp] theorem State.movePosition_readByte (s : State) (n : Nat) (x : Word) : (s.movePosition n).readByte x = s.readByte x := rfl
@[simp] theorem State.movePosition_readBytes (s : State) (n : Nat) (x : Word) (k : Nat) : (s.movePosition n).readBytes x k = s.readBytes x k := rfl
@[simp] theorem State.movePosition_stringAt (s : State) (n : Nat) (x : Word) : (s.movePosition n).stringAt x = s.stringAt x := rfl
@[simp] theorem State.movePosition_poolByte (s : State) (n : Nat) (x : Byte) : (s.movePosition n).poolByte x = s.poolByte x := rfl
@[simp] theorem State.movePosition_readPool (s : State) (n : Nat) (x : Byte) (k : Nat) : (s.movePosition n).readPool x k = s.readPool x k := rfl
@[simp] theorem State.movePosition_readGroup (s : State) (n : Nat) (g : Group) : (s.movePosition n).readGroup g = s.readGroup g := rfl

end Sys2Proof.Machine
end

