-- ==== Sys2Proof/Laws/Flags.lean ====
section
/-! SUPPORT. The flags register: what each write of it does to each flag and to the word length (spec/10_state.md
R28 to R31, spec/40_operands_simd.md R117). -/

namespace Sys2Proof.Machine

/-- A flag of what `flg` holds after `v` is put into it: TF is 1, the others are the bits of `v` (R31). -/
theorem getLsbD_flgForm (v : Word) (f : Flag) :
    (flgForm v).getLsbD (flagBit f) = (decide (f = .TF) || v.getLsbD (flagBit f)) := by
  cases f <;> simp [flgForm, flagBit]

/-- The bits of what `flg` holds after `v` is put into it: bit 11 is 1, bits 3..0 are 0, the others those of `v` (R31). -/
theorem getLsbD_flgForm_bit (v : Word) (i : Nat) :
    (flgForm v).getLsbD i = (decide (i = 11) || (decide (4 ≤ i) && v.getLsbD i)) := by
  by_cases hi : i < 16
  · have : i = 0 ∨ i = 1 ∨ i = 2 ∨ i = 3 ∨ i = 4 ∨ i = 5 ∨ i = 6 ∨ i = 7 ∨ i = 8 ∨ i = 9 ∨ i = 10 ∨ i = 11 ∨
      i = 12 ∨ i = 13 ∨ i = 14 ∨ i = 15 := by omega
    rcases this with h | h | h | h | h | h | h | h | h | h | h | h | h | h | h | h <;> subst h <;> simp [flgForm]
  · rw [BitVec.getLsbD_of_ge _ _ (by omega), BitVec.getLsbD_of_ge _ _ (by omega)]
    have : i ≠ 11 := by omega
    simp [this]

@[simp] theorem flgForm_flgForm (v : Word) : flgForm (flgForm v) = flgForm v := by
  apply BitVec.eq_of_getLsbD_eq
  intro i _
  simp only [getLsbD_flgForm_bit]
  cases decide (i = 11) <;> cases decide (4 ≤ i) <;> simp

@[simp] theorem flgForm_flgWith (f : Flag) (b : Bool) (v : Word) : flgForm (flgWith f b v) = flgWith f b v := by
  simp [flgWith]

@[simp] theorem flgForm_flgWithWlb (n : BitVec 2) (v : Word) : flgForm (flgWithWlb n v) = flgWithWlb n v := by
  simp [flgWithWlb]

/-- Setting one flag changes that flag alone, and TF never (R31, R117). -/
theorem getLsbD_flgWith (f g : Flag) (b : Bool) (v : Word) :
    (flgWith f b v).getLsbD (flagBit g) =
      if g = .TF then true else if g = f then b else (flgForm v).getLsbD (flagBit g) := by
  rw [flgWith, getLsbD_flgForm, getLsbD_flgForm]
  cases b <;> cases f <;> cases g <;> simp [flagBit]

theorem wlb_flgWith (f : Flag) (b : Bool) (v : Word) :
    (flgWith f b v).extractLsb' 4 2 = (flgForm v).extractLsb' 4 2 := by
  apply BitVec.eq_of_getLsbD_eq
  intro i hi
  have : i = 0 ∨ i = 1 := by omega
  rcases this with h | h <;> subst h <;> cases b <;> cases f <;> simp [flgWith, flgForm, flagBit]

theorem getLsbD_flgWithWlb (n : BitVec 2) (f : Flag) (v : Word) :
    (flgWithWlb n v).getLsbD (flagBit f) = (flgForm v).getLsbD (flagBit f) := by
  rw [flgWithWlb, getLsbD_flgForm, getLsbD_flgForm]
  cases f <;> simp [flagBit]

theorem wlb_flgWithWlb (n : BitVec 2) (v : Word) : (flgWithWlb n v).extractLsb' 4 2 = n := by
  apply BitVec.eq_of_getLsbD_eq
  intro i hi
  have : i = 0 ∨ i = 1 := by omega
  rcases this with h | h <;> subst h <;> simp [flgWithWlb, flgForm]

/-! ### The same, read from the state -/

/-- TF always reads 1 (R31). -/
@[simp] theorem State.flag_TF (s : State) : s.flag .TF = true := by
  simp [State.flag, State.flgRead, getLsbD_flgForm]

/-- A flag after a write of one flag (R117). -/
theorem State.setFlag_flag (s : State) (f g : Flag) (b : Bool) :
    (s.setFlag f b).flag g = if g = f then (if g = .TF then true else b) else s.flag g := by
  simp only [State.flag, State.flgRead, State.setFlag_flg, flgForm_flgWith, getLsbD_flgWith]
  by_cases hg : g = .TF
  · subst hg; simp [getLsbD_flgForm]
  · simp [hg]

@[simp] theorem State.setFlag_wlb (s : State) (f : Flag) (b : Bool) : (s.setFlag f b).wlb = s.wlb := by
  simp [State.wlb, State.flgRead, wlb_flgWith]

@[simp] theorem State.setFlag_wordSize (s : State) (f : Flag) (b : Bool) : (s.setFlag f b).wordSize = s.wordSize := by
  simp [State.wordSize]

@[simp] theorem State.setWlb_flag (s : State) (n : BitVec 2) (f : Flag) : (s.setWlb n).flag f = s.flag f := by
  simp only [State.flag, State.flgRead, State.setWlb_flg, flgForm_flgWithWlb, getLsbD_flgWithWlb]

@[simp] theorem State.setWlb_wlb (s : State) (n : BitVec 2) : (s.setWlb n).wlb = n := by
  simp [State.wlb, State.flgRead, wlb_flgWithWlb]

/-- A flag after a write of `flg` whole (R117). -/
theorem State.setFlg_flag (s : State) (v : Word) (f : Flag) :
    (s.setFlg v).flag f = (decide (f = .TF) || v.getLsbD (flagBit f)) := by
  simp [State.flag, State.flgRead, getLsbD_flgForm]

@[simp] theorem State.setFlg_flgRead (s : State) (v : Word) : (s.setFlg v).flgRead = flgForm v := by
  simp [State.flgRead]

/-- A flag after an error (R226): EF is set, no other flag changes. -/
theorem State.raiseIf_flag (s : State) (c : Bool) (code : Byte) (f : Flag) :
    (s.raiseIf c code).flag f = ((c && decide (f = .EF)) || s.flag f) := by
  cases c
  · rfl
  · have h : (s.raiseIf true code).flag f = (s.setFlag .EF true).flag f := rfl
    rw [h, State.setFlag_flag]
    by_cases hf : f = .EF <;> simp [hf]

@[simp] theorem State.raiseIf_wlb (s : State) (c : Bool) (code : Byte) : (s.raiseIf c code).wlb = s.wlb := by
  cases c
  · rfl
  · exact State.setFlag_wlb s .EF true

@[simp] theorem State.raiseIf_wordSize (s : State) (c : Bool) (code : Byte) :
    (s.raiseIf c code).wordSize = s.wordSize := by
  simp [State.wordSize]

/-- The word size is 8, 16, 32 or 64 (R4, R30). -/
theorem State.wordSize_cases (s : State) : s.wordSize = 8 ∨ s.wordSize = 16 ∨ s.wordSize = 32 ∨ s.wordSize = 64 := by
  have h : s.wlb.toNat < 4 := s.wlb.isLt
  have : s.wlb.toNat = 0 ∨ s.wlb.toNat = 1 ∨ s.wlb.toNat = 2 ∨ s.wlb.toNat = 3 := by omega
  rcases this with h | h | h | h <;> simp [State.wordSize, h]

end Sys2Proof.Machine
end

