-- ==== Sys2Proof/Laws/Memory.lean ====
section
/-! SUPPORT. Memory and the data-pool: a read after a write, what a write leaves alone, and the canonical form. -/

namespace Sys2Proof.Machine

/-! ### One byte -/

theorem Memory.read_erase_same (m : Memory) (a : Nat) : (m.erase a).read a = unlistedByte := by
  induction m with
  | nil => rfl
  | cons c rest ih =>
    obtain ⟨k, w⟩ := c
    by_cases h : k = a
    · simpa [Memory.erase, List.filter_cons, h] using ih
    · simpa [Memory.erase, List.filter_cons, h, Memory.read] using ih

theorem Memory.read_erase_other (m : Memory) {a x : Nat} (hx : x ≠ a) : (m.erase a).read x = m.read x := by
  induction m with
  | nil => rfl
  | cons c rest ih =>
    obtain ⟨k, w⟩ := c
    by_cases h : k = a
    · have hk : ¬ k = x := fun e => hx (e ▸ h)
      have ha : ¬ a = x := fun e => hx e.symm
      simpa [Memory.erase, List.filter_cons, h, Memory.read, ha] using ih
    · by_cases hk : k = x
      · simp [Memory.erase, Memory.read, hk, hx]
      · simpa [Memory.erase, List.filter_cons, h, Memory.read, hk] using ih

theorem Memory.read_insert_other (m : Memory) {a x : Nat} (v : Byte) (hx : x ≠ a) :
    (m.insert a v).read x = m.read x := by
  have ha : ¬ a = x := fun e => hx e.symm
  induction m with
  | nil => simp [Memory.insert, Memory.read, ha]
  | cons c rest ih =>
    obtain ⟨k, w⟩ := c
    by_cases h : a < k
    · simp [Memory.insert, h, Memory.read, ha]
    · simp [Memory.insert, h, Memory.read, ih]

theorem Memory.read_insert_same (m : Memory) (a : Nat) (v : Byte) (hm : ∀ c ∈ m, c.1 ≠ a) :
    (m.insert a v).read a = v := by
  induction m with
  | nil => simp [Memory.insert, Memory.read]
  | cons c rest ih =>
    obtain ⟨k, w⟩ := c
    have hk : k ≠ a := hm (k, w) (by simp)
    by_cases h : a < k
    · simp [Memory.insert, h, Memory.read]
    · simp [Memory.insert, h, Memory.read, hk, ih fun c hc => hm c (by simp [hc])]

theorem Memory.mem_erase_ne (m : Memory) (a : Nat) : ∀ c ∈ m.erase a, c.1 ≠ a := by
  intro c hc
  simpa using (List.mem_filter.mp hc).2

/-- A read after a write, at every address. -/
theorem Memory.read_write (m : Memory) (a x : Nat) (v : Byte) :
    (m.write a v).read x = if x = a then v else m.read x := by
  by_cases hv : v = unlistedByte
  · by_cases hx : x = a
    · simp [Memory.write, hv, hx, Memory.read_erase_same]
    · simp [Memory.write, hv, hx, Memory.read_erase_other]
  · by_cases hx : x = a
    · simp [Memory.write, hv, hx, Memory.read_insert_same _ _ _ (Memory.mem_erase_ne m a)]
    · simp [Memory.write, hv, hx, Memory.read_insert_other, Memory.read_erase_other]

/-! ### The canonical form -/

theorem Memory.risesFrom_cons {lo k : Nat} {v : Byte} {rest : Memory} :
    Memory.risesFrom lo ((k, v) :: rest) = true ↔
      lo ≤ k ∧ k < 65536 ∧ v ≠ unlistedByte ∧ Memory.risesFrom (k + 1) rest = true := by
  simp [Memory.risesFrom, and_assoc]

theorem Memory.risesFrom_mono {lo lo' : Nat} {m : Memory} (h : lo ≤ lo') (hm : Memory.risesFrom lo' m = true) :
    Memory.risesFrom lo m = true := by
  cases m with
  | nil => rfl
  | cons c rest =>
    obtain ⟨k, v⟩ := c
    rw [Memory.risesFrom_cons] at hm ⊢
    exact ⟨Nat.le_trans h hm.1, hm.2⟩

theorem Memory.risesFrom_erase {lo : Nat} {m : Memory} (a : Nat) (hm : Memory.risesFrom lo m = true) :
    Memory.risesFrom lo (m.erase a) = true := by
  induction m generalizing lo with
  | nil => rfl
  | cons c rest ih =>
    obtain ⟨k, v⟩ := c
    rw [Memory.risesFrom_cons] at hm
    have hr := ih hm.2.2.2
    by_cases h : k = a
    · have : Memory.erase ((k, v) :: rest) a = Memory.erase rest a := by simp [Memory.erase, h]
      rw [this]
      exact Memory.risesFrom_mono (by omega) hr
    · have : Memory.erase ((k, v) :: rest) a = (k, v) :: Memory.erase rest a := by
        simp [Memory.erase, h]
      rw [this, Memory.risesFrom_cons]
      exact ⟨hm.1, hm.2.1, hm.2.2.1, hr⟩

theorem Memory.risesFrom_insert {lo a : Nat} {v : Byte} {m : Memory} (hm : Memory.risesFrom lo m = true)
    (hlo : lo ≤ a) (ha : a < 65536) (hv : v ≠ unlistedByte) (hne : ∀ c ∈ m, c.1 ≠ a) :
    Memory.risesFrom lo (m.insert a v) = true := by
  induction m generalizing lo with
  | nil => simp [Memory.insert, Memory.risesFrom, hlo, ha, hv]
  | cons c rest ih =>
    obtain ⟨k, w⟩ := c
    have hk : k ≠ a := hne (k, w) (by simp)
    rw [Memory.risesFrom_cons] at hm
    by_cases h : a < k
    · simp only [Memory.insert, h, if_true, Memory.risesFrom_cons]
      exact ⟨hlo, ha, hv, h, hm.2.1, hm.2.2.1, hm.2.2.2⟩
    · simp only [Memory.insert, h, if_false, Memory.risesFrom_cons]
      exact ⟨hm.1, hm.2.1, hm.2.2.1, ih hm.2.2.2 (by omega) fun c hc => hne c (by simp [hc])⟩

/-- A store inside memory keeps the canonical form. -/
theorem Memory.wf_write {m : Memory} (hm : m.wf = true) {a : Nat} (ha : a < 65536) (v : Byte) :
    (m.write a v).wf = true := by
  have he := Memory.risesFrom_erase a hm
  by_cases hv : v = unlistedByte
  · simpa [Memory.write, hv, Memory.wf] using he
  · simpa [Memory.write, hv, Memory.wf] using
      Memory.risesFrom_insert he (Nat.zero_le a) ha hv (Memory.mem_erase_ne m a)

/-- Every store of bytes keeps the canonical form. -/
theorem Memory.wf_writeBytes {m : Memory} (hm : m.wf = true) (a : Word) (bs : List Byte) :
    (m.writeBytes a bs).wf = true := by
  induction bs generalizing m a with
  | nil => exact hm
  | cons b bs ih => exact ih (Memory.wf_write hm a.isLt b) (a + 1#16)

/-! ### Many bytes -/

@[simp] theorem Memory.length_readBytes (m : Memory) (a : Word) (n : Nat) : (m.readBytes a n).length = n := by
  simp [Memory.readBytes]

theorem Memory.getElem_readBytes (m : Memory) (a : Word) (n i : Nat) (h : i < (m.readBytes a n).length) :
    (m.readBytes a n)[i] = m.read (a + BitVec.ofNat 16 i).toNat := by
  simp [Memory.readBytes]

/-- The distance from `a + 1` to `x`, for `x` other than `a`. -/
theorem sub_add_one_toNat {w : Nat} {a x : BitVec w} (hw : 0 < w) (hx : x ≠ a) :
    (x - (a + 1#w)).toNat + 1 = (x - a).toNat := by
  have hlt : 1 < 2 ^ w := Nat.one_lt_two_pow (by omega)
  have hxl := x.isLt
  have hal := a.isLt
  have hne : x.toNat ≠ a.toNat := fun e => hx (BitVec.eq_of_toNat_eq e)
  have h1 : (1 : Nat) % 2 ^ w = 1 := Nat.mod_eq_of_lt hlt
  simp only [BitVec.toNat_sub, BitVec.toNat_add, BitVec.toNat_ofNat, h1]
  generalize 2 ^ w = M at *
  by_cases ha : a.toNat + 1 = M
  · rw [ha, Nat.mod_self]
    have : M - a.toNat = 1 := by omega
    rw [this]
    have e1 : (M - 0 + x.toNat) % M = x.toNat := by
      rw [Nat.sub_zero, Nat.add_mod_left, Nat.mod_eq_of_lt hxl]
    rw [e1, Nat.mod_eq_of_lt (by omega)]
    omega
  · have ha' : (a.toNat + 1) % M = a.toNat + 1 := Nat.mod_eq_of_lt (by omega)
    rw [ha']
    by_cases hlt2 : x.toNat < a.toNat
    · rw [Nat.mod_eq_of_lt (by omega), Nat.mod_eq_of_lt (by omega)]
      omega
    · have e1 : M - (a.toNat + 1) + x.toNat = M + (x.toNat - a.toNat - 1) := by omega
      have e2 : M - a.toNat + x.toNat = M + (x.toNat - a.toNat) := by omega
      rw [e1, e2, Nat.add_mod_left, Nat.add_mod_left, Nat.mod_eq_of_lt (by omega), Nat.mod_eq_of_lt (by omega)]
      omega

/-- A read after a store of bytes: the stored byte inside the stored range, what was there outside it. -/
theorem Memory.read_writeBytes (m : Memory) (a x : Word) (bs : List Byte) (hn : bs.length ≤ 65536) :
    (m.writeBytes a bs).read x.toNat = (bs[(x - a).toNat]?).getD (m.read x.toNat) := by
  induction bs generalizing m a with
  | nil => simp [Memory.writeBytes]
  | cons b bs ih =>
    have hlen : bs.length ≤ 65536 := by simp at hn; omega
    rw [Memory.writeBytes, ih _ _ hlen, Memory.read_write]
    by_cases hx : x = a
    · subst hx
      have hd : (x - (x + 1#16)).toNat = 65535 := by bv_omega
      have hnone : bs[(x - (x + 1#16)).toNat]? = none := by
        rw [hd]; exact List.getElem?_eq_none (by simp at hn; omega)
      rw [hnone]; simp
    · have h1 := sub_add_one_toNat (by decide) hx
      have hx' : x.toNat ≠ a.toNat := fun e => hx (BitVec.eq_of_toNat_eq e)
      rw [← h1]
      simp [hx']

/-- The data-pool after a store of bytes: the stored byte inside the stored range, what was there outside it. -/
theorem Pool.byte_setByte (p : Pool) (a x : Byte) (v : Byte) :
    (p.setByte a v).byte x = if x = a then v else p.byte x := by
  by_cases hx : x = a
  · subst hx; simp [Pool.setByte, Pool.byte]
  · have : a.toNat ≠ x.toNat := fun e => hx (BitVec.eq_of_toNat_eq e.symm)
    simp [Pool.setByte, Pool.byte, hx, this]

theorem Pool.byte_writeBytes (p : Pool) (a x : Byte) (bs : List Byte) (hn : bs.length ≤ 256) :
    (p.writeBytes a bs).byte x = (bs[(x - a).toNat]?).getD (p.byte x) := by
  induction bs generalizing p a with
  | nil => simp [Pool.writeBytes]
  | cons b bs ih =>
    have hlen : bs.length ≤ 256 := by simp at hn; omega
    rw [Pool.writeBytes, ih _ _ hlen, Pool.byte_setByte]
    by_cases hx : x = a
    · subst hx
      have hd : (x - (x + 1#8)).toNat = 255 := by bv_omega
      have hnone : bs[(x - (x + 1#8)).toNat]? = none := by
        rw [hd]; exact List.getElem?_eq_none (by simp at hn; omega)
      rw [hnone]; simp
    · have h1 := sub_add_one_toNat (by decide) hx
      rw [← h1]
      simp [hx]

@[simp] theorem Pool.length_readBytes (p : Pool) (a : Byte) (n : Nat) : (p.readBytes a n).length = n := by
  simp [Pool.readBytes]

theorem Pool.getElem_readBytes (p : Pool) (a : Byte) (n i : Nat) (h : i < (p.readBytes a n).length) :
    (p.readBytes a n)[i] = p.byte (a + BitVec.ofNat 8 i) := by
  simp [Pool.readBytes]

/-- Bytes read back after a store of them (R42, R43). -/
theorem Memory.readBytes_writeBytes (m : Memory) (a : Word) (bs : List Byte) (hn : bs.length ≤ 65536) :
    (m.writeBytes a bs).readBytes a bs.length = bs := by
  apply List.ext_getElem (by simp)
  intro i h1 h2
  have hi : (a + BitVec.ofNat 16 i - a).toNat = i := by
    rw [BitVec.add_comm, BitVec.add_sub_cancel, BitVec.toNat_ofNat, Nat.mod_eq_of_lt (by omega)]
  rw [Memory.getElem_readBytes, Memory.read_writeBytes _ _ _ _ hn, hi, List.getElem?_eq_getElem h2, Option.getD_some]

/-- Pool bytes read back after a store of them (R44). -/
theorem Pool.readBytes_writeBytes (p : Pool) (a : Byte) (bs : List Byte) (hn : bs.length ≤ 256) :
    (p.writeBytes a bs).readBytes a bs.length = bs := by
  apply List.ext_getElem (by simp)
  intro i h1 h2
  have hi : (a + BitVec.ofNat 8 i - a).toNat = i := by
    rw [BitVec.add_comm, BitVec.add_sub_cancel, BitVec.toNat_ofNat, Nat.mod_eq_of_lt (by omega)]
  rw [Pool.getElem_readBytes, Pool.byte_writeBytes _ _ _ _ hn, hi, List.getElem?_eq_getElem h2, Option.getD_some]

end Sys2Proof.Machine
end

