-- ==== Sys2Proof/Laws/Keeps.lean ====
section
/-! SUPPORT. Frames compose: what two updates in a row leave unchanged, and what each named update of the state leaves
unchanged. -/

namespace Sys2Proof.Machine

/-! ### Composition -/

theorem KeepsData.refl (s : State) (ds : List Operand) (fs : List Flag) (ms : List MemRange) :
    KeepsData s s ds fs ms := by
  constructor <;> intros <;> rfl

theorem KeepsHost.refl (s : State) : KeepsHost s s := by constructor <;> rfl

/-- A frame holds with more destinations, flags and ranges named. -/
theorem KeepsData.mono {s t : State} {ds ds' : List Operand} {fs fs' : List Flag} {ms ms' : List MemRange}
    (h : KeepsData s t ds fs ms) (hd : ds ⊆ ds' := by simp) (hf : fs ⊆ fs' := by simp) (hm : ms ⊆ ms' := by simp) :
    KeepsData s t ds' fs' ms' where
  pool b hb := h.pool b fun d hd' => hb d (hd hd')
  ar k hk := h.ar k fun hk' => hk (hd hk')
  sp hk := h.sp fun hk' => hk (hd hk')
  ap hk := h.ap fun hk' => hk (hd hk')
  wl hk := h.wl fun hk' => hk (hd hk')
  rs hk := h.rs fun hk' => hk (hd hk')
  flag f hk := h.flag f fun hk' => hk (hf hk')
  wlb hk := h.wlb fun hk' => hk (hd hk')
  mem a ha := h.mem a fun r hr => ha r (hm hr)

/-- Two updates in a row, the first of which keeps the word size. -/
theorem KeepsData.trans {s t u : State} {ds : List Operand} {fs : List Flag} {ms : List MemRange}
    (h1 : KeepsData s t ds fs ms) (h2 : KeepsData t u ds fs ms) (hw : t.wordSize = s.wordSize) :
    KeepsData s u ds fs ms where
  pool b hb := (h2.pool b (by rw [hw]; exact hb)).trans (h1.pool b hb)
  ar k hk := (h2.ar k hk).trans (h1.ar k hk)
  sp hk := (h2.sp hk).trans (h1.sp hk)
  ap hk := (h2.ap hk).trans (h1.ap hk)
  wl hk := (h2.wl hk).trans (h1.wl hk)
  rs hk := (h2.rs hk).trans (h1.rs hk)
  flag f hk := (h2.flag f hk).trans (h1.flag f hk)
  wlb hk := (h2.wlb hk).trans (h1.wlb hk)
  mem a ha := (h2.mem a ha).trans (h1.mem a ha)

theorem KeepsHost.trans {s t u : State} (h1 : KeepsHost s t) (h2 : KeepsHost t u) : KeepsHost s u where
  halted := h2.halted.trans h1.halted
  ih := h2.ih.trans h1.ih
  chan := h2.chan.trans h1.chan
  fpos := h2.fpos.trans h1.fpos
  openFile := h2.openFile.trans h1.openFile
  conIn := h2.conIn.trans h1.conIn
  conLog := h2.conLog.trans h1.conLog
  files := h2.files.trans h1.files
  hostAsked := h2.hostAsked.trans h1.hostAsked

/-- An update of the host's side, `ip`, the pending error or nothing else keeps the data. -/
theorem KeepsData.of_eq {s t : State} (hpool : t.pool = s.pool) (har : t.ar = s.ar) (hsp : t.sp = s.sp)
    (hap : t.ap = s.ap) (hwl : t.wl = s.wl) (hrs : t.rs = s.rs) (hflg : t.flg = s.flg) (hmem : t.mem = s.mem)
    (ds : List Operand) (fs : List Flag) (ms : List MemRange) : KeepsData s t ds fs ms where
  pool b _ := by simp [State.poolByte, hpool]
  ar k _ := by simp [State.readReg, har]
  sp _ := hsp
  ap _ := hap
  wl _ := hwl
  rs _ := hrs
  flag f _ := by simp [State.flag, State.flgRead, hflg]
  wlb _ := by simp [State.wlb, State.flgRead, hflg]
  mem a _ := by simp [State.readByte, hmem]

/-! ### The named updates -/

theorem State.advance_keeps (s : State) (n : Nat) (ds : List Operand) (fs : List Flag) (ms : List MemRange) :
    KeepsData s (s.advance n) ds fs ms := by
  apply KeepsData.of_eq <;> rfl

theorem State.jump_keeps (s : State) (a : Word) (ds : List Operand) (fs : List Flag) (ms : List MemRange) :
    KeepsData s (s.jump a) ds fs ms := by
  apply KeepsData.of_eq <;> rfl

theorem State.discharge_keeps (s : State) (ds : List Operand) (fs : List Flag) (ms : List MemRange) :
    KeepsData s s.discharge ds fs ms := by
  apply KeepsData.of_eq <;> rfl

theorem State.halt_keeps (s : State) (code : Byte) (ds : List Operand) (fs : List Flag) (ms : List MemRange) :
    KeepsData s (s.halt code) ds fs ms := by
  apply KeepsData.of_eq <;> rfl

theorem State.movePosition_keeps (s : State) (n : Nat) (ds : List Operand) (fs : List Flag) (ms : List MemRange) :
    KeepsData s (s.movePosition n) ds fs ms := by
  apply KeepsData.of_eq <;> rfl

theorem State.setFlag_keeps (s : State) (f : Flag) (b : Bool) : KeepsData s (s.setFlag f b) [] [f] [] where
  pool b _ := by simp
  ar k _ := by simp [State.readReg]
  sp _ := by simp
  ap _ := by simp
  wl _ := by simp
  rs _ := by simp
  flag g hg := by
    have : g ≠ f := by simpa using hg
    simp [State.setFlag_flag, this]
  wlb _ := by simp
  mem a _ := by simp

theorem State.setWlb_keeps (s : State) (n : BitVec 2) : KeepsData s (s.setWlb n) [.wlb] [] [] where
  pool b _ := by simp
  ar k _ := by simp [State.readReg]
  sp _ := by simp
  ap _ := by simp
  wl _ := by simp
  rs _ := by simp
  flag g _ := by simp
  wlb h := absurd (List.mem_singleton.mpr rfl) h
  mem a _ := by simp

/-- A write of `flg` whole can change every flag but TF, and the word length. -/
theorem State.setFlg_keeps (s : State) (v : Word) :
    KeepsData s (s.setFlg v) [.wlb] [.ZF, .SF, .OF, .NOF, .EF, .DZF, .RF, .SEF, .FMF] [] where
  pool b _ := by simp
  ar k _ := by simp [State.readReg]
  sp _ := by simp
  ap _ := by simp
  wl _ := by simp
  rs _ := by simp
  flag g hg := by cases g <;> simp at hg ⊢
  wlb h := absurd (List.mem_singleton.mpr rfl) h
  mem a _ := by simp

theorem State.raiseIf_keeps (s : State) (c : Bool) (code : Byte) : KeepsData s (s.raiseIf c code) [] [.EF] [] where
  pool b _ := by simp
  ar k _ := by simp [State.readReg]
  sp _ := by simp
  ap _ := by simp
  wl _ := by simp
  rs _ := by simp
  flag g hg := by
    have : g ≠ .EF := by simpa using hg
    simp [State.raiseIf_flag, this]
  wlb _ := by simp
  mem a _ := by simp

/-- A store of bytes to memory changes those bytes alone. -/
theorem State.writeBytes_keeps (s : State) (a : Word) (bs : List Byte) (hn : bs.length ≤ 65536) :
    KeepsData s (s.writeBytes a bs) [] [] [⟨a, bs.length⟩] where
  pool b _ := by simp
  ar k _ := by simp [State.readReg]
  sp _ := by simp
  ap _ := by simp
  wl _ := by simp
  rs _ := by simp
  flag g _ := by simp
  wlb _ := by simp
  mem x hx := by
    have h : bs.length ≤ (x - a).toNat := by simpa [MemRange.holds] using hx
    simp only [State.readByte, State.writeBytes_mem]
    rw [Memory.read_writeBytes _ _ _ _ hn, List.getElem?_eq_none h, Option.getD_none]

/-- A store of bytes to the pool changes those bytes alone. -/
theorem State.writePool_poolByte_outside (s : State) (a x : Byte) (bs : List Byte) (hn : bs.length ≤ 256)
    (hx : inPoolRange a bs.length x = false) : (s.writePool a bs).poolByte x = s.poolByte x := by
  have h : bs.length ≤ (x - a).toNat := by simpa [inPoolRange] using hx
  simp only [State.poolByte, State.writePool_pool]
  rw [Pool.byte_writeBytes _ _ _ _ hn, List.getElem?_eq_none h, Option.getD_none]

/-- A store of bytes to a destination's own pool bytes. -/
theorem State.writePool_keeps (s : State) (a : Byte) (bs : List Byte) (d : Operand) (hn : bs.length ≤ 256)
    (hd : ∀ x, covers s.wordSize d x = inPoolRange a bs.length x) : KeepsData s (s.writePool a bs) [d] [] [] where
  pool x hx := by
    apply State.writePool_poolByte_outside _ _ _ _ hn
    rw [← hd]; exact hx d (List.mem_singleton.mpr rfl)
  ar k _ := by simp [State.readReg]
  sp _ := by simp
  ap _ := by simp
  wl _ := by simp
  rs _ := by simp
  flag g _ := by simp
  wlb _ := by simp
  mem a _ := by simp

/-- Every named update but `halt` and `movePosition` keeps the host's side. -/
theorem State.advance_host (s : State) (n : Nat) : KeepsHost s (s.advance n) := by constructor <;> rfl
theorem State.jump_host (s : State) (a : Word) : KeepsHost s (s.jump a) := by constructor <;> rfl
theorem State.discharge_host (s : State) : KeepsHost s s.discharge := by constructor <;> rfl
theorem State.setFlag_host (s : State) (f : Flag) (b : Bool) : KeepsHost s (s.setFlag f b) := by constructor <;> rfl
theorem State.setWlb_host (s : State) (n : BitVec 2) : KeepsHost s (s.setWlb n) := by constructor <;> rfl
theorem State.setFlg_host (s : State) (v : Word) : KeepsHost s (s.setFlg v) := by constructor <;> rfl
theorem State.raiseIf_host (s : State) (c : Bool) (code : Byte) : KeepsHost s (s.raiseIf c code) := by
  constructor <;> rfl
theorem State.writeBytes_host (s : State) (a : Word) (bs : List Byte) : KeepsHost s (s.writeBytes a bs) := by
  constructor <;> rfl
theorem State.writePool_host (s : State) (a : Byte) (bs : List Byte) : KeepsHost s (s.writePool a bs) := by
  constructor <;> rfl

end Sys2Proof.Machine
end

