-- ==== Sys2Proof/Laws/Operands.lean ====
section
/-! SUPPORT. Operands: what a write to one changes, and that it reads back (spec/40_operands_simd.md R110 to R118). -/

namespace Sys2Proof.Machine

/-! ### Widths -/

/-- An operand that is neither memory, a literal, a flag nor a SIMD group: the scalar destinations (R121, U7). -/
def isScalarDest (d : Operand) : Prop := badDest d = none ∧ isSimd d = false ∧ isFlagOperand d = false

theorem isScalarDest.cases {d : Operand} (h : isScalarDest d) :
    (∃ a, d = .pool a) ∨ ∃ r, d = .reg r ∧ r ≠ .flg := by
  obtain ⟨h1, h2, h3⟩ := h
  cases d with
  | pool a => exact .inl ⟨a, rfl⟩
  | reg r => exact .inr ⟨r, rfl, by rintro rfl; simp [isFlagOperand] at h3⟩
  | lit v => simp [badDest] at h1
  | flag f => simp [isFlagOperand] at h3
  | wlb => simp [isFlagOperand] at h3
  | mem m => simp [badDest] at h1
  | simd g => simp [isSimd] at h2

/-- A scalar destination has a width of its own, and the operation runs at it (R113). -/
theorem isScalarDest.width {d : Operand} (h : isScalarDest d) (s : State) (src : Operand) :
    naturalWidth s.wordSize d = some (s.widthBeside d src) := by
  obtain ⟨a, rfl⟩ | ⟨r, rfl, -⟩ := h.cases <;> simp [naturalWidth, State.widthBeside]

/-- Every natural width is a whole number of bytes, at least one. -/
theorem naturalWidth_bytes {s : State} {o : Operand} {N : Nat} (h : naturalWidth s.wordSize o = some N) :
    N = 8 * (N / 8) ∧ 8 ≤ N := by
  have hw := s.wordSize_cases
  cases o with
  | pool a => simp [naturalWidth] at h; omega
  | reg r => cases r <;> simp [naturalWidth, regWidth] at h <;> omega
  | lit v => cases v <;> simp [naturalWidth, litWidth] at h <;> omega
  | flag f => simp [naturalWidth] at h; omega
  | wlb => simp [naturalWidth] at h; omega
  | mem m => simp [naturalWidth] at h
  | simd g => simp [naturalWidth] at h; omega

/-! ### Reading back -/

theorem State.readPool_writePool (s : State) (a : Byte) (bs : List Byte) (hn : bs.length ≤ 256) :
    (s.writePool a bs).readPool a bs.length = bs := Pool.readBytes_writeBytes s.pool a bs hn

theorem State.readBytes_writeBytes (s : State) (a : Word) (bs : List Byte) (hn : bs.length ≤ 65536) :
    (s.writeBytes a bs).readBytes a bs.length = bs := Memory.readBytes_writeBytes s.mem a bs hn

/-- A 16-bit value written to two pool bytes reads back (R15). -/
theorem State.readPoolWord_writePool (s : State) (a : Byte) (v : Word) :
    (s.writePool a (toBytes 2 v)).readPoolWord a = v := by
  have h := s.readPool_writePool a (toBytes 2 v) (by simp)
  rw [length_toBytes] at h
  rw [State.readPoolWord, h, ofBytes_toBytes_of_eq (by decide)]

/-- A memory byte after a store of bytes: the stored byte inside the range, what was there outside it (R42, R43, R46). -/
theorem State.readByte_writeBytes (s : State) (a : Word) (bs : List Byte) (hn : bs.length ≤ 65536) (x : Word) :
    (s.writeBytes a bs).readByte x = (bs[(x - a).toNat]?).getD (s.readByte x) :=
  Memory.read_writeBytes s.mem a x bs hn

/-- A pool byte after a store of bytes (R44). -/
theorem State.poolByte_writePool (s : State) (a : Byte) (bs : List Byte) (hn : bs.length ≤ 256) (x : Byte) :
    (s.writePool a bs).poolByte x = (bs[(x - a).toNat]?).getD (s.poolByte x) :=
  Pool.byte_writeBytes s.pool a x bs hn

@[simp] theorem State.length_readPool (s : State) (a : Byte) (n : Nat) : (s.readPool a n).length = n := by
  simp [State.readPool]

@[simp] theorem State.length_readBytes (s : State) (a : Word) (n : Nat) : (s.readBytes a n).length = n := by
  simp [State.readBytes]

theorem State.getElem?_readPool (s : State) (a : Byte) {n i : Nat} (h : i < n) :
    (s.readPool a n)[i]? = some (s.poolByte (a + BitVec.ofNat 8 i)) := by
  simp [State.readPool, Pool.readBytes, h, State.poolByte]

theorem State.getElem?_readBytes (s : State) (a : Word) {n i : Nat} (h : i < n) :
    (s.readBytes a n)[i]? = some (s.readByte (a + BitVec.ofNat 16 i)) := by
  simp [State.readBytes, Memory.readBytes, h, State.readByte]

/-- Byte `i` of a range stands `i` bytes after its first. -/
theorem add_ofNat_sub_toNat {w : Nat} (a : BitVec w) {i : Nat} (h : i < 2 ^ w) :
    (a + BitVec.ofNat w i - a).toNat = i := by
  rw [BitVec.add_comm, BitVec.add_sub_cancel, BitVec.toNat_ofNat, Nat.mod_eq_of_lt h]

/-- Two bytes as a 16-bit value, most significant first (R41). -/
theorem ofBytes_two (x y : Byte) : ofBytes 16 [x, y] = x ++ y := by
  apply BitVec.eq_of_toNat_eq
  have hx := x.isLt; have hy := y.isLt
  simp only [ofBytes, beNat, List.foldl, BitVec.toNat_ofNat, BitVec.toNat_append]
  rw [← Nat.shiftLeft_add_eq_or_of_lt hy, Nat.shiftLeft_eq]; omega

/-- The two bytes of a 16-bit value, most significant first (R41). -/
theorem toBytes_two (v : Word) : toBytes 2 v = [v.extractLsb' 8 8, v.extractLsb' 0 8] := by
  simp only [toBytes, List.range_succ, List.range_zero, List.nil_append, List.map_cons, List.map_nil,
    List.cons_append]
  congr 1

theorem State.readPool_two (s : State) (a : Byte) : s.readPool a 2 = [s.poolByte a, s.poolByte (a + 1#8)] := by
  simp [State.readPool, Pool.readBytes, List.range_succ, State.poolByte]

theorem State.readBytes_two (s : State) (a : Word) : s.readBytes a 2 = [s.readByte a, s.readByte (a + 1#16)] := by
  have h : a + 0#16 = a := BitVec.add_zero a
  simp only [State.readBytes, Memory.readBytes, List.range_succ, List.range_zero, List.nil_append,
    List.map_cons, List.map_nil, List.cons_append, State.readByte, h]

/-! ### `WriteOp` -/

@[simp] theorem State.writeReg_mem (s : State) (r : Reg) (v : Word) : (s.writeReg r v).mem = s.mem := by cases r <;> rfl

theorem State.writeReg_flg (s : State) (r : Reg) (v : Word) (h : r ≠ .flg) : (s.writeReg r v).flg = s.flg := by
  cases r <;> first | rfl | exact absurd rfl h

theorem State.writeReg_perr (s : State) (r : Reg) (v : Word) (h : r ≠ .flg) : (s.writeReg r v).perr = s.perr := by
  cases r <;> first | rfl | exact absurd rfl h

theorem State.writeReg_ip (s : State) (r : Reg) (v : Word) (h : r ≠ .ip) : (s.writeReg r v).ip = s.ip := by
  cases r <;> first | rfl | exact absurd rfl h

theorem State.writeReg_host (s : State) (r : Reg) (v : Word) : KeepsHost s (s.writeReg r v) := by
  cases r <;> constructor <;> rfl

/-- A write of a register other than `flg` changes that register alone (R115). -/
theorem State.writeReg_keeps (s : State) (r : Reg) (v : Word) (h : r ≠ .flg) :
    KeepsData s (s.writeReg r v) [.reg r] [] [] := by
  cases r with
  | wi k => exact State.writePool_keeps s _ _ _ (by simp) (by simp [covers])
  | pi k => exact State.writePool_keeps s _ _ _ (by simp) (by simp [covers])
  | flg => exact absurd rfl h
  | ip => exact State.jump_keeps s v _ _ _
  | ar k =>
    constructor <;> intros <;> try rfl
    rename_i j hj
    have : k.val ≠ j.val := fun e => hj (by simp [Fin.ext e])
    simp [State.writeReg, State.readReg, this]
  | _ => constructor <;> intros <;> first | rfl | simp_all

theorem State.readReg_writeReg (s : State) (r : Reg) (v : Word) (h : r ≠ .flg) :
    (s.writeReg r v).readReg r = (v.setWidth (regWidth r)).setWidth 16 := by
  cases r with
  | wi k => simpa [regWidth, State.writeReg, State.readReg] using State.readPoolWord_writePool s (wiBase k) v
  | pi k => simpa [regWidth, State.writeReg, State.readReg] using State.readPoolWord_writePool s (piBase k) v
  | flg => exact absurd rfl h
  | ar k => simp [State.writeReg, State.readReg, regWidth]
  | _ => simp [State.writeReg, State.readReg, regWidth]

/-- A value stored in a scalar destination reads back at its width (R114, R115). -/
theorem State.readOp_writeOp (s : State) {d : Operand} {N : Nat} (v : BitVec N) (h : isScalarDest d)
    (hN : naturalWidth s.wordSize d = some N) : (s.writeOp d v).readOp d N = v := by
  obtain ⟨a, rfl⟩ | ⟨r, rfl, hr⟩ := h.cases
  · have hb := naturalWidth_bytes hN
    have hW : s.wordSize = N := by simpa [naturalWidth] using hN
    have hw := s.wordSize_cases
    have hl := s.readPool_writePool a (toBytes (s.wordSize / 8) v) (by simp; omega)
    rw [length_toBytes] at hl
    simp only [State.writeOp, State.readOp, State.writePool_wordSize]
    rw [hl, ofBytes_toBytes_of_eq (by omega)]
  · simp only [State.writeOp, State.readOp, State.readReg_writeReg _ _ _ hr]
    cases r <;> simp only [naturalWidth, regWidth, Option.some.injEq] at hN <;> subst hN <;> simp [regWidth]

/-- What a write of a scalar destination leaves unchanged (R115). -/
theorem State.writeOp_keeps (s : State) {d : Operand} {N : Nat} (v : BitVec N) (h : isScalarDest d) :
    KeepsData s (s.writeOp d v) [d] [] [] := by
  obtain ⟨a, rfl⟩ | ⟨r, rfl, hr⟩ := h.cases
  · have hw := s.wordSize_cases
    exact State.writePool_keeps s _ _ _ (by simp; omega) (by simp [covers])
  · exact State.writeReg_keeps s r _ hr

theorem State.writeOp_host (s : State) {d : Operand} {N : Nat} (v : BitVec N) : KeepsHost s (s.writeOp d v) := by
  cases d with
  | pool a => exact State.writePool_host s a _
  | reg r => exact State.writeReg_host s r _
  | lit l => exact KeepsHost.refl s
  | flag f => exact (State.setFlag_host s f _).trans (State.raiseIf_host _ _ _)
  | wlb => exact State.setWlb_host s _
  | mem m => exact State.writeBytes_host s _ _
  | simd g => exact State.writePool_host s _ _

theorem State.writeOp_flg (s : State) {d : Operand} {N : Nat} (v : BitVec N) (h : isScalarDest d) :
    (s.writeOp d v).flg = s.flg := by
  obtain ⟨a, rfl⟩ | ⟨r, rfl, hr⟩ := h.cases
  · rfl
  · exact State.writeReg_flg s r _ hr

theorem State.writeOp_flag (s : State) {d : Operand} {N : Nat} (v : BitVec N) (h : isScalarDest d) (f : Flag) :
    (s.writeOp d v).flag f = s.flag f := by
  simp only [State.flag, State.flgRead, State.writeOp_flg s v h]

theorem State.writeOp_wordSize (s : State) {d : Operand} {N : Nat} (v : BitVec N) (h : isScalarDest d) :
    (s.writeOp d v).wordSize = s.wordSize := by
  simp only [State.wordSize, State.wlb, State.flgRead, State.writeOp_flg s v h]

theorem State.writeOp_perr (s : State) {d : Operand} {N : Nat} (v : BitVec N) (h : isScalarDest d) :
    (s.writeOp d v).perr = s.perr := by
  obtain ⟨a, rfl⟩ | ⟨r, rfl, hr⟩ := h.cases
  · rfl
  · exact State.writeReg_perr s r _ hr

theorem State.writeOp_ip (s : State) {d : Operand} {N : Nat} (v : BitVec N) (h : isScalarDest d) (hd : d ≠ .reg .ip) :
    (s.writeOp d v).ip = s.ip := by
  obtain ⟨a, rfl⟩ | ⟨r, rfl, hr⟩ := h.cases
  · rfl
  · exact State.writeReg_ip s r _ fun e => hd (by rw [e])

/-! ### The end of an instruction -/

@[simp] theorem State.finish_flag (s : State) (d : Operand) (n : Nat) (f : Flag) : (s.finish d n).flag f = s.flag f := by
  unfold State.finish; split <;> rfl
@[simp] theorem State.finish_flg (s : State) (d : Operand) (n : Nat) : (s.finish d n).flg = s.flg := by
  unfold State.finish; split <;> rfl
@[simp] theorem State.finish_mem (s : State) (d : Operand) (n : Nat) : (s.finish d n).mem = s.mem := by
  unfold State.finish; split <;> rfl
@[simp] theorem State.finish_perr (s : State) (d : Operand) (n : Nat) : (s.finish d n).perr = s.perr := by
  unfold State.finish; split <;> rfl
@[simp] theorem State.finish_wordSize (s : State) (d : Operand) (n : Nat) : (s.finish d n).wordSize = s.wordSize := by
  unfold State.finish; split <;> rfl

theorem State.finish_ip (s : State) (d : Operand) (n : Nat) (h : d ≠ .reg .ip) :
    (s.finish d n).ip = s.ip + BitVec.ofNat 16 n := by simp [State.finish, h]

theorem State.finish_keeps (s : State) (d : Operand) (n : Nat) (ds : List Operand) (fs : List Flag) (ms
    : List MemRange) :
    KeepsData s (s.finish d n) ds fs ms := by
  unfold State.finish; split
  · exact KeepsData.refl s ds fs ms
  · exact State.advance_keeps s n ds fs ms

theorem State.finish_host (s : State) (d : Operand) (n : Nat) : KeepsHost s (s.finish d n) := by
  unfold State.finish; split
  · exact KeepsHost.refl s
  · exact State.advance_host s n

/-- An operand other than `ip` reads the same after `ip` has advanced. -/
theorem State.readOp_advance (s : State) {d : Operand} (n N : Nat) (h : d ≠ .reg .ip) :
    (s.advance n).readOp d N = s.readOp d N := by
  cases d with
  | reg r => cases r <;> first | rfl | exact absurd rfl h
  | mem m => cases m with
    | reg r => cases r <;> rfl
    | off r o => cases r <;> rfl
    | abs a => rfl
  | _ => rfl

/-- The destination reads the same after the end of its instruction. -/
theorem State.readOp_finish (s : State) (d : Operand) (n N : Nat) : (s.finish d n).readOp d N = s.readOp d N := by
  unfold State.finish
  split
  · rfl
  · rename_i h
    exact State.readOp_advance s n N h

/-- So does any other operand but `ip`. -/
theorem State.readOp_finish_other (s : State) (d : Operand) {e : Operand} (n N : Nat) (h : e ≠ .reg .ip) :
    (s.finish d n).readOp e N = s.readOp e N := by
  unfold State.finish
  split
  · rfl
  · exact State.readOp_advance s n N h

/-- An operand other than `flg` or a flag reads the same after an error. -/
theorem State.readOp_raiseIf (s : State) (c : Bool) (code : Byte) {d : Operand} (N : Nat) (h : isScalarDest d) :
    (s.raiseIf c code).readOp d N = s.readOp d N := by
  obtain ⟨a, rfl⟩ | ⟨r, rfl, hr⟩ := h.cases
  · simp [State.readOp]
  · cases r <;> first | rfl | exact absurd rfl hr

end Sys2Proof.Machine
end

