-- ==== Sys2Proof/Laws/Alu.lean ====
section
/-! SUPPORT. What the shared ends of the arithmetic and logic instructions do: flags, a stored result, the SIMD error, and
which case of an instruction its operands select (spec/40_operands_simd.md R121 to R128, spec/42_arith_logic.md). -/

namespace Sys2Proof.Machine

/-! ### Flags of a result -/

theorem State.setZeroSign_flag (s : State) (zf agree sf : Bool) (f : Flag) :
    (s.setZeroSign zf agree sf).flag f =
      if f = .ZF then zf else if f = .SF then (if agree then sf else s.flag .SF) else s.flag f := by
  cases agree <;> cases f <;> simp [State.setZeroSign, State.setFlag_flag]

theorem State.setArithFlags_flag {N : Nat} (s : State) (r : ArithResult N) (agree : Bool) (f : Flag) :
    (s.setArithFlags r agree).flag f =
      if f = .ZF then r.zf else if f = .SF then (if agree then r.sf else s.flag .SF) else if f = .OF then r.of
      else if f = .NOF then r.nof else s.flag f := by
  cases f <;> simp [State.setArithFlags, State.setFlag_flag, State.setZeroSign_flag]

@[simp] theorem State.setZeroSign_wordSize (s : State) (zf agree sf : Bool) :
    (s.setZeroSign zf agree sf).wordSize = s.wordSize := by
  cases agree <;> simp [State.setZeroSign]

@[simp] theorem State.setArithFlags_wordSize {N : Nat} (s : State) (r : ArithResult N) (agree : Bool) :
    (s.setArithFlags r agree).wordSize = s.wordSize := by simp [State.setArithFlags]

@[simp] theorem State.setZeroSign_ip (s : State) (zf agree sf : Bool) : (s.setZeroSign zf agree sf).ip = s.ip := by
  cases agree <;> rfl
@[simp] theorem State.setZeroSign_perr (s : State) (zf agree sf : Bool) : (s.setZeroSign zf agree sf).perr = s.perr := by
  cases agree <;> rfl
@[simp] theorem State.setZeroSign_mem (s : State) (zf agree sf : Bool) : (s.setZeroSign zf agree sf).mem = s.mem := by
  cases agree <;> rfl
@[simp] theorem State.setArithFlags_ip {N : Nat} (s : State) (r : ArithResult N) (agree : Bool) :
    (s.setArithFlags r agree).ip = s.ip := by simp [State.setArithFlags]
@[simp] theorem State.setArithFlags_perr {N : Nat} (s : State) (r : ArithResult N) (agree : Bool) :
    (s.setArithFlags r agree).perr = s.perr := by simp [State.setArithFlags]
@[simp] theorem State.setArithFlags_mem {N : Nat} (s : State) (r : ArithResult N) (agree : Bool) :
    (s.setArithFlags r agree).mem = s.mem := by simp [State.setArithFlags]

theorem State.setZeroSign_keeps (s : State) (zf agree sf : Bool) :
    KeepsData s (s.setZeroSign zf agree sf) [] [.ZF, .SF] [] := by
  cases agree
  · exact (State.setFlag_keeps s .ZF zf).mono
  · exact KeepsData.trans (State.setFlag_keeps s .ZF zf).mono (State.setFlag_keeps _ .SF sf).mono (by simp)

theorem State.setZeroSign_host (s : State) (zf agree sf : Bool) : KeepsHost s (s.setZeroSign zf agree sf) := by
  cases agree
  · exact State.setFlag_host s .ZF zf
  · exact (State.setFlag_host s .ZF zf).trans (State.setFlag_host _ .SF sf)

theorem State.setArithFlags_keeps {N : Nat} (s : State) (r : ArithResult N) (agree : Bool) :
    KeepsData s (s.setArithFlags r agree) [] [.ZF, .SF, .OF, .NOF] [] :=
  KeepsData.trans
    (KeepsData.trans (State.setZeroSign_keeps s r.zf agree r.sf).mono (State.setFlag_keeps _ .OF r.of).mono (by simp))
    (State.setFlag_keeps _ .NOF r.nof).mono (by simp)

theorem State.setArithFlags_host {N : Nat} (s : State) (r : ArithResult N) (agree : Bool) :
    KeepsHost s (s.setArithFlags r agree) :=
  ((State.setZeroSign_host s r.zf agree r.sf).trans (State.setFlag_host _ .OF r.of)).trans
    (State.setFlag_host _ .NOF r.nof)

/-! ### Errors -/

/-- An error's effect on EF and the pending error (R226). -/
theorem State.raiseIf_raises (s : State) (c : Bool) (code : Byte) : Raises s (s.raiseIf c code) c code := by
  constructor
  · cases c <;> simp [State.raiseIf_flag]
  · simp

/-- `Raises` from a state with the same EF, RF and pending error. -/
theorem Raises.of_eq {s t u : State} {c : Bool} {code : Byte} (h : Raises t u c code) (hef : t.flag .EF = s.flag .EF)
    (hrf : t.flag .RF = s.flag .RF) (hp : t.perr = s.perr) : Raises s u c code := by
  obtain ⟨h1, h2⟩ := h
  exact ⟨by rw [h1, hef], by rw [h2, hrf, hp]⟩

/-- The SIMD error does what R128 says and nothing else. -/
theorem State.simdError_raised (s : State) (len : Nat) : SimdErrorRaised s (s.simdError len) len where
  sef := by simp [State.simdError, State.raise, State.raiseIf_flag, State.setFlag_flag]
  error := by
    have h : Raises (s.setFlag .SEF true) (s.simdError len) true 0x02#8 :=
      State.raiseIf_raises (s.setFlag .SEF true) true 0x02#8
    exact h.of_eq (by simp [State.setFlag_flag]) (by simp [State.setFlag_flag]) rfl
  ip := rfl
  data := KeepsData.trans
    (KeepsData.trans (State.setFlag_keeps s .SEF true).mono (State.raiseIf_keeps _ true simdErrorCode).mono (by simp))
    (State.advance_keeps _ len _ _ _) (by simp)
  host := ((State.setFlag_host s .SEF true).trans (State.raiseIf_host _ true simdErrorCode)).trans
    (State.advance_host _ len)

/-! ### A stored result -/

/-- Everything that storing an arithmetic result in a scalar destination does (R154, R155). -/
theorem State.storeArith_spec {N : Nat} (s : State) {d : Operand} (len : Nat) (agree : Bool) (r : ArithResult N)
    (hd : isScalarDest d) (hN : naturalWidth s.wordSize d = some N) :
    (s.storeArith d len agree r).readOp d N = r.value ∧ Advances s (s.storeArith d len agree r) d len ∧
    (s.storeArith d len agree r).flag .ZF = r.zf ∧
    (s.storeArith d len agree r).flag .SF = (if agree then r.sf else s.flag .SF) ∧
    (s.storeArith d len agree r).flag .OF = r.of ∧ (s.storeArith d len agree r).flag .NOF = r.nof ∧
    Raises s (s.storeArith d len agree r) r.nof 0x05#8 ∧
    KeepsData s (s.storeArith d len agree r) [d] [.ZF, .SF, .OF, .NOF, .EF] [] ∧
    KeepsHost s (s.storeArith d len agree r) := by
  have hw : (s.setArithFlags r agree).wordSize = s.wordSize := by simp
  have hN' : naturalWidth (s.setArithFlags r agree).wordSize d = some N := by rw [hw]; exact hN
  refine ⟨?_, ?_, ?_, ?_, ?_, ?_, ?_, ?_, ?_⟩
  · rw [State.storeArith, State.readOp_raiseIf _ _ _ _ hd, State.readOp_finish, State.readOp_writeOp _ _ hd hN']
  · intro h
    simp only [State.storeArith, State.raiseIf_ip]
    rw [State.finish_ip _ _ _ h, State.writeOp_ip _ _ hd h, State.setArithFlags_ip]
  · simp [State.storeArith, State.raiseIf_flag, State.writeOp_flag _ _ hd, State.setArithFlags_flag]
  · simp [State.storeArith, State.raiseIf_flag, State.writeOp_flag _ _ hd, State.setArithFlags_flag]
  · simp [State.storeArith, State.raiseIf_flag, State.writeOp_flag _ _ hd, State.setArithFlags_flag]
  · simp [State.storeArith, State.raiseIf_flag, State.writeOp_flag _ _ hd, State.setArithFlags_flag]
  · refine (State.raiseIf_raises (((s.setArithFlags r agree).writeOp d r.value).finish d len) r.nof
      signBitOverflowCode).of_eq ?_ ?_ ?_
    · simp [State.writeOp_flag _ _ hd, State.setArithFlags_flag]
    · simp [State.writeOp_flag _ _ hd, State.setArithFlags_flag]
    · simp [State.writeOp_perr _ _ hd]
  · refine KeepsData.trans (KeepsData.trans (KeepsData.trans (State.setArithFlags_keeps s r agree).mono
      (State.writeOp_keeps _ r.value hd).mono hw) (State.finish_keeps _ d len _ _ _) ?_)
      (State.raiseIf_keeps _ r.nof signBitOverflowCode).mono ?_
    · simp [State.writeOp_wordSize _ _ hd]
    · simp [State.writeOp_wordSize _ _ hd]
  · exact ((State.setArithFlags_host s r agree).trans (State.writeOp_host _ r.value)).trans
      (State.finish_host _ d len) |>.trans (State.raiseIf_host _ r.nof signBitOverflowCode)

/-- Everything that an arithmetic result without a destination does: `cmp` (R174). -/
theorem State.flagsOfArith_spec {N : Nat} (s : State) (len : Nat) (agree : Bool) (r : ArithResult N) :
    let t := ((s.setArithFlags r agree).advance len).raiseIf r.nof signBitOverflowCode
    t.ip = s.ip + BitVec.ofNat 16 len ∧ t.flag .ZF = r.zf ∧
    t.flag .SF = (if agree then r.sf else s.flag .SF) ∧ t.flag .OF = r.of ∧ t.flag .NOF = r.nof ∧
    Raises s t r.nof 0x05#8 ∧ KeepsData s t [] [.ZF, .SF, .OF, .NOF, .EF] [] ∧ KeepsHost s t := by
  refine ⟨by simp, by simp [State.raiseIf_flag, State.setArithFlags_flag],
    by simp [State.raiseIf_flag, State.setArithFlags_flag], by simp [State.raiseIf_flag, State.setArithFlags_flag],
    by simp [State.raiseIf_flag, State.setArithFlags_flag], ?_, ?_, ?_⟩
  · refine (State.raiseIf_raises ((s.setArithFlags r agree).advance len) r.nof signBitOverflowCode).of_eq ?_ ?_ ?_ <;>
      simp [State.setArithFlags_flag]
  · exact KeepsData.trans (KeepsData.trans (State.setArithFlags_keeps s r agree).mono
      (State.advance_keeps _ len _ _ _) (by simp)) (State.raiseIf_keeps _ r.nof signBitOverflowCode).mono (by simp)
  · exact ((State.setArithFlags_host s r agree).trans (State.advance_host _ len)).trans
      (State.raiseIf_host _ r.nof signBitOverflowCode)

/-- An addition or subtraction with free flags, from what the shared ends do with a result's flags. -/
theorem OpenArith.of_spec {s t : State} {ds : List Operand} {agree sf nof : Bool}
    (hs : t.flag .SF = if agree then sf else s.flag .SF) (hn : t.flag .NOF = nof) (he : Raises s t nof 0x05#8)
    (hd : KeepsData s t ds [.ZF, .SF, .OF, .NOF, .EF] []) (hh : KeepsHost s t) : OpenArith s t ds agree :=
  ⟨fun h => by rw [hs, h]; rfl, hn ▸ he, hd, hh⟩

/-- A stored addition or subtraction from what `storeArith` does and what its result is. -/
theorem StoredArith.of_spec {N : Nat} {s t : State} {d : Operand} {len : Nat} {agree : Bool} {r : ArithResult N}
    {c v : Bool} {x : BitVec N}
    (h : t.readOp d N = r.value ∧ Advances s t d len ∧ t.flag .ZF = r.zf ∧
      t.flag .SF = (if agree then r.sf else s.flag .SF) ∧ t.flag .OF = r.of ∧ t.flag .NOF = r.nof ∧
      Raises s t r.nof 0x05#8 ∧ KeepsData s t [d] [.ZF, .SF, .OF, .NOF, .EF] [] ∧ KeepsHost s t)
    (hv : r.value = x) (hz : r.zf = decide (x = 0#N)) (hs : r.sf = x.getLsbD (N - 1)) (hc : r.of = c)
    (hn : r.nof = v) : StoredArith s t d len agree x c v := by
  obtain ⟨h1, h2, h3, h4, h5, h6, h7, h8, h9⟩ := h
  subst hv hc hn
  exact ⟨h1, h2, by rw [h3, hz], by rw [h4, hs], h5, h6, h7, h8, h9⟩

/-- Everything that storing the result of a logic instruction in a scalar destination does (R169). -/
theorem State.storeLogic_spec {N : Nat} (s : State) {d : Operand} (len : Nat) (agree : Bool) (r : BitVec N)
    (hd : isScalarDest d) (hN : naturalWidth s.wordSize d = some N) :
    StoredLogic s (s.storeLogic d len agree r) d len agree r where
  value := by
    rw [State.storeLogic, State.readOp_finish, State.readOp_writeOp _ _ hd (by simpa using hN)]
  ip := by
    intro h
    rw [State.storeLogic, State.finish_ip _ _ _ h, State.writeOp_ip _ _ hd h, State.setZeroSign_ip]
  zf := by
    simp [State.storeLogic, State.writeOp_flag _ _ hd, State.setZeroSign_flag]
    rfl
  sf := by
    simp [State.storeLogic, State.writeOp_flag _ _ hd, State.setZeroSign_flag, BitVec.msb_eq_getLsbD_last]
  perr := by simp [State.storeLogic, State.writeOp_perr _ _ hd]
  data := KeepsData.trans (KeepsData.trans (State.setZeroSign_keeps s _ agree _).mono
    (State.writeOp_keeps _ r hd).mono (by simp)) (State.finish_keeps _ d len _ _ _)
    (by simp [State.writeOp_wordSize _ _ hd])
  host := ((State.setZeroSign_host s _ agree _).trans (State.writeOp_host _ r)).trans (State.finish_host _ d len)

/-! ### The case of a two-operand instruction -/

theorem ScalarOperands.dest {s : State} {d src : Operand} (h : ScalarOperands s d src) : isScalarDest d :=
  ⟨h.valid, h.destScalar, h.notFlags⟩

theorem ScalarOperands.width {s : State} {d src : Operand} (h : ScalarOperands s d src) :
    naturalWidth s.wordSize d = some (s.widthBeside d src) := h.dest.width s src

/-- On scalar operands a two-operand instruction is its scalar operation (R121). -/
theorem aluCases_scalar {s : State} {d src : Operand} (h : ScalarOperands s d src) (len : Nat) (lanes : Group → State)
    (scalar : State) : aluCases d src len s lanes scalar = .next scalar := by
  have h1 := h.sourceScalar
  have h2 := h.notFlags
  have h3 := h.destFits
  have h4 := h.sourceFits
  obtain ⟨a, rfl⟩ | ⟨r, rfl, -⟩ := h.dest.cases <;> simp [aluCases, badDest, h1, h2, h3, h4]

/-- With a SIMD destination it is its lane operation (R122 to R124). -/
theorem aluCases_simd {s : State} {g : Group} {src : Operand} (h : s.operandFits src = true) (len : Nat)
    (lanes : Group → State) (scalar : State) :
    aluCases (.simd g) src len s lanes scalar = .next ((lanes g).advance len) := by
  simp [aluCases, badDest, h]

/-- With a SIMD source opposite any other valid destination it is the SIMD error (R128). -/
theorem aluCases_simdError {s : State} {d : Operand} {g : Group} (hv : badDest d = none) (hd : isSimd d = false)
    (len : Nat) (lanes : Group → State) (scalar : State) :
    aluCases d (.simd g) len s lanes scalar = .next (s.simdError len) := by
  cases d <;> simp_all [aluCases, isSimd]

/-- A flag as destination is refused (U7). -/
theorem aluCases_flag {s : State} {d src : Operand} (hd : isFlagOperand d = true) (hs : isSimd src = false)
    (len : Nat) (lanes : Group → State) (scalar : State) :
    aluCases d src len s lanes scalar = .refused .flagDestination := by
  cases d <;> simp_all [aluCases, isFlagOperand, badDest]

/-- A form whose pool operand runs past the pool is refused (U5), but for the SIMD error of a SIMD source (R233). -/
theorem aluCases_overrun {s : State} {d src : Operand} (hv : badDest d = none)
    (hf : isFlagOperand d = false) (hs : isSimd src = false) (h : (s.operandFits d && s.operandFits src) = false)
    (len : Nat) (lanes : Group → State) (scalar : State) :
    aluCases d src len s lanes scalar = .refused .poolOverrun := by
  cases d <;> simp_all [aluCases, State.operandFits]

/-- How a two-operand instruction can end in a next state. -/
theorem aluCases_next {s t : State} {d src : Operand} {len : Nat} {lanes : Group → State} {scalar : State}
    (h : aluCases d src len s lanes scalar = .next t) :
    t = s.invalidInstruction ∨ (∃ g, d = .simd g ∧ t = (lanes g).advance len) ∨ t = s.simdError len ∨
      (isScalarDest d ∧ t = scalar) := by
  unfold aluCases at h
  split at h
  · left; simpa using h.symm
  · rename_i hv
    split at h
    · rename_i g
      split at h
      · exact .inr (.inl ⟨g, rfl, by simpa using h.symm⟩)
      · cases h
    · rename_i hd
      split at h
      · exact .inr (.inr (.inl (by simpa using h.symm)))
      · split at h
        · cases h
        · rename_i hf
          split at h
          · refine .inr (.inr (.inr ⟨⟨by simpa using hv, ?_, by simpa using hf⟩, by simpa using h.symm⟩))
            cases d <;> first | rfl | exact absurd rfl (hd _)
          · cases h

end Sys2Proof.Machine
end

