-- ==== Sys2Proof/Laws/Arith.lean ====
section
/-! SUPPORT. The arithmetic results as facts about integers: overflow, products, floor division
(spec/42_arith_logic.md R153 to R175). -/

namespace Sys2Proof.Machine

/-- NOF of an addition is that the signed sum is not the stored one (R154). -/
theorem addOverflow_eq {N : Nat} (a b : BitVec N) :
    addOverflow a b (a + b) = decide ((a + b).toInt ≠ a.toInt + b.toInt) := by
  have h : addOverflow a b (a + b) = a.saddOverflow b := by
    rw [BitVec.saddOverflow_eq, addOverflow]; cases a.msb <;> cases b.msb <;> cases (a + b).msb <;> rfl
  rw [h]
  by_cases ho : a.saddOverflow b = true
  · rw [ho, eq_comm, decide_eq_true_iff]
    intro he
    have h1 := (a + b).toInt_lt
    have h2 := (a + b).le_toInt
    simp only [BitVec.saddOverflow, Bool.or_eq_true, decide_eq_true_iff] at ho
    omega
  · have := BitVec.toInt_add_of_not_saddOverflow ho
    simp [Bool.eq_false_iff.mpr ho, this]

/-- NOF of a subtraction is that the signed difference is not the stored one (R155). -/
theorem subOverflow_eq {N : Nat} (a b : BitVec N) :
    subOverflow a b (a - b) = decide ((a - b).toInt ≠ a.toInt - b.toInt) := by
  have h : subOverflow a b (a - b) = a.ssubOverflow b := by
    rw [BitVec.ssubOverflow_eq, subOverflow]; cases a.msb <;> cases b.msb <;> cases (a - b).msb <;> rfl
  rw [h]
  by_cases ho : a.ssubOverflow b = true
  · rw [ho, eq_comm, decide_eq_true_iff]
    intro he
    have h1 := (a - b).toInt_lt
    have h2 := (a - b).le_toInt
    simp only [BitVec.ssubOverflow, Bool.or_eq_true, decide_eq_true_iff] at ho
    omega
  · have := BitVec.toInt_sub_of_not_ssubOverflow ho
    simp [Bool.eq_false_iff.mpr ho, this]

/-- The sum modulo `2^N` (R153). -/
theorem add_eq_ofNat {N : Nat} (a b : BitVec N) : a + b = BitVec.ofNat N (a.toNat + b.toNat) := by
  apply BitVec.eq_of_toNat_eq; simp

/-- The difference modulo `2^N` (R153). -/
theorem sub_eq_ofInt {N : Nat} (a b : BitVec N) : a - b = BitVec.ofInt N ((a.toNat : Int) - b.toNat) := by
  apply BitVec.eq_of_toInt_eq
  rw [BitVec.toInt_sub, BitVec.toInt_ofInt, BitVec.toInt_eq_toNat_bmod, BitVec.toInt_eq_toNat_bmod, ← Int.sub_bmod]

/-- The exact signed product fits in `2 N` bits (R156). -/
theorem signedProduct_bounds {N : Nat} (hN : 0 < N) (a b : BitVec N) :
    -2 ^ (2 * N - 1) ≤ signedProduct a b ∧ signedProduct a b < 2 ^ (2 * N - 1) := by
  have ha1 := a.le_toInt; have ha2 := a.toInt_lt
  have hb1 := b.le_toInt; have hb2 := b.toInt_lt
  have hP : (2 : Int) ^ (2 * N - 1) = 2 * (2 ^ (N - 1) * 2 ^ (N - 1)) := by
    rw [← Int.pow_add, show 2 * N - 1 = (N - 1 + (N - 1)) + 1 by omega, Int.pow_succ, Int.mul_comm]
  have hpos : (0 : Int) < 2 ^ (N - 1) := Int.pow_pos (by decide)
  rw [hP]
  unfold signedProduct
  generalize (2 : Int) ^ (N - 1) = P at *
  generalize a.toInt = x at *
  generalize b.toInt = y at *
  have hPP : 0 < P * P := Int.mul_pos hpos hpos
  have habs : (x * y).natAbs ≤ (P * P).natAbs := by
    rw [Int.natAbs_mul, Int.natAbs_mul]
    exact Nat.mul_le_mul (by omega) (by omega)
  generalize x * y = z at *
  omega

/-- The two stored halves are the `2 N`-bit product (R156). -/
theorem product_append {N : Nat} (a b : BitVec N) :
    productHigh a b ++ productLow a b = BitVec.ofInt (N + N) (signedProduct a b) := by
  generalize hp : signedProduct a b = p
  apply BitVec.eq_of_toNat_eq
  have h2 : (2 : Int) ^ (2 * N) = 2 ^ N * 2 ^ N := by rw [← Int.pow_add]; congr 1; omega
  have hpos : (0 : Int) < 2 ^ N := Int.pow_pos (by decide)
  have hq0 : 0 ≤ p % (2 ^ N * 2 ^ N) := Int.emod_nonneg _ (by have := Int.mul_pos hpos hpos; omega)
  have hq1 : p % (2 ^ N * 2 ^ N) < 2 ^ N * 2 ^ N := Int.emod_lt_of_pos _ (Int.mul_pos hpos hpos)
  have hlo : p % 2 ^ N = (p % (2 ^ N * 2 ^ N)) % 2 ^ N := (Int.emod_emod_of_dvd p ⟨2 ^ N, rfl⟩).symm
  have hdiv0 : 0 ≤ (p % (2 ^ N * 2 ^ N)) / 2 ^ N := Int.ediv_nonneg hq0 (by omega)
  have hdiv1 : (p % (2 ^ N * 2 ^ N)) / 2 ^ N < 2 ^ N := Int.ediv_lt_of_lt_mul hpos hq1
  simp only [productHigh, productLow, BitVec.toNat_append, BitVec.toNat_ofInt, hp, h2]
  have hc : ((2 ^ N : Nat) : Int) = 2 ^ N := by simp
  have hcc : ((2 ^ (N + N) : Nat) : Int) = 2 ^ N * 2 ^ N := by rw [Nat.pow_add]; simp
  rw [hc, hcc, hlo]
  generalize p % (2 ^ N * 2 ^ N) = Q at *
  have hm0 : 0 ≤ Q % 2 ^ N := Int.emod_nonneg _ (by omega)
  have hm1 : Q % 2 ^ N < 2 ^ N := Int.emod_lt_of_pos _ hpos
  have hlow : (Q % 2 ^ N).toNat < 2 ^ N := by
    have : ((Q % 2 ^ N).toNat : Int) < (2 ^ N : Nat) := by rw [Int.toNat_of_nonneg hm0, hc]; exact hm1
    exact Int.ofNat_lt.mp this
  rw [Int.emod_eq_of_lt hdiv0 hdiv1, ← Nat.shiftLeft_add_eq_or_of_lt hlow, Nat.shiftLeft_eq]
  have hsplit := Int.mul_ediv_add_emod Q (2 ^ N)
  apply Int.ofNat.inj
  show (((Q / 2 ^ N).toNat * 2 ^ N + (Q % 2 ^ N).toNat : Nat) : Int) = (Q.toNat : Int)
  rw [Int.natCast_add, Int.natCast_mul, Int.toNat_of_nonneg hdiv0, Int.toNat_of_nonneg hm0, Int.toNat_of_nonneg hq0, hc,
    Int.mul_comm]
  exact hsplit

/-- Read as one signed number the two halves are the exact product (R156). -/
theorem product_append_toInt {N : Nat} (hN : 0 < N) (a b : BitVec N) :
    (productHigh a b ++ productLow a b).toInt = a.toInt * b.toInt := by
  have h := signedProduct_bounds hN a b
  have hM : ((2 ^ (N + N) : Nat) : Int) = 2 * 2 ^ (2 * N - 1) := by
    rw [show N + N = (2 * N - 1) + 1 by omega, Nat.pow_succ]; simp [Int.mul_comm]
  rw [product_append, BitVec.toInt_ofInt]
  unfold signedProduct at h ⊢
  apply Int.bmod_eq_of_le
  · rw [hM]; omega
  · rw [hM]; omega

/-- The sign rule finds only products that do not fit (R157). -/
theorem mulSignRule_ne {x y z : Int} (h : mulSignRule x y z = true) : x * y ≠ z := by
  rintro rfl
  simp only [mulSignRule, decide_eq_true_iff] at h
  rcases h with ⟨hx, hy, hz⟩ | ⟨hx, hy, hz⟩ | ⟨hx, hy, hz⟩ | ⟨hx, hy, hz⟩
  · have := Int.mul_pos hx hy; omega
  · have := Int.mul_pos_of_neg_of_neg hx hy; omega
  · have := Int.mul_neg_of_neg_of_pos hx hy; omega
  · have := Int.mul_neg_of_pos_of_neg hx hy; omega

/-- The modulo of floor division lies between 0 and the divisor (R162, R175). -/
theorem floor_modulo (a b : Int) (hb : b ≠ 0) :
    (0 ≤ a - b * a.fdiv b ∧ a - b * a.fdiv b < b) ∨ (b < a - b * a.fdiv b ∧ a - b * a.fdiv b ≤ 0) := by
  rw [← Int.fmod_def]
  by_cases h : 0 < b
  · exact .inl ⟨Int.fmod_nonneg_of_pos a h, Int.fmod_lt_of_pos a h⟩
  · have h' : 0 < -b := by omega
    have h1 := Int.fmod_nonneg_of_pos (-a) h'
    have h2 := Int.fmod_lt_of_pos (-a) h'
    rw [Int.neg_fmod_neg] at h1 h2
    exact .inr ⟨by omega, by omega⟩

end Sys2Proof.Machine
end

