-- ==== Sys2Proof/Laws/Decode.lean ====
section
/-! SUPPORT. Decoding and encoding one value, one operand and byte 0 agree; lengths (spec/30_encoding.md R60 to R73). -/

namespace Sys2Proof

/-! ### Values and operands -/

/-- A value's bytes are read back, whatever follows them (R41, R60). -/
theorem takeValue_toBytes (n : Nat) (v : BitVec (8 * n)) (rest : List Byte) :
    takeValue n (toBytes n v ++ rest) = .ok v rest := by
  simp [takeValue, length_toBytes]

theorem length_payload (o : Operand) : o.payload.length = o.payloadSize := by
  cases o with
  | lit l => cases l <;> simp [Operand.payload, Operand.payloadSize]
  | mem m => cases m <;> simp [Operand.payload, Operand.payloadSize]
  | _ => rfl

theorem payloadSize_le (o : Operand) : o.payloadSize ≤ 8 := by
  cases o with
  | lit l => cases l <;> simp [Operand.payloadSize]
  | mem m => cases m <;> simp [Operand.payloadSize]
  | _ => simp [Operand.payloadSize]

/-- The operand ID of each operand names its form (R70). -/
theorem formOf_reg (r : Reg) : formOf r.id = some (.whole (.reg r)) := by
  cases r with
  | wi k => revert k; decide
  | pi k => revert k; decide
  | ar k => revert k; decide
  | _ => decide

theorem formOf_memId (r : AddrReg) : formOf r.memId = some (.whole (.mem (.reg r))) := by
  cases r with
  | wi k => revert k; decide
  | pi k => revert k; decide
  | ar k => revert k; decide
  | _ => decide

theorem formOf_offsetId (r : AddrReg) : formOf r.offsetId = some (.offset r) := by
  cases r with
  | wi k => revert k; decide
  | pi k => revert k; decide
  | ar k => revert k; decide
  | _ => decide

/-- An operand's field, type bit and payload decode to it, whatever follows (R64, R70, R71). -/
theorem decodeOperand_encoded (o : Operand) (rest : List Byte) :
    decodeOperand o.typeBit o.field (o.payload ++ rest) = .ok o rest := by
  cases o with
  | pool a => rfl
  | reg r => simp [decodeOperand, Operand.typeBit, Operand.field, formOf_reg, Form.fill, Operand.payload]
  | flag f => cases f <;> rfl
  | wlb => rfl
  | simd g => cases g <;> rfl
  | lit l =>
    cases l with
    | b8 v =>
      have h := takeValue_toBytes 1 v rest
      have hf : formOf 0x30#8 = some .lit8 := by decide
      simp only [decodeOperand, Operand.typeBit, Operand.field, Operand.payload, hf, if_true, Form.fill]
      rw [h]; rfl
    | b16 v =>
      have h := takeValue_toBytes 2 v rest
      have hf : formOf 0x31#8 = some .lit16 := by decide
      simp only [decodeOperand, Operand.typeBit, Operand.field, Operand.payload, hf, if_true, Form.fill]
      rw [h]; rfl
    | b32 v =>
      have h := takeValue_toBytes 4 v rest
      have hf : formOf 0x33#8 = some .lit32 := by decide
      simp only [decodeOperand, Operand.typeBit, Operand.field, Operand.payload, hf, if_true, Form.fill]
      rw [h]; rfl
    | b64 v =>
      have h := takeValue_toBytes 8 v rest
      have hf : formOf 0x34#8 = some .lit64 := by decide
      simp only [decodeOperand, Operand.typeBit, Operand.field, Operand.payload, hf, if_true, Form.fill]
      rw [h]; rfl
  | mem m =>
    cases m with
    | reg r => simp [decodeOperand, Operand.typeBit, Operand.field, formOf_memId, Form.fill, Operand.payload]
    | off r v =>
      have h := takeValue_toBytes 2 v rest
      simp only [decodeOperand, Operand.typeBit, Operand.field, Operand.payload, formOf_offsetId, if_true, Form.fill]
      rw [h]; rfl
    | abs v =>
      have h := takeValue_toBytes 2 v rest
      have hf : formOf 0x32#8 = some .absolute := by decide
      simp only [decodeOperand, Operand.typeBit, Operand.field, Operand.payload, hf, if_true, Form.fill]
      rw [h]; rfl

/-! ### Byte 0 -/

theorem opcodeOf_byteZero (op : BitVec 5) (t : BitVec 3) : opcodeOf (byteZero op t) = op.toNat := by
  revert op t; decide

theorem typeBitsOf_byteZero (op : BitVec 5) (t : BitVec 3) : typeBitsOf (byteZero op t) = t := by
  revert op t; decide

theorem byteZero_bits (op : BitVec 5) (t1 t2 t3 : Bool) :
    (byteZero op (typeBits t1 t2 t3)).getLsbD 2 = t1 ∧ (byteZero op (typeBits t1 t2 t3)).getLsbD 1 = t2 ∧
      (byteZero op (typeBits t1 t2 t3)).getLsbD 0 = t3 := by
  revert op t1 t2 t3; decide

/-! ### The formats -/

theorem decodeI_encoded (mk : Byte → Instr) (b : Byte) (rest : List Byte) :
    decodeI mk (b :: rest) = .ok (mk b) rest := rfl

theorem decodeA_encoded (mk : Word → Instr) (a : Word) (rest : List Byte) :
    decodeA mk (toBytes 2 a ++ rest) = .ok (mk a) rest := by
  have h := takeValue_toBytes 2 a rest
  rw [decodeA, h]; rfl

theorem decode1_encoded (mk : Operand → Instr) (o1 : Operand) (rest : List Byte) :
    decode1 mk o1.typeBit (o1.field :: (o1.payload ++ rest)) = .ok (mk o1) rest := by
  simp [decode1, takeByte, Decoded.andThen, decodeOperand_encoded]

theorem decode2_encoded (mk : Operand → Operand → Instr) (o1 o2 : Operand) (rest : List Byte) :
    decode2 mk o1.typeBit o2.typeBit (o1.field :: o2.field :: (o1.payload ++ (o2.payload ++ rest))) =
      .ok (mk o1 o2) rest := by
  simp [decode2, takeByte, Decoded.andThen, decodeOperand_encoded]

theorem decode3_encoded (mk : Operand → Operand → Operand → Instr) (o1 o2 o3 : Operand) (rest : List Byte) :
    decode3 mk o1.typeBit o2.typeBit o3.typeBit
      (o1.field :: o2.field :: o3.field :: (o1.payload ++ (o2.payload ++ (o3.payload ++ rest)))) =
      .ok (mk o1 o2 o3) rest := by
  simp [decode3, takeByte, Decoded.andThen, decodeOperand_encoded]

/-! ### What a decoding that succeeds has read -/

/-- What a decoding in two parts that succeeds has decoded. -/
theorem Decoded.andThen_ok {α β : Type} {d : Decoded α} {k : α → List Byte → Decoded β} {b : β} {rest : List Byte}
    (h : d.andThen k = .ok b rest) : ∃ a r, d = .ok a r ∧ k a r = .ok b rest := by
  cases d with
  | ok a r => exact ⟨a, r, rfl, h⟩
  | bad e => cases h

/-- The byte taken is the first. -/
theorem takeByte_ok {bs rest : List Byte} {b : Byte} (h : takeByte bs = .ok b rest) : bs = b :: rest := by
  cases bs with
  | nil => cases h
  | cons x xs => simp only [takeByte] at h; cases h; rfl

/-- A value taken has its bytes at the front, and is followed by the rest (R60). -/
theorem takeValue_ok {n : Nat} {bs rest : List Byte} {v : BitVec (8 * n)} (h : takeValue n bs = .ok v rest) :
    n ≤ bs.length ∧ rest = bs.drop n ∧ toBytes n v = bs.take n := by
  unfold takeValue at h
  split at h
  · cases h
  · rename_i hl
    cases h
    have hn : (bs.take n).length = n := by simp; omega
    refine ⟨by omega, rfl, ?_⟩
    have := toBytes_ofBytes (8 * n) (bs.take n) (by rw [hn])
    rwa [hn] at this

/-- A completed form has no payload or its payload at the front (R71). -/
theorem Form.fill_ok {f : Form} {bs rest : List Byte} {o : Operand} (h : f.fill bs = .ok o rest) :
    (f = .whole o ∧ rest = bs) ∨ (o.payloadSize ≤ bs.length ∧ rest = bs.drop o.payloadSize
    ∧ o.payload = bs.take o.payloadSize) := by
  cases f with
  | whole o' => cases h; exact .inl ⟨rfl, rfl⟩
  | lit8 => obtain ⟨v, r, h1, h2⟩ := Decoded.andThen_ok h; cases h2; exact .inr (takeValue_ok h1)
  | lit16 => obtain ⟨v, r, h1, h2⟩ := Decoded.andThen_ok h; cases h2; exact .inr (takeValue_ok h1)
  | lit32 => obtain ⟨v, r, h1, h2⟩ := Decoded.andThen_ok h; cases h2; exact .inr (takeValue_ok h1)
  | lit64 => obtain ⟨v, r, h1, h2⟩ := Decoded.andThen_ok h; cases h2; exact .inr (takeValue_ok h1)
  | offset r => obtain ⟨v, r, h1, h2⟩ := Decoded.andThen_ok h; cases h2; exact .inr (takeValue_ok h1)
  | absolute => obtain ⟨v, r, h1, h2⟩ := Decoded.andThen_ok h; cases h2; exact .inr (takeValue_ok h1)

/-- An operand ID whose form is complete is the ID of that operand (R70). -/
theorem formOf_whole (f : Byte) (o : Operand) (h : formOf f = some (.whole o)) : o.payloadSize = 0 ∧ o.typeBit = true
    ∧ o.field = f := by
  have : ∀ f : Byte, (match formOf f with | some (.whole o) => decide (o.payloadSize = 0 ∧ o.typeBit = true ∧ o.field = f) | _ => true) = true := by decide
  have := this f
  rw [h] at this
  simpa using this

/-- A decoded operand takes its payload and no more (R71). -/
theorem decodeOperand_ok {t : Bool} {f : Byte} {bs rest : List Byte} {o : Operand} (h
    : decodeOperand t f bs = .ok o rest) :
    o.payloadSize ≤ bs.length ∧ rest = bs.drop o.payloadSize := by
  unfold decodeOperand at h
  split at h
  · split at h
    · rename_i form hf
      rcases Form.fill_ok h with ⟨e, r⟩ | ⟨a, b, c⟩
      · subst e; have := formOf_whole f o hf; simp [this, r]
      · exact ⟨a, b⟩
    · cases h
  · cases h; simp [Operand.payloadSize]

/-- What a decoded instruction of format 1 is, and how many bytes it takes (R66). -/
theorem decode1_ok {mk : Operand → Instr} {t : Bool} {bs rest : List Byte} {i : Instr} (h
    : decode1 mk t bs = .ok i rest) :
    ∃ o, i = mk o ∧ 1 + o.payloadSize ≤ bs.length ∧ rest = bs.drop (1 + o.payloadSize) := by
  obtain ⟨f, r, h1, h⟩ := Decoded.andThen_ok h
  obtain ⟨o, r2, h2, h⟩ := Decoded.andThen_ok h
  cases h
  have := takeByte_ok h1; subst this
  obtain ⟨a, b⟩ := decodeOperand_ok h2
  exact ⟨o, rfl, by simp; omega, by rw [b, Nat.add_comm]; rfl⟩

/-- Format 2 (R66, R73). -/
theorem decode2_ok {mk : Operand → Operand → Instr} {t1 t2 : Bool} {bs rest : List Byte} {i : Instr} (h
    : decode2 mk t1 t2 bs = .ok i rest) :
    ∃ o p, i = mk o p ∧ 2 + o.payloadSize + p.payloadSize ≤ bs.length ∧ rest = bs.drop (2 + o.payloadSize + p.payloadSize) := by
  obtain ⟨f, r, h1, h⟩ := Decoded.andThen_ok h
  obtain ⟨g, r1, h2, h⟩ := Decoded.andThen_ok h
  obtain ⟨o, r2, h3, h⟩ := Decoded.andThen_ok h
  obtain ⟨p, r3, h4, h⟩ := Decoded.andThen_ok h
  cases h
  have := takeByte_ok h1; subst this
  have := takeByte_ok h2; subst this
  obtain ⟨a, b⟩ := decodeOperand_ok h3
  obtain ⟨a2, b2⟩ := decodeOperand_ok h4
  subst b
  rw [List.length_drop] at a2
  refine ⟨o, p, rfl, by simp; omega, ?_⟩
  rw [b2, List.drop_drop, show 2 + o.payloadSize + p.payloadSize = (o.payloadSize + p.payloadSize) + 1 + 1 by omega]; rfl

/-- Format 3 (R66, R73). -/
theorem decode3_ok {mk : Operand → Operand → Operand → Instr} {t1 t2 t3 : Bool} {bs rest : List Byte} {i : Instr} (h
    : decode3 mk t1 t2 t3 bs = .ok i rest) :
    ∃ o p q, i = mk o p q ∧ 3 + o.payloadSize + p.payloadSize + q.payloadSize ≤ bs.length ∧ rest = bs.drop (3 + o.payloadSize + p.payloadSize + q.payloadSize) := by
  obtain ⟨f, r, h1, h⟩ := Decoded.andThen_ok h
  obtain ⟨g, r1, h2, h⟩ := Decoded.andThen_ok h
  obtain ⟨g', r1', h2', h⟩ := Decoded.andThen_ok h
  obtain ⟨o, r2, h3, h⟩ := Decoded.andThen_ok h
  obtain ⟨p, r3, h4, h⟩ := Decoded.andThen_ok h
  obtain ⟨q, r4, h5, h⟩ := Decoded.andThen_ok h
  cases h
  have := takeByte_ok h1; subst this
  have := takeByte_ok h2; subst this
  have := takeByte_ok h2'; subst this
  obtain ⟨a, b⟩ := decodeOperand_ok h3
  obtain ⟨a2, b2⟩ := decodeOperand_ok h4
  obtain ⟨a3, b3⟩ := decodeOperand_ok h5
  subst b; subst b2
  simp only [List.length_drop] at a2 a3
  refine ⟨o, p, q, rfl, by simp; omega, ?_⟩
  rw [b3, List.drop_drop, List.drop_drop, show 3 + o.payloadSize + p.payloadSize + q.payloadSize = (o.payloadSize + (p.payloadSize + q.payloadSize)) + 1 + 1 + 1 by omega]; simp [List.drop_succ_cons]

/-- Format I (R66). -/
theorem decodeI_ok {mk : Byte → Instr} {bs rest : List Byte} {i : Instr} (h : decodeI mk bs = .ok i rest) :
    ∃ b, i = mk b ∧ 1 ≤ bs.length ∧ rest = bs.drop 1 := by
  obtain ⟨b, r, h1, h⟩ := Decoded.andThen_ok h
  cases h
  have := takeByte_ok h1; subst this
  exact ⟨b, rfl, by simp, rfl⟩

/-- Format A (R66). -/
theorem decodeA_ok {mk : Word → Instr} {bs rest : List Byte} {i : Instr} (h : decodeA mk bs = .ok i rest) :
    ∃ b, i = mk b ∧ 2 ≤ bs.length ∧ rest = bs.drop 2 := by
  obtain ⟨b, r, h1, h⟩ := Decoded.andThen_ok h
  cases h
  obtain ⟨a, b', _⟩ := takeValue_ok h1
  exact ⟨b, rfl, a, b'⟩

/-- A decoded layout takes the instruction's length (R72). -/
theorem decodeLayout_ok {bs rest : List Byte} {i : Instr} (h : decodeLayout bs = .ok i rest) : i.len ≤ bs.length
    ∧ rest = bs.drop i.len := by
  cases bs with
  | nil => cases h
  | cons b0 bs =>
    simp only [decodeLayout] at h
    have key : ∀ n, i.len = n + 1 → n ≤ bs.length → rest = bs.drop n → i.len ≤ (b0 :: bs).length ∧ rest = (b0 :: bs).drop i.len := by
      intro n h1 h2 h3; rw [h1]; exact ⟨by simp; omega, by simpa using h3⟩
    split at h <;> first
      | (obtain ⟨b, rfl, a, c⟩ := decodeI_ok h; exact key _ rfl a c)
      | (obtain ⟨b, rfl, a, c⟩ := decodeA_ok h; exact key _ rfl a c)
      | (cases h; exact key 0 rfl (by simp) rfl)
      | (obtain ⟨o, rfl, a, c⟩ := decode1_ok h; exact key _ (by simp [Instr.len]; omega) a c)
      | (obtain ⟨o, p, rfl, a, c⟩ := decode2_ok h; exact key _ (by simp [Instr.len]; omega) a c)
      | (obtain ⟨o, p, q, rfl, a, c⟩ := decode3_ok h; exact key _ (by simp [Instr.len]; omega) a c)

/-- How long a valid instruction can be (R72, R73, R80, R81). -/
theorem Instr.len_of_wf {i : Instr} (h : i.wf = true) : i.len ≤ 19 ∧ (13 < i.len → ∃ a b, i = .cmp a b ∨ i = .inp a b
    ∨ i = .out a b) := by
  have d : ∀ o : Operand, badDest o = none → o.payloadSize = 0 := by
    intro o h; cases o <;> first | rfl | simp [badDest] at h
  have e : i.invalid = none := by simpa [Instr.wf] using h
  cases i with
  | add a b | sub a b | and a b | or a b | nor a b | xor a b =>
    have h1 := d a e; have h2 := payloadSize_le b
    simp only [Instr.len, h1]; exact ⟨by omega, fun h => by omega⟩
  | mul a b c | div a b c =>
    rw [Instr.invalid, Option.or_eq_none_iff] at e
    have h1 := d a e.1; have h1' := d b e.2; have h2 := payloadSize_le c
    simp only [Instr.len, h1, h1']; exact ⟨by omega, fun h => by omega⟩
  | mov a b =>
    have h2 := payloadSize_le b
    have h1 : a.payloadSize ≤ 2 := by
      cases a with
      | lit l => simp [Instr.invalid, badMov, Operand.isLit] at e
      | mem m => cases m <;> simp [Operand.payloadSize]
      | _ => simp [Operand.payloadSize]
    simp only [Instr.len]; exact ⟨by omega, fun h => by omega⟩
  | cmp a b => have h1 := payloadSize_le a; have h2 := payloadSize_le b; exact ⟨by simp only [Instr.len]; omega, fun _ => ⟨a, b, .inl rfl⟩⟩
  | inp a b => have h1 := payloadSize_le a; have h2 := payloadSize_le b; exact ⟨by simp only [Instr.len]; omega, fun _ => ⟨a, b, .inr (.inl rfl)⟩⟩
  | out a b => have h1 := payloadSize_le a; have h2 := payloadSize_le b; exact ⟨by simp only [Instr.len]; omega, fun _ => ⟨a, b, .inr (.inr rfl)⟩⟩
  | not a | mw a | alloc a | ioChan a | outs a | seek a => have h1 := payloadSize_le a; simp only [Instr.len]; exact ⟨by omega, fun h => by omega⟩
  | _ => simp only [Instr.len]; exact ⟨by omega, fun h => by omega⟩

/-- A decoded instruction is a decoded layout and valid (R81). -/
theorem decode_ok {bs rest : List Byte} {i : Instr} (h : decode bs = .ok i rest) : decodeLayout bs = .ok i rest
    ∧ i.wf = true := by
  obtain ⟨j, r, h1, h2⟩ := Decoded.andThen_ok h
  split at h2
  · rename_i e; cases h2; exact ⟨h1, by simp [Instr.wf, e]⟩
  · cases h2

/-- With a byte there, one is taken. -/
theorem takeByte_enough {bs : List Byte} (h : 1 ≤ bs.length) : ∃ b r, takeByte bs = .ok b r
    ∧ bs.length = r.length + 1 := by
  cases bs with
  | nil => simp at h
  | cons b r => exact ⟨b, r, rfl, rfl⟩

/-- With enough bytes there, a value is taken. -/
theorem takeValue_enough {n : Nat} {bs : List Byte} (h : n ≤ bs.length) : takeValue n bs = .ok (ofBytes (8*n)
    (bs.take n)) (bs.drop n) := by
  simp [takeValue]; omega

/-- With eight bytes there, an operand is decoded or its ID is unassigned (R70, R71, R81). -/
theorem decodeOperand_enough {t : Bool} {f : Byte} {bs : List Byte} (h : 8 ≤ bs.length) :
    (∃ o r, decodeOperand t f bs = .ok o r ∧ bs.length ≤ r.length + 8) ∨ decodeOperand t f bs = .bad
    (.unassignedOperand f) := by
  cases hd : decodeOperand t f bs with
  | ok o r =>
    obtain ⟨a, b⟩ := decodeOperand_ok hd; have := payloadSize_le o
    exact .inl ⟨o, r, rfl, by rw [b, List.length_drop]; omega⟩
  | bad e =>
    right
    unfold decodeOperand at hd
    split at hd
    · split at hd
      · rename_i form _
        exfalso
        cases form with
        | whole o => cases hd
        | lit8 => simp only [Form.fill] at hd; rw [takeValue_enough (by omega)] at hd; cases hd
        | lit16 => simp only [Form.fill] at hd; rw [takeValue_enough (by omega)] at hd; cases hd
        | lit32 => simp only [Form.fill] at hd; rw [takeValue_enough (by omega)] at hd; cases hd
        | lit64 => simp only [Form.fill] at hd; rw [takeValue_enough (by omega)] at hd; cases hd
        | offset r => simp only [Form.fill] at hd; rw [takeValue_enough (by omega)] at hd; cases hd
        | absolute => simp only [Form.fill] at hd; rw [takeValue_enough (by omega)] at hd; cases hd
      · cases hd; rfl
    · cases hd

/-- A fetch never ends inside an instruction of format 3. -/
theorem decode3_enough {mk : Operand → Operand → Operand → Instr} {bs : List Byte} {t1 t2 t3 : Bool} (h
    : 27 ≤ bs.length) : decode3 mk t1 t2 t3 bs ≠ .bad .truncated := by
  intro e
  obtain ⟨f1, r1, h1, l1⟩ := takeByte_enough (bs := bs) (by omega)
  obtain ⟨f2, r2, h2, l2⟩ := takeByte_enough (bs := r1) (by omega)
  obtain ⟨f3, r3, h3, l3⟩ := takeByte_enough (bs := r2) (by omega)
  simp only [decode3, h1, h2, h3, Decoded.andThen] at e
  rcases decodeOperand_enough (t := t1) (f := f1) (bs := r3) (by omega) with ⟨o, r4, h4, l4⟩ | h4 <;> rw [h4] at e <;> simp only at e
  · rcases decodeOperand_enough (t := t2) (f := f2) (bs := r4) (by omega) with ⟨o, r5, h5, l5⟩ | h5 <;> rw [h5] at e <;> simp only at e
    · rcases decodeOperand_enough (t := t3) (f := f3) (bs := r5) (by omega) with ⟨o, r6, h6, l6⟩ | h6 <;> rw [h6] at e <;> simp only at e
      · cases e
      · cases e
    · cases e
  · cases e

/-- Nor of format 2. -/
theorem decode2_enough {mk : Operand → Operand → Instr} {bs : List Byte} {t1 t2 : Bool} (h : 27 ≤ bs.length)
    : decode2 mk t1 t2 bs ≠ .bad .truncated := by
  intro e
  obtain ⟨f1, r1, h1, l1⟩ := takeByte_enough (bs := bs) (by omega)
  obtain ⟨f2, r3, h2, l2⟩ := takeByte_enough (bs := r1) (by omega)
  simp only [decode2, h1, h2, Decoded.andThen] at e
  rcases decodeOperand_enough (t := t1) (f := f1) (bs := r3) (by omega) with ⟨o, r4, h4, l4⟩ | h4 <;> rw [h4] at e <;> simp only at e
  · rcases decodeOperand_enough (t := t2) (f := f2) (bs := r4) (by omega) with ⟨o, r5, h5, l5⟩ | h5 <;> rw [h5] at e <;> cases e
  · cases e

/-- Nor of format 1. -/
theorem decode1_enough {mk : Operand → Instr} {bs : List Byte} {t1 : Bool} (h : 27 ≤ bs.length)
    : decode1 mk t1 bs ≠ .bad .truncated := by
  intro e
  obtain ⟨f1, r3, h1, l1⟩ := takeByte_enough (bs := bs) (by omega)
  simp only [decode1, h1, Decoded.andThen] at e
  rcases decodeOperand_enough (t := t1) (f := f1) (bs := r3) (by omega) with ⟨o, r4, h4, l4⟩ | h4 <;> rw [h4] at e <;> cases e

/-- Nor of format A. -/
theorem decodeA_enough {mk : Word → Instr} {bs : List Byte} (h : 27 ≤ bs.length) : decodeA mk bs ≠ .bad .truncated := by
  intro e
  rw [decodeA, takeValue_enough (by omega)] at e; cases e

/-- Nor of format I. -/
theorem decodeI_enough {mk : Byte → Instr} {bs : List Byte} (h : 27 ≤ bs.length) : decodeI mk bs ≠ .bad .truncated := by
  intro e
  obtain ⟨f1, r3, h1, l1⟩ := takeByte_enough (bs := bs) (by omega)
  rw [decodeI, h1] at e; cases e

end Sys2Proof
end

