-- ==== Sys2Proof/Laws/Flow.lean ====
section
/-! SUPPORT. `call` and `ret`: the frame record in memory (spec/43_flow_control.md R184 to R186). -/

namespace Sys2Proof.Machine

/-- Bytes outside a stored range read the same (R43). -/
theorem State.readBytes_writeBytes_other (s : State) (a b : Word) (n : Nat) (bs : List Byte) (hn : bs.length ≤ 65536)
    (h : ∀ i < n, bs.length ≤ (b + BitVec.ofNat 16 i - a).toNat) :
    (s.writeBytes a bs).readBytes b n = s.readBytes b n := by
  apply List.ext_getElem?
  intro i
  by_cases hi : i < n
  · rw [State.getElem?_readBytes _ _ hi, State.getElem?_readBytes _ _ hi, State.readByte_writeBytes _ _ _ hn,
      List.getElem?_eq_none (h i hi), Option.getD_none]
  · rw [List.getElem?_eq_none (by simp; omega), List.getElem?_eq_none (by simp; omega)]

/-- A 16-bit value stored in memory reads back (R42, R43). -/
theorem State.readWord_writeBytes (s : State) (a v : Word) : (s.writeBytes a (toBytes 2 v)).readWord a = v := by
  have h := s.readBytes_writeBytes a (toBytes 2 v) (by simp)
  rw [length_toBytes] at h
  rw [State.readWord, h, ofBytes_toBytes_of_eq (by decide)]

/-- A 16-bit value two or more bytes away from one stored reads the same. -/
theorem State.readWord_writeBytes_other (s : State) (a b v : Word) (h : ∀ i < 2, 2 ≤
    (b + BitVec.ofNat 16 i - a).toNat) :
    (s.writeBytes a (toBytes 2 v)).readWord b = s.readWord b := by
  rw [State.readWord, State.readBytes_writeBytes_other _ _ _ _ _ (by simp) (by simpa using h), State.readWord]

/-- The three words of a frame record are the return address, `sp` and `ap` (R184). -/
theorem State.pushFrame_words (s : State) (ret : Word) :
    (s.pushFrame ret).readWord (s.ap - 6#16) = ret ∧ (s.pushFrame ret).readWord (s.ap - 4#16) = s.sp ∧
    (s.pushFrame ret).readWord (s.ap - 2#16) = s.ap := by
  have two : ∀ {P : Nat → Prop}, P 0 → P 1 → ∀ i < 2, P i := by
    intro P h0 h1 i hi
    rcases (by omega : i = 0 ∨ i = 1) with h | h <;> subst h <;> assumption
  unfold State.pushFrame
  refine ⟨?_, ?_, State.readWord_writeBytes _ _ _⟩
  · rw [State.readWord_writeBytes_other _ _ _ _ (two (by bv_omega) (by bv_omega)),
      State.readWord_writeBytes_other _ _ _ _ (two (by bv_omega) (by bv_omega)), State.readWord_writeBytes]
  · rw [State.readWord_writeBytes_other _ _ _ _ (two (by bv_omega) (by bv_omega)), State.readWord_writeBytes]

/-- A frame record changes the six bytes below `ap` alone (R184). -/
theorem State.pushFrame_keeps (s : State) (ret : Word) :
    KeepsData s (s.pushFrame ret) [] [] [⟨s.ap - 6#16, 6⟩] := by
  have step : ∀ (u : State) (k : Word) (v : Word), (k = 6#16 ∨ k = 4#16 ∨ k = 2#16) →
      KeepsData u (u.writeBytes (s.ap - k) (toBytes 2 v)) [] [] [⟨s.ap - 6#16, 6⟩] := by
    intro u k v hk
    have h := State.writeBytes_keeps u (s.ap - k) (toBytes 2 v) (by simp)
    refine { h with mem := fun x hx => h.mem x ?_ }
    intro r hr
    have hx := hx ⟨s.ap - 6#16, 6⟩ (by simp)
    rw [List.mem_singleton.mp hr, length_toBytes]
    simp only [MemRange.holds, decide_eq_false_iff_not, Nat.not_lt] at hx ⊢
    rcases hk with h | h | h <;> subst h <;> bv_omega
  exact ((step s _ _ (.inl rfl)).trans (step _ _ _ (.inr (.inl rfl))) rfl).trans (step _ _ _ (.inr (.inr rfl))) rfl

@[simp] theorem State.pushFrame_flg (s : State) (ret : Word) : (s.pushFrame ret).flg = s.flg := rfl
@[simp] theorem State.pushFrame_perr (s : State) (ret : Word) : (s.pushFrame ret).perr = s.perr := rfl
theorem State.pushFrame_host (s : State) (ret : Word) : KeepsHost s (s.pushFrame ret) := by constructor <;> rfl

end Sys2Proof.Machine
end

