-- ==== Sys2Proof/Laws/Io.lean ====
section
/-! SUPPORT. The host's side of I/O: strings in memory, the file map, and what a transfer leaves unchanged
(spec/45_io.md R200 to R207). -/

namespace Sys2Proof.Machine

/-! ### Strings -/

/-- Up to the first 0x00 byte, at distance `n`, the string is the bytes before it (R203, R206). -/
theorem Memory.stringAt_of_zero (m : Memory) (fuel : Nat) (a : Word) (n : Nat) (hn : n < fuel)
    (hb : ∀ i < n, m.read (a + BitVec.ofNat 16 i).toNat ≠ 0x00#8) (hz : m.read (a + BitVec.ofNat 16 n).toNat = 0x00#8) :
    m.stringAt fuel a = some ((List.range n).map fun i => m.read (a + BitVec.ofNat 16 i).toNat) := by
  induction fuel generalizing a n with
  | zero => omega
  | succ fuel ih =>
    cases n with
    | zero =>
      have h : m.read a.toNat = 0x00#8 := by rw [show a + BitVec.ofNat 16 0 = a from BitVec.add_zero a] at hz; exact hz
      simp [Memory.stringAt, h]
    | succ n =>
      have h0 : m.read a.toNat ≠ 0x00#8 := by
        have := hb 0 (by omega); rwa [show a + BitVec.ofNat 16 0 = a from BitVec.add_zero a] at this
      have hs : ∀ i, a + 1#16 + BitVec.ofNat 16 i = a + BitVec.ofNat 16 (i + 1) := by
        intro i; rw [BitVec.add_assoc, ← BitVec.ofNat_add, Nat.add_comm 1 i]
      have := ih (a + 1#16) n (by omega) (fun i hi => by rw [hs]; exact hb (i + 1) (by omega)) (by rw [hs]; exact hz)
      rw [Memory.stringAt, if_neg h0, this, Option.map_some, List.range_succ_eq_map, List.map_cons, List.map_map]
      rw [show a + BitVec.ofNat 16 0 = a from BitVec.add_zero a]
      congr 2
      apply List.map_congr_left
      intro i _
      rw [hs]; rfl

/-- Where no byte of memory is 0x00 no string ends (R206, U4). -/
theorem Memory.stringAt_of_no_zero (m : Memory) (fuel : Nat) (a : Word) (h : ∀ b : Word, m.read b.toNat ≠ 0x00#8) :
    m.stringAt fuel a = none := by
  induction fuel generalizing a with
  | zero => rfl
  | succ fuel ih => rw [Memory.stringAt, if_neg (h a), ih]; rfl

/-! ### The file map -/

theorem fileContents_setFileContents (fs : List HostFile) (path p c : List Byte) :
    fileContents (setFileContents fs path c) p = if p = path then some c else fileContents fs p := by
  induction fs with
  | nil =>
    by_cases h : p = path
    · subst h; simp [setFileContents, fileContents]
    · have h' : ¬ path = p := fun e => h e.symm
      simp [setFileContents, fileContents, h, h']
  | cons f rest ih =>
    by_cases hf : f.path = path
    · by_cases h : p = path
      · subst h; simp [setFileContents, fileContents, hf]
      · have h' : ¬ path = p := fun e => h e.symm
        simp [setFileContents, fileContents, hf, h, h']
    · by_cases h : f.path = p
      · have : p ≠ path := fun e => hf (h.trans e)
        simp [setFileContents, fileContents, h, this]
      · simp [setFileContents, fileContents, hf, h, ih]

theorem mem_paths_setFileContents {fs : List HostFile} {path p c : List Byte}
    (h : p ∈ (setFileContents fs path c).map (·.path)) : p = path ∨ p ∈ fs.map (·.path) := by
  induction fs with
  | nil => left; simpa [setFileContents] using h
  | cons f rest ih =>
    by_cases hf : f.path = path
    · rw [setFileContents, if_pos hf, List.map_cons, List.mem_cons] at h
      rcases h with h | h
      · exact .inl h
      · exact .inr (by rw [List.map_cons, List.mem_cons]; exact .inr h)
    · rw [setFileContents, if_neg hf, List.map_cons, List.mem_cons] at h
      rcases h with h | h
      · exact .inr (by rw [List.map_cons, List.mem_cons]; exact .inl h)
      · rcases ih h with h | h
        · exact .inl h
        · exact .inr (by rw [List.map_cons, List.mem_cons]; exact .inr h)

/-- Replacing or adding a file keeps the file system a map (R201). -/
theorem nodup_setFileContents {fs : List HostFile} (path c : List Byte) (h : (fs.map (·.path)).Nodup) :
    ((setFileContents fs path c).map (·.path)).Nodup := by
  induction fs with
  | nil => simp [setFileContents]
  | cons f rest ih =>
    rw [List.map_cons, List.nodup_cons] at h
    by_cases hf : f.path = path
    · rw [setFileContents, if_pos hf, List.map_cons, List.nodup_cons]
      exact ⟨fun hm => h.1 (by rw [hf]; exact hm), h.2⟩
    · rw [setFileContents, if_neg hf, List.map_cons, List.nodup_cons]
      refine ⟨fun hm => ?_, ih h.2⟩
      rcases mem_paths_setFileContents hm with e | e
      · exact hf e
      · exact h.1 e

/-! ### Beginning a transfer -/

theorem State.hostTransfer_ok {s : State} {wanted : Config.FileMode} {path : List Byte} {t : FileTransfer}
    (h : s.hostTransfer wanted path = .ok t) :
    t.path = path ∧ s.fpos.toNat ≤ t.contents.length ∧
    t.state = { s with openFile := some ⟨path, s.channelMode wanted⟩, hostAsked := s.hostAsked + 1 } := by
  unfold State.hostTransfer at h
  simp only at h
  split at h
  · cases h
  · split at h
    · rename_i hl
      cases h; exact ⟨rfl, hl, rfl⟩
    · cases h

/-- What a file transfer that begins has changed: the file is open with its path and mode, the host may have been asked,
nothing else (R203). -/
theorem State.beginTransfer_ok {s : State} {wanted : Config.FileMode} {t : FileTransfer}
    (h : s.beginTransfer wanted = .ok t) :
    s.channelPath = some t.path ∧ s.fpos.toNat ≤ t.contents.length ∧
    ∃ n, t.state = { s with openFile := some ⟨t.path, s.channelMode wanted⟩, hostAsked := n } := by
  have ask : ∀ {path : List Byte}, s.hostTransfer wanted path = .ok t → s.channelPath = some path →
      s.channelPath = some t.path ∧ s.fpos.toNat ≤ t.contents.length ∧
        ∃ n, t.state = { s with openFile := some ⟨t.path, s.channelMode wanted⟩, hostAsked := n } := by
    intro path h hp
    obtain ⟨rfl, h2, h3⟩ := State.hostTransfer_ok h
    exact ⟨hp, h2, _, h3⟩
  unfold State.beginTransfer at h
  split at h
  · cases h
  · rename_i path hp
    split at h
    · exact ask h hp
    · split at h
      · rename_i c _ hl
        cases h
        exact ⟨hp, by simp only [Bool.and_eq_true, decide_eq_true_iff] at hl; exact hl.2, s.hostAsked, rfl⟩
      · exact ask h hp

/-- Beginning a file transfer changes no register, flag or byte of data (R203). -/
theorem State.beginTransfer_keeps {s : State} {wanted : Config.FileMode} {t : FileTransfer}
    (h : s.beginTransfer wanted = .ok t) (ds : List Operand) (fs : List Flag) (ms : List MemRange) :
    KeepsData s t.state ds fs ms := by
  obtain ⟨_, _, n, e⟩ := State.beginTransfer_ok h
  rw [e]; apply KeepsData.of_eq <;> rfl

/-- A transfer on the file's own contents (R203). -/
theorem State.beginTransfer_own {s : State} {wanted : Config.FileMode} {path c : List Byte}
    (hp : s.channelPath = some path) (hc : fileContents s.files path = some c)
    (ho : s.actsOnOwnContents wanted = true) (hl : s.fpos.toNat ≤ c.length) :
    s.beginTransfer wanted = .ok ⟨path, c, { s with openFile := some ⟨path, s.channelMode wanted⟩ }⟩ := by
  simp [State.beginTransfer, hp, hc, ho, hl]

/-- What a file transfer acts on, from what beginning it answers (R203, U12). -/
theorem State.onContents {s : State} {wanted : Config.FileMode} {path : List Byte} {own : Prop} {answer : StepOutcome}
    {acts : List Byte → Nat → Prop} (hp : s.channelPath = some path) (ho : s.actsOnOwnContents wanted = true ↔ own)
    (hok : ∀ c n, s.beginTransfer wanted =
      .ok ⟨path, c, { s with openFile := some ⟨path, s.channelMode wanted⟩, hostAsked := n }⟩ →
      s.fpos.toNat ≤ c.length → acts c n)
    (herr : s.beginTransfer wanted = .error .hostGivesNoAnswer → answer = .fault .hostGivesNoAnswer) :
    OnContents s wanted path own answer acts := by
  refine ⟨fun c h hc hl => hok c _ (State.beginTransfer_own hp hc (ho.mpr h) hl) hl, fun h => ?_⟩
  have e : s.beginTransfer wanted = s.hostTransfer wanted path := by
    simp only [State.beginTransfer, hp]
    split
    · rfl
    · rename_i c hc
      rw [if_neg]
      intro hb
      simp only [Bool.and_eq_true, decide_eq_true_iff] at hb
      exact absurd (h (ho.mp hb.1) c hc) (Nat.not_lt.mpr hb.2)
  rw [e] at hok herr
  unfold State.hostTransfer at hok herr
  simp only at hok herr
  split
  · rename_i hq; rw [hq] at herr; exact herr rfl
  · rename_i c hq
    rw [hq] at hok herr
    split
    · rename_i hl; exact hok c _ (by simp [hl]) hl
    · rename_i hl; exact herr (by simp [hl])

/-- The kind of each channel number (R202). -/
theorem channelKind_cases (c : Word) :
    (c = 0#16 ∧ channelKind c = .console) ∨ (1 ≤ c.toNat ∧ c.toNat ≤ 255 ∧ channelKind c = .reserved) ∨
      (256 ≤ c.toNat ∧ channelKind c = .file) := by
  by_cases h0 : c = 0#16
  · exact .inl ⟨h0, by simp [channelKind, h0]⟩
  · have hn : c.toNat ≠ 0 := fun e => h0 (BitVec.eq_of_toNat_eq (by simpa using e))
    by_cases h1 : c.toNat < 256
    · exact .inr (.inl ⟨by omega, by omega, by simp [channelKind, h0, h1]⟩)
    · exact .inr (.inr ⟨by omega, by simp [channelKind, h0, h1]⟩)

/-- `in` and `out` on two valid numbers in order carry out their transfer (R204, R205). -/
theorem rangeCases_transfer {s : State} {x y : Operand} (hv : badSources x y = none) (hx : NumberOperand 2 x)
    (hy : NumberOperand 2 y) (hle : (s.ioVal x 16).toNat ≤ (s.ioVal y 16).toNat) (len : Nat)
    (transfer : Word → Nat → StepOutcome) :
    rangeCases x y len s transfer =
      advanceOutcome len (transfer (s.ioVal x 16) ((s.ioVal y 16).toNat - (s.ioVal x 16).toNat)) := by
  simp [rangeCases, hv, hx.scalar, hy.scalar, hx.fits, hy.fits, Nat.not_lt.mpr hle]

end Sys2Proof.Machine
end

