-- ==== Sys2Proof/Laws/MulDiv.lean ====
section
/-! SUPPORT. Two destinations: when the fields of `mul` and `div` do not overlap, and what storing a product or a quotient
and modulo does (spec/40_operands_simd.md R119, spec/42_arith_logic.md R156, R161). -/

namespace Sys2Proof.Machine

/-! ### Pool bytes of a destination -/

theorem inPoolRange_iff {a b : Byte} {n : Nat} (h : a.toNat + n ≤ 256) :
    inPoolRange a n b = true ↔ a.toNat ≤ b.toNat ∧ b.toNat < a.toNat + n := by
  simp only [inPoolRange, decide_eq_true_iff, BitVec.toNat_sub]
  have ha := a.isLt; have hb := b.isLt
  omega

/-- The bytes an operand covers are those of its span (R13, R15). -/
theorem covers_of_poolSpan {s : State} {d : Operand} (hd : isScalarDest d) (hf : s.operandFits d = true) {b : Byte} :
    covers s.wordSize d b = true ↔
      ∃ a n, poolSpan s.wordSize d = some (a, n) ∧ a ≤ b.toNat ∧ b.toNat < a + n := by
  have one : ∀ {x k : Nat} {P : Nat → Nat → Prop},
      P x k ↔ ∃ a n, some (x, k) = some (a, n) ∧ P a n := by
    intro x k P
    constructor
    · intro h; exact ⟨x, k, rfl, h⟩
    · rintro ⟨a, n, e, h⟩; cases e; exact h
  obtain ⟨a, rfl⟩ | ⟨r, rfl, -⟩ := hd.cases
  · simp only [State.operandFits, fitsPool, decide_eq_true_iff] at hf
    rw [covers, inPoolRange_iff hf]; exact one (P := fun a n => a ≤ b.toNat ∧ b.toNat < a + n)
  · have hk : ∀ k : Fin 4, (wiBase k).toNat + 2 ≤ 256 ∧ (piBase k).toNat + 2 ≤ 256 := by decide
    cases r with
    | wi k => rw [covers, inPoolRange_iff (hk k).1]; exact one (P := fun a n => a ≤ b.toNat ∧ b.toNat < a + n)
    | pi k => rw [covers, inPoolRange_iff (hk k).2]; exact one (P := fun a n => a ≤ b.toNat ∧ b.toNat < a + n)
    | _ => simp [covers, poolSpan]

/-- Destinations overlap when some pool byte belongs to both (R119). -/
theorem spansOverlap_iff {s : State} {d1 d2 : Operand} (h1 : isScalarDest d1) (h2 : isScalarDest d2)
    (f1 : s.operandFits d1 = true) (f2 : s.operandFits d2 = true) :
    spansOverlap s.wordSize d1 d2 = true ↔
      ∃ b : Byte, covers s.wordSize d1 b = true ∧ covers s.wordSize d2 b = true := by
  have hfit : ∀ {d : Operand}, isScalarDest d → s.operandFits d = true → ∀ {a n : Nat},
      poolSpan s.wordSize d = some (a, n) → a + n ≤ 256 ∧ 0 < n := by
    intro d hd hf a n hs
    have hw := s.wordSize_cases
    have hk : ∀ k : Fin 4, (wiBase k).toNat + 2 ≤ 256 ∧ (piBase k).toNat + 2 ≤ 256 := by decide
    obtain ⟨p, rfl⟩ | ⟨r, rfl, -⟩ := hd.cases
    · simp only [State.operandFits, fitsPool, decide_eq_true_iff] at hf
      simp only [poolSpan, Option.some.injEq, Prod.mk.injEq] at hs
      omega
    · cases r with
      | wi k => simp only [poolSpan, Option.some.injEq, Prod.mk.injEq] at hs; have := hk k; omega
      | pi k => simp only [poolSpan, Option.some.injEq, Prod.mk.injEq] at hs; have := hk k; omega
      | _ => simp [poolSpan] at hs
  constructor
  · intro h
    unfold spansOverlap at h
    split at h
    · rename_i a n b m e1 e2
      have ha := hfit h1 f1 e1; have hb := hfit h2 f2 e2
      simp only [Bool.and_eq_true, decide_eq_true_iff] at h
      have hlt : max a b < 256 := by omega
      refine ⟨BitVec.ofNat 8 (max a b), (covers_of_poolSpan h1 f1).mpr ⟨a, n, e1, ?_⟩,
        (covers_of_poolSpan h2 f2).mpr ⟨b, m, e2, ?_⟩⟩ <;>
      · rw [BitVec.toNat_ofNat, Nat.mod_eq_of_lt hlt]; omega
    · simp at h
  · rintro ⟨x, c1, c2⟩
    obtain ⟨a, n, e1, ha⟩ := (covers_of_poolSpan h1 f1).mp c1
    obtain ⟨b, m, e2, hb⟩ := (covers_of_poolSpan h2 f2).mp c2
    simp only [spansOverlap, e1, e2, Bool.and_eq_true, decide_eq_true_iff]
    omega

/-- Pool bytes that are the same read the same. -/
theorem readPool_congr {s t : State} {a : Byte} {n : Nat} (hn : n ≤ 256)
    (h : ∀ b, inPoolRange a n b = true → t.poolByte b = s.poolByte b) : t.readPool a n = s.readPool a n := by
  apply List.map_congr_left
  intro i hi
  have hi : i < n := List.mem_range.mp hi
  refine h _ ?_
  have : (a + BitVec.ofNat 8 i - a).toNat = i := by
    rw [BitVec.add_comm, BitVec.add_sub_cancel, BitVec.toNat_ofNat, Nat.mod_eq_of_lt (by omega)]
  rw [inPoolRange, this, decide_eq_true_iff]; exact hi

/-- A scalar destination reads the same after an update that names only operands without its bytes. -/
theorem readOp_of_keeps {s t : State} {ds : List Operand} {fs : List Flag} {ms : List MemRange} {d : Operand} {N : Nat}
    (h : KeepsData s t ds fs ms) (hd : isScalarDest d) (hw : t.wordSize = s.wordSize)
    (hds : d ∉ ds) (hc : ∀ b, covers s.wordSize d b = true → ∀ e ∈ ds, covers s.wordSize e b = false)
    (hip : d = .reg .ip → t.ip = s.ip) : t.readOp d N = s.readOp d N := by
  obtain ⟨a, rfl⟩ | ⟨r, rfl, hr⟩ := hd.cases
  · have hb := s.wordSize_cases
    have : t.readPool a (t.wordSize / 8) = s.readPool a (s.wordSize / 8) := by
      rw [hw]
      exact readPool_congr (by omega) fun b hb => h.pool b fun e he => hc b hb e he
    simp only [State.readOp, this]
  · have pair : ∀ base : Byte, (∀ b, inPoolRange base 2 b = true → t.poolByte b = s.poolByte b) →
        t.readPoolWord base = s.readPoolWord base := by
      intro base hb
      simp only [State.readPoolWord, readPool_congr (by omega) hb]
    have : t.readReg r = s.readReg r := by
      cases r with
      | wi k => exact pair _ fun b hb => h.pool b fun e he => hc b hb e he
      | pi k => exact pair _ fun b hb => h.pool b fun e he => hc b hb e he
      | ar k => exact h.ar k hds
      | ip => exact hip rfl
      | sp => exact h.sp hds
      | ap => exact h.ap hds
      | wl => exact h.wl hds
      | flg => exact absurd rfl hr
      | rs => simp only [State.readReg, h.rs hds]
    simp only [State.readOp, this]

/-! ### The operands on which `mul` and `div` run -/

/-- What the operands of a `mul` or `div` that runs are like (R119, R156, R161). -/
theorem TwoDestinations.spec {s : State} {d1 d2 src : Operand} (h : TwoDestinations s d1 d2 src) :
    isScalarDest d1 ∧ isScalarDest d2 ∧ naturalWidth s.wordSize d1 = some (s.widthBeside d2 src) ∧
    naturalWidth s.wordSize d2 = some (s.widthBeside d2 src) ∧
    (d1 ≠ d2 → ∀ b, covers s.wordSize d1 b = true → covers s.wordSize d2 b = false) := by
  obtain ⟨hv, hr⟩ := h
  rw [Option.or_eq_none_iff] at hv
  unfold State.mulDivRefusal at hr
  split at hr
  · cases hr
  split at hr
  · cases hr
  split at hr
  · cases hr
  split at hr
  · cases hr
  split at hr
  · cases hr
  rename_i n1 n2 n3 n4 n5
  simp only [Bool.or_eq_true, not_or, Bool.not_eq_true] at n1 n2
  simp only [Bool.not_eq_true, Bool.not_eq_false', Bool.and_eq_true] at n4
  have h1 : isScalarDest d1 := ⟨hv.1, n1.1.1, n2.1⟩
  have h2 : isScalarDest d2 := ⟨hv.2, n1.1.2, n2.2⟩
  have hw := h2.width s src
  refine ⟨h1, h2, by rw [← hw]; simpa using n3, hw, fun hne b hb => ?_⟩
  by_cases hc : covers s.wordSize d2 b = true
  · have := (spansOverlap_iff h1 h2 n4.1.1 n4.1.2).mpr ⟨b, hb, hc⟩
    simp [hne, this] at n5
  · simpa using hc

theorem TwoDestinations.badDest {s : State} {d1 d2 src : Operand} (h : TwoDestinations s d1 d2 src) :
    ((badDest d1).or (badDest d2)).isSome = false := by simp [h.valid]

/-! ### Two stored results -/

/-- Everything that storing two results does (R119, R156, R161). -/
theorem State.storeTwo_spec {N : Nat} (s : State) {d1 d2 : Operand} (len : Nat) (v1 v2 : BitVec N)
    (h1 : isScalarDest d1) (h2 : isScalarDest d2) (w1 : naturalWidth s.wordSize d1 = some N)
    (w2 : naturalWidth s.wordSize d2 = some N)
    (hc : d1 ≠ d2 → ∀ b, covers s.wordSize d1 b = true → covers s.wordSize d2 b = false) :
    (s.storeTwo d1 d2 len v1 v2).readOp d2 N = v2 ∧
    (d1 ≠ d2 → (s.storeTwo d1 d2 len v1 v2).readOp d1 N = v1) ∧
    (d1 ≠ .reg .ip → Advances s (s.storeTwo d1 d2 len v1 v2) d2 len) ∧
    (∀ f, (s.storeTwo d1 d2 len v1 v2).flag f = s.flag f) ∧
    (s.storeTwo d1 d2 len v1 v2).wordSize = s.wordSize ∧
    (s.storeTwo d1 d2 len v1 v2).perr = s.perr ∧
    KeepsData s (s.storeTwo d1 d2 len v1 v2) [d1, d2] [] [] ∧
    KeepsHost s (s.storeTwo d1 d2 len v1 v2) := by
  generalize hs1 : (if d1 = d2 then s else s.writeOp d1 v1) = s1
  have hw1 : s1.wordSize = s.wordSize := by
    rw [← hs1]; split
    · rfl
    · exact State.writeOp_wordSize s v1 h1
  have hp1 : s1.perr = s.perr := by
    rw [← hs1]; split
    · rfl
    · exact State.writeOp_perr s v1 h1
  have hf1 : ∀ f, s1.flag f = s.flag f := by
    intro f; rw [← hs1]; split
    · rfl
    · exact State.writeOp_flag s v1 h1 f
  have hk1 : KeepsData s s1 [d1, d2] [] [] := by
    rw [← hs1]; split
    · exact KeepsData.refl s _ _ _
    · exact (State.writeOp_keeps s v1 h1).mono
  have hh1 : KeepsHost s s1 := by
    rw [← hs1]; split
    · exact KeepsHost.refl s
    · exact State.writeOp_host s v1
  have hi1 : d1 ≠ .reg .ip → s1.ip = s.ip := by
    intro hne; rw [← hs1]; split
    · rfl
    · exact State.writeOp_ip s v1 h1 hne
  have hr1 : d1 ≠ d2 → s1.readOp d1 N = v1 := by
    intro hne; rw [← hs1, if_neg hne]; exact State.readOp_writeOp s v1 h1 w1
  have ht : s.storeTwo d1 d2 len v1 v2 =
      if d1 = .reg .ip then s1.writeOp d2 v2 else (s1.writeOp d2 v2).finish d2 len := by
    rw [← hs1]; rfl
  have hw2 : (s1.writeOp d2 v2).wordSize = s.wordSize := (State.writeOp_wordSize s1 v2 h2).trans hw1
  have hk2 : KeepsData s (s1.writeOp d2 v2) [d1, d2] [] [] := hk1.trans (State.writeOp_keeps s1 v2 h2).mono hw1
  have hr2 : (s1.writeOp d2 v2).readOp d2 N = v2 := State.readOp_writeOp s1 v2 h2 (by rw [hw1]; exact w2)
  have hr12 : d1 ≠ d2 → (s1.writeOp d2 v2).readOp d1 N = v1 := by
    intro hne
    rw [readOp_of_keeps (State.writeOp_keeps s1 v2 h2) h1 (hw2.trans hw1.symm) (by simpa using hne) ?_ ?_, hr1 hne]
    · intro b hb e he
      rw [List.mem_singleton.mp he, hw1]
      exact hc hne b (by rw [← hw1]; exact hb)
    · intro hip
      exact State.writeOp_ip s1 v2 h2 fun e => hne (hip.trans e.symm)
  rw [ht]
  split
  · rename_i hip
    exact ⟨hr2, hr12, fun h => absurd hip h, fun f => (State.writeOp_flag s1 v2 h2 f).trans (hf1 f), hw2,
      (State.writeOp_perr s1 v2 h2).trans hp1, hk2, hh1.trans (State.writeOp_host s1 v2)⟩
  · rename_i hip
    refine ⟨by rw [State.readOp_finish]; exact hr2, fun hne => by rw [State.readOp_finish_other _ _ _ _ hip]; exact hr12 hne, ?_, ?_, ?_,
      ?_, hk2.trans (State.finish_keeps _ d2 len _ _ _) hw2, ?_⟩
    · intro _ h2'
      rw [State.finish_ip _ _ _ h2', State.writeOp_ip s1 v2 h2 h2', hi1 hip]
    · intro f; rw [State.finish_flag]; exact (State.writeOp_flag s1 v2 h2 f).trans (hf1 f)
    · rw [State.finish_wordSize]; exact hw2
    · rw [State.finish_perr]; exact (State.writeOp_perr s1 v2 h2).trans hp1
    · exact (hh1.trans (State.writeOp_host s1 v2)).trans (State.finish_host _ d2 len)

/-- Everything that storing a product does (R156). -/
theorem State.storeProduct_spec {N : Nat} (s : State) {hi lo : Operand} (len : Nat) (agree : Bool) (r : ArithResult N)
    (high : BitVec N) (h1 : isScalarDest hi) (h2 : isScalarDest lo) (w1 : naturalWidth s.wordSize hi = some N)
    (w2 : naturalWidth s.wordSize lo = some N)
    (hc : hi ≠ lo → ∀ b, covers s.wordSize hi b = true → covers s.wordSize lo b = false) :
    let t := s.storeProduct hi lo len agree r high
    t.readOp lo N = r.value ∧ (hi ≠ lo → t.readOp hi N = high) ∧ (hi ≠ .reg .ip → Advances s t lo len) ∧
    t.flag .ZF = r.zf ∧ t.flag .SF = (if agree then r.sf else s.flag .SF) ∧ t.flag .OF = r.of ∧ t.flag .NOF = r.nof ∧
    t.flag .EF = (s.flag .EF || (r.of || r.nof)) ∧
    t.perr = (if (r.of || r.nof) && s.flag .RF then (if r.nof then some 0x05#8 else some 0x04#8) else s.perr) ∧
    KeepsData s t [hi, lo] [.ZF, .SF, .OF, .NOF, .EF] [] ∧ KeepsHost s t := by
  have hw : (s.setArithFlags r agree).wordSize = s.wordSize := by simp
  obtain ⟨p1, p2, p3, p4, p5, p6, p7, p8⟩ := State.storeTwo_spec (s.setArithFlags r agree) len high r.value h1 h2
    (by rw [hw]; exact w1) (by rw [hw]; exact w2) (by rw [hw]; exact hc)
  generalize hu : (s.setArithFlags r agree).storeTwo hi lo len high r.value = u at *
  have ht : s.storeProduct hi lo len agree r high =
      (u.raiseIf r.nof signBitOverflowCode).raiseIf (r.of && !r.nof) unresolvedErrorCode := by
    rw [← hu]; rfl
  rw [ht]
  refine ⟨?_, ?_, ?_, ?_, ?_, ?_, ?_, ?_, ?_, ?_, ?_⟩
  · rw [State.readOp_raiseIf _ _ _ _ h2, State.readOp_raiseIf _ _ _ _ h2, p1]
  · intro hne; rw [State.readOp_raiseIf _ _ _ _ h1, State.readOp_raiseIf _ _ _ _ h1, p2 hne]
  · intro hip hlo
    rw [State.raiseIf_ip, State.raiseIf_ip, p3 hip hlo, State.setArithFlags_ip]
  · simp [State.raiseIf_flag, p4, State.setArithFlags_flag]
  · simp [State.raiseIf_flag, p4, State.setArithFlags_flag]
  · simp [State.raiseIf_flag, p4, State.setArithFlags_flag]
  · simp [State.raiseIf_flag, p4, State.setArithFlags_flag]
  · simp only [State.raiseIf_flag, p4, State.setArithFlags_flag]
    cases r.of <;> cases r.nof <;> simp
  · simp only [State.raiseIf_perr, State.raiseIf_flag, p4, p6, State.setArithFlags_flag, State.setArithFlags_perr]
    cases r.of <;> cases r.nof <;> cases s.flag .RF <;> simp [signBitOverflowCode, unresolvedErrorCode]
  · exact KeepsData.trans (KeepsData.trans (KeepsData.trans (State.setArithFlags_keeps s r agree).mono p7.mono hw)
      (State.raiseIf_keeps u _ _).mono (p5.trans hw)) (State.raiseIf_keeps _ _ _).mono (by simp [p5])
  · exact (((State.setArithFlags_host s r agree).trans p8).trans (State.raiseIf_host u _ _)).trans
      (State.raiseIf_host _ _ _)

/-- Everything that storing a quotient and modulo does (R161). -/
theorem State.storeQuotient_spec {N : Nat} (s : State) {m q : Operand} (len : Nat) (agree zf sf : Bool)
    (modulo quotient : BitVec N) (h1 : isScalarDest m) (h2 : isScalarDest q)
    (w1 : naturalWidth s.wordSize m = some N) (w2 : naturalWidth s.wordSize q = some N)
    (hc : m ≠ q → ∀ b, covers s.wordSize m b = true → covers s.wordSize q b = false) :
    let t := s.storeQuotient m q len agree zf sf modulo quotient
    t.readOp q N = quotient ∧ (m ≠ q → t.readOp m N = modulo) ∧ (m ≠ .reg .ip → Advances s t q len) ∧
    t.flag .ZF = zf ∧ t.flag .SF = (if agree then sf else s.flag .SF) ∧ t.flag .DZF = false ∧ t.perr = s.perr ∧
    KeepsData s t [m, q] [.ZF, .SF, .DZF] [] ∧ KeepsHost s t := by
  generalize hu : (s.setFlag .DZF false).setZeroSign zf agree sf = u
  have hw : u.wordSize = s.wordSize := by rw [← hu]; simp
  obtain ⟨p1, p2, p3, p4, p5, p6, p7, p8⟩ := State.storeTwo_spec u len modulo quotient h1 h2
    (by rw [hw]; exact w1) (by rw [hw]; exact w2) (by rw [hw]; exact hc)
  have ht : s.storeQuotient m q len agree zf sf modulo quotient = u.storeTwo m q len modulo quotient := by
    rw [← hu]; rfl
  rw [ht]
  refine ⟨p1, p2, ?_, ?_, ?_, ?_, ?_, ?_, ?_⟩
  · intro hip hq; rw [p3 hip hq, ← hu]; simp
  · rw [p4, ← hu]; simp [State.setZeroSign_flag]
  · rw [p4, ← hu]; simp [State.setZeroSign_flag, State.setFlag_flag]
  · rw [p4, ← hu]; simp [State.setZeroSign_flag, State.setFlag_flag]
  · rw [p6, ← hu]; simp
  · refine KeepsData.trans ?_ p7.mono hw
    rw [← hu]
    exact KeepsData.trans (State.setFlag_keeps s .DZF false).mono (State.setZeroSign_keeps _ zf agree sf).mono (by simp)
  · refine KeepsHost.trans ?_ p8
    rw [← hu]
    exact (State.setFlag_host s .DZF false).trans (State.setZeroSign_host _ zf agree sf)

/-- Everything that a division by zero does (R161, R226). -/
theorem State.divideByZero_spec (s : State) (len : Nat) :
    (s.divideByZero len).flag .DZF = true ∧ Raises s (s.divideByZero len) true 0x03#8 ∧
    (s.divideByZero len).ip = s.ip + BitVec.ofNat 16 len ∧
    KeepsData s (s.divideByZero len) [] [.DZF, .EF] [] ∧ KeepsHost s (s.divideByZero len) := by
  refine ⟨by simp [State.divideByZero, State.raise, State.raiseIf_flag, State.setFlag_flag], ?_, rfl, ?_, ?_⟩
  · have h : Raises (s.setFlag .DZF true) (s.divideByZero len) true 0x03#8 :=
      State.raiseIf_raises (s.setFlag .DZF true) true 0x03#8
    exact h.of_eq (by simp [State.setFlag_flag]) (by simp [State.setFlag_flag]) rfl
  · exact KeepsData.trans
      (KeepsData.trans (State.setFlag_keeps s .DZF true).mono (State.raiseIf_keeps _ true divideByZeroCode).mono (by simp))
      (State.advance_keeps _ len _ _ _) (by simp)
  · exact ((State.setFlag_host s .DZF true).trans (State.raiseIf_host _ true divideByZeroCode)).trans
      (State.advance_host _ len)

end Sys2Proof.Machine
end

