-- ==== Sys2Proof/Laws/Simd.lean ====
section
/-! SUPPORT. SIMD groups: cutting 64 bytes into lanes and joining lanes into bytes are inverse, and what writing a group
changes (spec/40_operands_simd.md R120 to R127). -/

namespace Sys2Proof.Machine

/-! ### Lanes and bytes -/

/-- A word size is a whole number `k` of bytes and a group has `64 / k` lanes of it (R120). -/
theorem State.wordSize_split (s : State) :
    ∃ k, s.wordSize = 8 * k ∧ s.wordSize / 8 = k ∧ 0 < k ∧ k ≤ 8 ∧ 512 / s.wordSize * k = 64 := by
  rcases s.wordSize_cases with h | h | h | h
  · exact ⟨1, by omega, by omega, by omega, by omega, by rw [h]⟩
  · exact ⟨2, by omega, by omega, by omega, by omega, by rw [h]⟩
  · exact ⟨4, by omega, by omega, by omega, by omega, by rw [h]⟩
  · exact ⟨8, by omega, by omega, by omega, by omega, by rw [h]⟩

theorem length_bytesOf {W : Nat} (lanes : List (BitVec W)) : (bytesOf lanes).length = lanes.length * (W / 8) := by
  induction lanes with
  | nil => simp [bytesOf]
  | cons v vs ih =>
    have : bytesOf (v :: vs) = toBytes (W / 8) v ++ bytesOf vs := by simp [bytesOf]
    rw [this, List.length_append, ih, length_toBytes, List.length_cons, Nat.add_mul]
    omega

/-- The bytes of lane `i` of joined lanes are the bytes of that lane. -/
theorem take_drop_bytesOf {W : Nat} (lanes : List (BitVec W)) (i : Nat) (h : i < lanes.length) :
    ((bytesOf lanes).drop (i * (W / 8))).take (W / 8) = toBytes (W / 8) lanes[i] := by
  induction lanes generalizing i with
  | nil => simp at h
  | cons v vs ih =>
    have hc : bytesOf (v :: vs) = toBytes (W / 8) v ++ bytesOf vs := by simp [bytesOf]
    rw [hc]
    cases i with
    | zero => simp
    | succ i =>
      have hl : (toBytes (W / 8) v).length ≤ (i + 1) * (W / 8) := by
        rw [length_toBytes, Nat.add_mul]; omega
      have hl' : (i + 1) * (W / 8) - (toBytes (W / 8) v).length = i * (W / 8) := by
        rw [length_toBytes, Nat.add_mul]; omega
      rw [List.drop_append, List.drop_eq_nil_of_le hl, hl', List.nil_append]
      exact ih i (by simpa using h)

/-- Part of a run of pool bytes is the run of that part. -/
theorem State.readPool_part (s : State) (a : Byte) (n i k : Nat) (h : i + k ≤ n) :
    s.readPool (a + BitVec.ofNat 8 i) k = ((s.readPool a n).drop i).take k := by
  apply List.ext_getElem
  · simp [State.readPool, Pool.readBytes]; omega
  · intro j h1 h2
    simp [State.readPool, Pool.readBytes, BitVec.ofNat_add, BitVec.add_assoc]

/-- Part of a run of memory bytes is the run of that part. -/
theorem State.readBytes_part (s : State) (a : Word) (n i k : Nat) (h : i + k ≤ n) :
    s.readBytes (a + BitVec.ofNat 16 i) k = ((s.readBytes a n).drop i).take k := by
  apply List.ext_getElem
  · simp [State.readBytes, Memory.readBytes]; omega
  · intro j h1 h2
    simp [State.readBytes, Memory.readBytes, BitVec.add_assoc]

theorem lane_fits {s : State} {i : Nat} (h : i < 512 / s.wordSize) :
    i * (s.wordSize / 8) + s.wordSize / 8 ≤ 64 := by
  obtain ⟨k, h1, h2, h3, h4, h5⟩ := s.wordSize_split
  rw [h2]
  have : (i + 1) * k ≤ 512 / s.wordSize * k := Nat.mul_le_mul_right k h
  rw [Nat.add_mul] at this; omega

@[simp] theorem length_lanesOf (W : Nat) (bs : List Byte) : (lanesOf W bs).length = 512 / W := by simp [lanesOf]

theorem getElem_lanesOf {W : Nat} (bs : List Byte) (i : Nat) (h : i < (lanesOf W bs).length) :
    (lanesOf W bs)[i] = ofBytes W ((bs.drop (i * (W / 8))).take (W / 8)) := by simp [lanesOf]

/-- The lanes cut from a group are its lanes (R120). -/
theorem State.getElem_lanesOf_group (s : State) (g : Group) (i : Nat)
    (h : i < (lanesOf s.wordSize (s.readGroup g)).length) :
    (lanesOf s.wordSize (s.readGroup g))[i] = s.lane s.wordSize g i := by
  rw [length_lanesOf] at h
  rw [getElem_lanesOf, State.lane, State.readPool_part s _ 64 _ _ (lane_fits h)]
  rfl

@[simp] theorem State.length_sourceLanes (s : State) (src : Operand) : (s.sourceLanes src).length = 512 / s.wordSize := by
  cases src <;> simp [State.sourceLanes]

/-- The source lanes are those of a group, of 64 bytes of memory, or the scalar (R122 to R124). -/
theorem State.getElem_sourceLanes (s : State) (src : Operand) (i : Nat) (h : i < (s.sourceLanes src).length) :
    (s.sourceLanes src)[i] = s.sourceLane s.wordSize src i := by
  have h' : i < 512 / s.wordSize := by simpa using h
  cases src with
  | simd g => exact State.getElem_lanesOf_group s g i (by simpa using h')
  | mem m =>
    have : (s.sourceLanes (.mem m))[i] = ofBytes s.wordSize (((s.readBytes (s.ea m) 64).drop
        (i * (s.wordSize / 8))).take (s.wordSize / 8)) := getElem_lanesOf _ i _
    rw [this, ← State.readBytes_part s _ 64 _ _ (lane_fits h')]
    rfl
  | _ => simp [State.sourceLanes, State.sourceLane]

/-! ### Writing a group -/

theorem State.writeGroup_keeps (s : State) (g : Group) (bs : List Byte) (h : bs.length = 64) :
    KeepsData s (s.writeGroup g bs) [.simd g] [] [] :=
  State.writePool_keeps s _ bs _ (by omega) (by simp [covers, h])

theorem State.writeGroup_host (s : State) (g : Group) (bs : List Byte) : KeepsHost s (s.writeGroup g bs) :=
  State.writePool_host s _ bs

theorem State.readGroup_writeGroup (s : State) (g : Group) (bs : List Byte) (h : bs.length = 64) :
    (s.writeGroup g bs).readGroup g = bs := by
  have := s.readPool_writePool (groupBase g) bs (by omega)
  rwa [h] at this

theorem length_bytesOf_lanes {s : State} {lanes : List (BitVec s.wordSize)} (h : lanes.length = 512 / s.wordSize) :
    (bytesOf lanes).length = 64 := by
  obtain ⟨k, h1, h2, h3, h4, h5⟩ := s.wordSize_split
  rw [length_bytesOf, h, h2, h5]

/-- Each lane of a written group is the lane written (R120). -/
theorem State.lane_writeGroup (s : State) (g : Group) (lanes : List (BitVec s.wordSize))
    (h : lanes.length = 512 / s.wordSize) (i : Nat) (hi : i < lanes.length) :
    (s.writeGroup g (bytesOf lanes)).lane s.wordSize g i = lanes[i] := by
  have hl : i < 512 / s.wordSize := h ▸ hi
  have hr := State.readGroup_writeGroup s g _ (length_bytesOf_lanes h)
  unfold State.readGroup at hr
  obtain ⟨k, h1, h2, h3, h4, h5⟩ := s.wordSize_split
  rw [State.lane, State.readPool_part _ _ 64 _ _ (lane_fits hl), hr, take_drop_bytesOf _ i hi,
    ofBytes_toBytes_of_eq (by omega)]

/-- Everything that a lane operation followed by the end of its instruction does (R122 to R126). -/
theorem State.groupOp_stored (s : State) (g : Group) (src : Operand)
    (op : BitVec s.wordSize → BitVec s.wordSize → BitVec s.wordSize) (len : Nat) :
    StoredLanes s ((s.groupOp g src op).advance len) g len
      fun i => op (s.lane s.wordSize g i) (s.sourceLane s.wordSize src i) := by
  have hz : (List.zipWith op (lanesOf s.wordSize (s.readGroup g)) (s.sourceLanes src)).length = 512 / s.wordSize := by
    simp
  refine ⟨fun i hi => ?_, rfl, rfl, ?_, ?_⟩
  · have h1 := State.lane_writeGroup s g _ hz i (by rw [hz]; exact hi)
    have h2 : ((s.groupOp g src op).advance len).lane s.wordSize g i = (s.groupOp g src op).lane s.wordSize g i := rfl
    rw [h2, State.groupOp, h1, List.getElem_zipWith, State.getElem_lanesOf_group, State.getElem_sourceLanes]
  · exact KeepsData.trans (State.writeGroup_keeps s g _ (length_bytesOf_lanes hz)) (State.advance_keeps _ len _ _ _) rfl
  · exact (State.writeGroup_host s g _).trans (State.advance_host _ len)

/-- What a lane operation of floating-point mode leaves unchanged (R126, R130). -/
theorem State.groupFloat_keeps (s : State) (g : Group) (src : Operand) (op : Config.FloatOp) (len : Nat) :
    KeepsData s ((s.groupFloat g src op).advance len) [.simd g] [] [] ∧
      KeepsHost s ((s.groupFloat g src op).advance len) := by
  have hs : (s.sourceArgs src).length = 512 / s.wordSize := by cases src <;> simp [State.sourceArgs]
  have hz : ∀ f : BitVec s.wordSize → Config.FloatArg → BitVec s.wordSize,
      (List.zipWith f (lanesOf s.wordSize (s.readGroup g)) (s.sourceArgs src)).length = 512 / s.wordSize := by
    intro f; simp [hs]
  exact ⟨KeepsData.trans (State.writeGroup_keeps s g _ (length_bytesOf_lanes (hz _)))
    (State.advance_keeps _ len _ _ _) rfl, (State.writeGroup_host s g _).trans (State.advance_host _ len)⟩

/-! ### Complementing a group -/

/-- Byte `j` of joined lanes is a byte of lane `j / k`. -/
theorem getElem?_bytesOf {W : Nat} (lanes : List (BitVec W)) (hk : 0 < W / 8) (j : Nat)
    (hj : j / (W / 8) < lanes.length) :
    (bytesOf lanes)[j]? = (toBytes (W / 8) lanes[j / (W / 8)])[j % (W / 8)]? := by
  have h := congrArg (·[j % (W / 8)]?) (take_drop_bytesOf lanes (j / (W / 8)) hj)
  have hm : j % (W / 8) < W / 8 := Nat.mod_lt _ hk
  have hs : j / (W / 8) * (W / 8) + j % (W / 8) = j := Nat.div_add_mod' j (W / 8)
  simp only [List.getElem?_take, List.getElem?_drop, hm, if_true, hs] at h
  exact h

/-- The bytes of a complement are the complements of the bytes. -/
theorem toBytes_not {n N : Nat} (h : N = 8 * n) (v : BitVec N) : toBytes n (~~~v) = (toBytes n v).map (~~~ ·) := by
  simp only [toBytes, List.map_map]
  apply List.map_congr_left
  intro i hi
  have hi : i < n := List.mem_range.mp hi
  apply BitVec.eq_of_getLsbD_eq
  intro b hb
  have : 8 * (n - 1 - i) + b < N := by omega
  simp [hb, this]

/-- Complementing every lane complements every byte (R127). -/
theorem bytesOf_not {W : Nat} (hW : W = 8 * (W / 8)) (h0 : 0 < W / 8) (bs : List Byte)
    (hl : bs.length = 512 / W * (W / 8)) (other : List (BitVec W)) (ho : other.length = 512 / W) :
    bytesOf (List.zipWith (fun a _ => ~~~a) (lanesOf W bs) other) = bs.map (~~~ ·) := by
  have hz : (List.zipWith (fun a (_ : BitVec W) => ~~~a) (lanesOf W bs) other).length = 512 / W := by simp [ho]
  apply List.ext_getElem?
  intro j
  by_cases hj : j < bs.length
  · have hd : j / (W / 8) < 512 / W := by
      rw [Nat.div_lt_iff_lt_mul h0]; omega
    have hm : j % (W / 8) < W / 8 := Nat.mod_lt _ h0
    have hs : j / (W / 8) * (W / 8) + j % (W / 8) = j := Nat.div_add_mod' j (W / 8)
    have hfit : j / (W / 8) * (W / 8) + W / 8 ≤ bs.length := by
      have : (j / (W / 8) + 1) * (W / 8) ≤ 512 / W * (W / 8) := Nat.mul_le_mul_right _ hd
      rw [Nat.add_mul] at this; omega
    rw [getElem?_bytesOf _ h0 j (by rw [hz]; exact hd), List.getElem_zipWith, getElem_lanesOf, toBytes_not hW]
    have hlen : ((bs.drop (j / (W / 8) * (W / 8))).take (W / 8)).length = W / 8 := by simp; omega
    have hb := toBytes_ofBytes W ((bs.drop (j / (W / 8) * (W / 8))).take (W / 8)) (by rw [hlen]; exact hW)
    rw [hlen] at hb
    rw [hb, List.getElem?_map, List.getElem?_map, List.getElem?_take, if_pos hm, List.getElem?_drop, hs]
  · rw [List.getElem?_eq_none (by rw [length_bytesOf, hz]; omega), List.getElem?_eq_none (by simp; omega)]

end Sys2Proof.Machine
end

