-- ==== Sys2Proof/Laws/Transfer.lean ====
section
/-! SUPPORT. `mw`: what moving the window does (spec/44_data_transfer.md R193, R194). -/

namespace Sys2Proof.Machine

theorem State.moveWindow_mem (s : State) (new : Word) :
    (s.moveWindow new).mem = s.mem.writeBytes s.wl (s.readPool 0x00#8 128) := by
  unfold State.moveWindow; rfl

theorem State.moveWindow_pool (s : State) (new : Word) :
    (s.moveWindow new).pool = s.pool.writeBytes 0x00#8 ((s.moveWindow new).readBytes new 128) := by
  have h : (s.moveWindow new).pool =
      s.pool.writeBytes 0x00#8 ((s.writeBytes s.wl (s.readPool 0x00#8 128)).readBytes new 128) := by
    unfold State.moveWindow; simp only [State.writePool_pool, State.writeBytes_pool]
  rw [h]; simp only [State.readBytes, State.moveWindow_mem, State.writeBytes_mem]

/-- After `mw` the old location holds the window, byte by byte (R193). -/
theorem State.moveWindow_readByte (s : State) (new x : Word) :
    (s.moveWindow new).readByte x = ((s.readPool 0x00#8 128)[(x - s.wl).toNat]?).getD (s.readByte x) := by
  rw [State.readByte, State.moveWindow_mem, Memory.read_writeBytes _ _ _ _ (by rw [State.length_readPool]; omega),
    State.readByte]

/-- After `mw` the window holds what memory then holds at the new location (R193). -/
theorem State.moveWindow_poolByte (s : State) (new : Word) (x : Byte) :
    (s.moveWindow new).poolByte x =
      (((s.moveWindow new).readBytes new 128)[(x - 0x00#8).toNat]?).getD (s.poolByte x) := by
  rw [State.poolByte, State.moveWindow_pool, Pool.byte_writeBytes _ _ _ _ (by rw [State.length_readBytes]; omega),
    State.poolByte]

@[simp] theorem State.moveWindow_wl (s : State) (new : Word) : (s.moveWindow new).wl = new := rfl
@[simp] theorem State.moveWindow_ip (s : State) (new : Word) : (s.moveWindow new).ip = s.ip := rfl
@[simp] theorem State.moveWindow_perr (s : State) (new : Word) : (s.moveWindow new).perr = s.perr := rfl
@[simp] theorem State.moveWindow_flg (s : State) (new : Word) : (s.moveWindow new).flg = s.flg := rfl
theorem State.moveWindow_host (s : State) (new : Word) : KeepsHost s (s.moveWindow new) := by constructor <;> rfl

/-- `mw` changes the window, `wl` and the 128 bytes at the old location (R193). -/
theorem State.moveWindow_keeps (s : State) (new : Word) :
    KeepsData s (s.moveWindow new) [.simd .w0, .simd .w1, .reg .wl] [] [⟨s.wl, 128⟩] where
  pool b hb := by
    have h0 := hb (.simd .w0) (by simp)
    have h1 := hb (.simd .w1) (by simp)
    have hb : 128 ≤ (b - 0x00#8).toNat := by
      simp [covers, inPoolRange, groupBase] at h0 h1
      have e : (b - 0x40#8).toNat = (256 - 64 + b.toNat) % 256 := by simp [BitVec.toNat_sub]
      simp only [BitVec.sub_zero]
      have := b.isLt
      omega
    rw [State.moveWindow_poolByte, List.getElem?_eq_none (by rw [State.length_readBytes]; exact hb), Option.getD_none]
  ar _ _ := rfl
  sp _ := rfl
  ap _ := rfl
  wl h := absurd (by simp) h
  rs _ := rfl
  flag _ _ := rfl
  wlb _ := rfl
  mem x hx := by
    have h : 128 ≤ (x - s.wl).toNat := by simpa [MemRange.holds] using hx
    rw [State.moveWindow_readByte, List.getElem?_eq_none (by rw [State.length_readPool]; exact h), Option.getD_none]

end Sys2Proof.Machine
end

