-- ==== Sys2Proof/Laws/Exec.lean ====
section
/-! SUPPORT. Everything that an instruction can change, said once: the operands, flags and memory it may write, and the
rules that every update of `flg`, memory and the pending error follows. -/

namespace Sys2Proof.Machine

/-! ### What an instruction may write -/

/-- The operands an instruction may write: its destinations, and the registers its own rule names. -/
def writesOf : Instr → List Operand
  | .mov (.reg .flg) _ => [.reg .flg, .wlb]
  | .mode _ => [.wlb]
  | .call _ => [.reg .sp, .reg .ap]
  | .ret _ => [.reg .sp, .reg .ap, .reg .rs]
  | .mw _ => [.simd .w0, .simd .w1, .reg .wl]
  | .alloc _ => [.reg .ap]
  | i => destsOf i

/-- The flags an instruction may write. -/
def flagsOf : Instr → List Flag
  | .add _ _ | .sub _ _ | .mul _ _ _ | .cmp _ _ | .alloc _ => [.ZF, .SF, .OF, .NOF, .EF, .SEF]
  | .div _ _ _ => [.ZF, .SF, .DZF, .EF]
  | .and _ _ | .or _ _ | .nor _ _ | .xor _ _ | .not _ => [.ZF, .SF, .EF, .SEF]
  | .ign _ => [.RF]
  | .mode _ => [.FMF]
  | .jfl c _ | .sfl c _ => if c = 5#3 then [.EF] else []
  | .call _ => [.RF]
  | .ret _ => [.RF, .EF]
  | .mov (.flag f) _ => [f, .EF, .SEF]
  | .mov (.reg .flg) _ => [.ZF, .SF, .OF, .NOF, .EF, .DZF, .RF, .SEF, .FMF]
  | .mov _ _ | .mw _ | .ioChan _ | .inp _ _ | .out _ _ | .outs _ | .seek _ => [.EF, .SEF]
  | .exit _ | .inth _ | .nop | .exit1B _ | .exit1C _ | .exit1D _ | .exit1E _ | .exit1F _ => []

/-- The memory an instruction may store to. -/
def storesOf (i : Instr) (s : State) : List MemRange :=
  match i with
  | .mov (.mem m) src => [⟨s.ea m, (naturalWidth s.wordSize src).getD 0 / 8⟩]
  | .call _ => [⟨s.ap - 6#16, 6⟩]
  | .mw _ => [⟨s.wl, 128⟩]
  | .inp a b => [⟨s.ioVal a 16, (s.ioVal b 16).toNat - (s.ioVal a 16).toNat⟩]
  | _ => []

/-- The instruction may clear the error flag `f`: a branch that tests EF, or `mov` to the flag or to `flg` (R32, R181). -/
def mayClear (f : Flag) : Instr → Bool
  | .jfl c _ | .sfl c _ => decide (f = .EF) && c == 5#3
  | .mov (.flag g) _ => decide (f = g)
  | .mov (.reg .flg) _ => true
  | _ => false

/-! ### The rules every update follows -/

/-- Either nothing has been raised, or the last thing that happened to EF is an error (R226). -/
def ErrorRule (s t : State) : Prop :=
  (t.perr = s.perr ∧ (t.flag .EF = true → s.flag .EF = true)) ∨
    (t.flag .EF = true ∧ ∃ code, t.perr = if t.flag .RF then some code else s.perr)

/-- From `s` to `t`: the frame; memory keeps its form; `flg` is untouched or written in its form; the rule of errors; and an
error flag is not cleared, but where `clears` says so. -/
structure Does (s t : State) (ds : List Operand) (fs : List Flag) (ms : List MemRange) (clears : Flag → Bool) : Prop where
  data : KeepsData s t ds fs ms
  memory : s.mem.wf = true → t.mem.wf = true
  flg : t.flg = s.flg ∨ flgForm t.flg = t.flg
  error : ErrorRule s t
  kept : ∀ f, f = .EF ∨ f = .SEF → clears f = false → s.flag f = true → t.flag f = true

theorem Does.mono {s t : State} {ds ds' : List Operand} {fs fs' : List Flag} {ms ms' : List MemRange}
    {c c' : Flag → Bool} (h : Does s t ds fs ms c)
    (hd : ds ⊆ ds' := by first | (simp; done) | simp [writesOf, destsOf])
    (hf : fs ⊆ fs' := by first | (simp; done) | simp [flagsOf])
    (hm : ms ⊆ ms' := by first | (simp; done) | simp [storesOf])
    (hc : ∀ f, c' f = false → c f = false := by intros; rfl) : Does s t ds' fs' ms' c' where
  data := h.data.mono hd hf hm
  memory := h.memory
  flg := h.flg
  error := h.error
  kept f hf' hc' := h.kept f hf' (hc f hc')

/-- An update that does not touch `flg` or the pending error. -/
theorem Does.of_data {s t : State} {ds : List Operand} {fs : List Flag} {ms : List MemRange} {c : Flag → Bool}
    (h : KeepsData s t ds fs ms) (hm : s.mem.wf = true → t.mem.wf = true) (hf : t.flg = s.flg)
    (hp : t.perr = s.perr) : Does s t ds fs ms c := by
  have hflag : ∀ f, t.flag f = s.flag f := fun f => by simp only [State.flag, State.flgRead, hf]
  exact ⟨h, hm, .inl hf, .inl ⟨hp, by simp [hflag]⟩, fun f _ _ hs => by rw [hflag, hs]⟩

/-- Moving `ip` on touches nothing of a frame. -/
theorem KeepsData.advance {s t : State} {ds : List Operand} {fs : List Flag} {ms : List MemRange}
    (h : KeepsData s t ds fs ms) (n : Nat) : KeepsData s (t.advance n) ds fs ms :=
  ⟨h.pool, h.ar, h.sp, h.ap, h.wl, h.rs, h.flag, h.wlb, h.mem⟩

/-- `flg` after a raise, and the rule of errors. -/
theorem ErrorRule.of_raises {s t : State} {c : Bool} {code : Byte} (h : Raises s t c code)
    (hrf : t.flag .RF = s.flag .RF) : ErrorRule s t := by
  obtain ⟨h1, h2⟩ := h
  cases c
  · left; simpa [h1] using h2
  · exact .inr ⟨by simp [h1], code, by simp [h2, hrf]⟩

theorem flgForm_setFlag (s : State) (f : Flag) (b : Bool) : flgForm (s.setFlag f b).flg = (s.setFlag f b).flg := by
  simp

theorem formed_raiseIf {s u : State} (h : u.flg = s.flg ∨ flgForm u.flg = u.flg) (c : Bool) (code : Byte) :
    (u.raiseIf c code).flg = s.flg ∨ flgForm (u.raiseIf c code).flg = (u.raiseIf c code).flg := by
  cases c
  · exact h
  · right; exact flgForm_setFlag u .EF true

theorem formed_setZeroSign (s : State) (zf agree sf : Bool) :
    flgForm (s.setZeroSign zf agree sf).flg = (s.setZeroSign zf agree sf).flg := by
  unfold State.setZeroSign; split <;> simp

theorem formed_setArithFlags {N : Nat} (s : State) (r : ArithResult N) (agree : Bool) :
    flgForm (s.setArithFlags r agree).flg = (s.setArithFlags r agree).flg := by
  unfold State.setArithFlags; simp

theorem State.writeOp_mem (s : State) {d : Operand} {N : Nat} (v : BitVec N) (h : isScalarDest d) :
    (s.writeOp d v).mem = s.mem := by
  obtain ⟨a, rfl⟩ | ⟨r, rfl, hr⟩ := h.cases
  · rfl
  · exact State.writeReg_mem s r _

/-! ### The shared operations -/

theorem State.halt_does (s : State) (code : Byte) : Does s (s.halt code) [] [] [] fun _ => false :=
  Does.of_data (State.halt_keeps s code _ _ _) id rfl rfl

theorem State.simdError_does (s : State) (len : Nat) : Does s (s.simdError len) [] [.SEF, .EF] [] fun _ => false where
  data := (State.simdError_raised s len).data
  memory := id
  flg := .inr (flgForm_setFlag (s.setFlag .SEF true) .EF true)
  error := .of_raises (State.simdError_raised s len).error ((State.simdError_raised s len).data.flag .RF (by decide))
  kept f hf _ hs := by
    rcases hf with rfl | rfl
    · rw [(State.simdError_raised s len).error.1, hs]; rfl
    · exact (State.simdError_raised s len).sef

theorem State.storeArith_does {N : Nat} (s : State) {d : Operand} (len : Nat) (agree : Bool) (r : ArithResult N)
    (hd : isScalarDest d) (hN : naturalWidth s.wordSize d = some N) :
    Does s (s.storeArith d len agree r) [d] [.ZF, .SF, .OF, .NOF, .EF] [] fun _ => false := by
  obtain ⟨-, -, -, -, -, -, he, hk, -⟩ := State.storeArith_spec s len agree r hd hN
  refine ⟨hk, ?_, ?_, .of_raises he (hk.flag .RF (by decide)), fun f hf _ hs => ?_⟩
  · simp [State.storeArith, State.writeOp_mem _ _ hd]
  · refine formed_raiseIf (.inr ?_) _ _
    rw [State.finish_flg, State.writeOp_flg _ _ hd]; exact formed_setArithFlags _ _ _
  · rcases hf with rfl | rfl
    · rw [he.1, hs]; rfl
    · rw [hk.flag .SEF (by decide), hs]

theorem State.flagsOfArith_does {N : Nat} (s : State) (len : Nat) (agree : Bool) (r : ArithResult N) :
    Does s (((s.setArithFlags r agree).advance len).raiseIf r.nof signBitOverflowCode) [] [.ZF, .SF, .OF, .NOF, .EF] []
      fun _ => false := by
  obtain ⟨-, -, -, -, -, he, hk, -⟩ := State.flagsOfArith_spec s len agree r
  refine ⟨hk, by simp, ?_, .of_raises he (hk.flag .RF (by decide)), fun f hf _ hs => ?_⟩
  · refine formed_raiseIf (.inr ?_) _ _
    exact formed_setArithFlags _ _ _
  · rcases hf with rfl | rfl
    · rw [he.1, hs]; rfl
    · rw [hk.flag .SEF (by decide), hs]

theorem State.storeLogic_does {N : Nat} (s : State) {d : Operand} (len : Nat) (agree : Bool) (r : BitVec N)
    (hd : isScalarDest d) (hN : naturalWidth s.wordSize d = some N) :
    Does s (s.storeLogic d len agree r) [d] [.ZF, .SF] [] fun _ => false := by
  have h := State.storeLogic_spec s len agree r hd hN
  have hk : ∀ f, f = .EF ∨ f = .SEF → (s.storeLogic d len agree r).flag f = s.flag f := by
    intro f hf; rcases hf with rfl | rfl <;> exact h.data.flag _ (by decide)
  refine ⟨h.data, ?_, .inr ?_, .inl ⟨h.perr, ?_⟩, fun f hf _ hs => ?_⟩
  · simp [State.storeLogic, State.writeOp_mem _ _ hd]
  · rw [State.storeLogic, State.finish_flg, State.writeOp_flg _ _ hd]; exact formed_setZeroSign _ _ _ _
  · rw [hk .EF (.inl rfl)]; exact id
  · rw [hk f hf, hs]

/-- Storing two results keeps memory and `flg`. -/
theorem State.storeTwo_mem_flg {N : Nat} (s : State) {d1 d2 : Operand} (len : Nat) (v1 v2 : BitVec N)
    (h1 : isScalarDest d1) (h2 : isScalarDest d2) :
    (s.storeTwo d1 d2 len v1 v2).mem = s.mem ∧ (s.storeTwo d1 d2 len v1 v2).flg = s.flg := by
  have h : (if d1 = d2 then s else s.writeOp d1 v1).mem = s.mem ∧
      (if d1 = d2 then s else s.writeOp d1 v1).flg = s.flg := by
    split
    · exact ⟨rfl, rfl⟩
    · exact ⟨State.writeOp_mem s v1 h1, State.writeOp_flg s v1 h1⟩
  simp only [State.storeTwo]
  split
  · exact ⟨(State.writeOp_mem _ v2 h2).trans h.1, (State.writeOp_flg _ v2 h2).trans h.2⟩
  · rw [State.finish_mem, State.finish_flg]
    exact ⟨(State.writeOp_mem _ v2 h2).trans h.1, (State.writeOp_flg _ v2 h2).trans h.2⟩

theorem State.storeProduct_does {N : Nat} (s : State) {hi lo : Operand} (len : Nat) (agree : Bool) (r : ArithResult N)
    (high : BitVec N) (h1 : isScalarDest hi) (h2 : isScalarDest lo) (w1 : naturalWidth s.wordSize hi = some N)
    (w2 : naturalWidth s.wordSize lo = some N)
    (hc : hi ≠ lo → ∀ b, covers s.wordSize hi b = true → covers s.wordSize lo b = false) :
    Does s (s.storeProduct hi lo len agree r high) [hi, lo] [.ZF, .SF, .OF, .NOF, .EF] [] fun _ => false := by
  obtain ⟨-, -, -, -, -, -, -, he, hp, hk, -⟩ := State.storeProduct_spec s len agree r high h1 h2 w1 w2 hc
  have hm := State.storeTwo_mem_flg (s.setArithFlags r agree) len high r.value h1 h2
  refine ⟨hk, ?_, ?_, ?_, fun f hf _ hs => ?_⟩
  · simp [State.storeProduct, hm.1]
  · refine formed_raiseIf (formed_raiseIf (.inr ?_) _ _) _ _
    rw [hm.2]; exact formed_setArithFlags _ _ _
  · cases hx : (r.of || r.nof) with
    | false => left; simp only [he, hp, hx]; simp
    | true =>
      right
      rw [he, hp, hx, hk.flag .RF (by decide)]
      refine ⟨by simp, if r.nof then 0x05#8 else 0x04#8, ?_⟩
      cases s.flag .RF <;> cases r.nof <;> simp
  · rcases hf with rfl | rfl
    · rw [he, hs]; rfl
    · rw [hk.flag .SEF (by decide), hs]

theorem State.storeQuotient_does {N : Nat} (s : State) {m q : Operand} (len : Nat) (agree zf sf : Bool)
    (modulo quotient : BitVec N) (h1 : isScalarDest m) (h2 : isScalarDest q)
    (w1 : naturalWidth s.wordSize m = some N) (w2 : naturalWidth s.wordSize q = some N)
    (hc : m ≠ q → ∀ b, covers s.wordSize m b = true → covers s.wordSize q b = false) :
    Does s (s.storeQuotient m q len agree zf sf modulo quotient) [m, q] [.ZF, .SF, .DZF] [] fun _ => false := by
  obtain ⟨-, -, -, -, -, -, hp, hk, -⟩ := State.storeQuotient_spec s len agree zf sf modulo quotient h1 h2 w1 w2 hc
  have hm := State.storeTwo_mem_flg ((s.setFlag .DZF false).setZeroSign zf agree sf) len modulo quotient h1 h2
  refine ⟨hk, ?_, .inr ?_, .inl ⟨hp, ?_⟩, fun f hf _ hs => ?_⟩
  · simp [State.storeQuotient, hm.1]
  · rw [State.storeQuotient, hm.2]; exact formed_setZeroSign _ _ _ _
  · rw [hk.flag .EF (by decide)]; exact id
  · rcases hf with rfl | rfl <;> rw [hk.flag _ (by decide), hs]

theorem State.divideByZero_does (s : State) (len : Nat) :
    Does s (s.divideByZero len) [] [.DZF, .EF] [] fun _ => false := by
  obtain ⟨-, he, -, hk, -⟩ := State.divideByZero_spec s len
  refine ⟨hk, id, .inr (flgForm_setFlag (s.setFlag .DZF true) .EF true), .of_raises he (hk.flag .RF (by decide)),
    fun f hf _ hs => ?_⟩
  rcases hf with rfl | rfl
  · rw [he.1, hs]; rfl
  · rw [hk.flag .SEF (by decide), hs]

/-- A two-operand instruction (R121). -/
theorem aluCases_does {s t : State} {d src : Operand} {len : Nat} {lanes : Group → State} {scalar : State}
    {fs : List Flag} (hf : [Flag.SEF, .EF] ⊆ fs)
    (hl : ∀ g, KeepsData s ((lanes g).advance len) [.simd g] [] [] ∧ (lanes g).mem = s.mem ∧
      (lanes g).flg = s.flg ∧ (lanes g).perr = s.perr)
    (hs : isScalarDest d → Does s scalar [d] fs [] fun _ => false)
    (h : aluCases d src len s lanes scalar = .next t) : Does s t [d] fs [] fun _ => false := by
  rcases aluCases_next h with rfl | ⟨g, rfl, rfl⟩ | rfl | ⟨hd, rfl⟩
  · exact (State.halt_does s _).mono
  · obtain ⟨h1, h2, h3, h4⟩ := hl g
    exact Does.of_data (h1.mono) (by simp [h2]) h3 h4
  · exact (State.simdError_does s len).mono (by simp) hf
  · exact hs hd

theorem groupOp_lanes (s : State) (src : Operand) (op : BitVec s.wordSize → BitVec s.wordSize → BitVec s.wordSize)
    (len : Nat) (g : Group) :
    KeepsData s ((s.groupOp g src op).advance len) [.simd g] [] [] ∧ (s.groupOp g src op).mem = s.mem ∧
      (s.groupOp g src op).flg = s.flg ∧ (s.groupOp g src op).perr = s.perr :=
  ⟨(State.groupOp_stored s g src op len).data, rfl, rfl, rfl⟩

theorem groupFloat_lanes (s : State) (src : Operand) (op : Config.FloatOp) (len : Nat) (g : Group) :
    KeepsData s ((s.groupFloat g src op).advance len) [.simd g] [] [] ∧ (s.groupFloat g src op).mem = s.mem ∧
      (s.groupFloat g src op).flg = s.flg ∧ (s.groupFloat g src op).perr = s.perr :=
  ⟨(State.groupFloat_keeps s g src op len).1, rfl, rfl, rfl⟩

theorem logicCases_does {s t : State} {d src : Operand} {len : Nat}
    {op : ∀ {N : Nat}, BitVec N → BitVec N → BitVec N} (h : logicCases d src len s op = .next t) :
    Does s t [d] [.ZF, .SF, .EF, .SEF] [] fun _ => false :=
  aluCases_does (by simp) (groupOp_lanes s src op len)
    (fun hd => (State.storeLogic_does s len _ _ hd (hd.width s src)).mono) h

theorem State.scalarSub_does (s : State) {d src : Operand} (len : Nat) (hd : isScalarDest d) :
    Does s (s.scalarSub d src len) [d] [.ZF, .SF, .OF, .NOF, .EF] [] fun _ => false :=
  State.storeArith_does s len _ _ hd (hd.width s src)

/-- `mov` between scalars and memory (R190). -/
theorem State.movScalar_does (s : State) {d src : Operand} (len : Nat) (hv : badMov d src = none)
    (hd : isSimd d = false) (hs : isSimd src = false) :
    Does s (s.movScalar d src len) (writesOf (.mov d src)) (flagsOf (.mov d src)) (storesOf (.mov d src) s)
      fun f => mayClear f (.mov d src) := by
  have scalar : isScalarDest d → Does s (s.movScalar d src len) [d] [] [] fun _ => false := fun h =>
    Does.of_data ((State.writeOp_keeps s _ h).trans (State.finish_keeps _ d len _ _ _) (State.writeOp_wordSize s _ h))
      (by simp [State.movScalar, State.writeOp_mem s _ h]) (by simp [State.movScalar, State.writeOp_flg s _ h])
      (by simp [State.movScalar, State.writeOp_perr s _ h])
  cases d with
  | pool a => exact (scalar ⟨rfl, rfl, rfl⟩).mono (by simp [writesOf, destsOf])
  | lit v => simp [badMov, Operand.isLit] at hv
  | simd g => simp [isSimd] at hd
  | wlb =>
    have hk := State.setWlb_keeps s ((s.readOp src (s.widthBeside .wlb src)).setWidth 2)
    refine ⟨(hk.mono (by simp [writesOf, destsOf])).advance len, id, .inr (flgForm_flgWithWlb _ _), .inl ⟨rfl, ?_⟩, fun f _ _ hf => ?_⟩
    · exact fun h => (State.setWlb_flag s _ .EF).symm.trans h
    · exact (State.setWlb_flag s _ f).trans hf
  | flag g =>
    generalize hv : s.readOp src (s.widthBeside (.flag g) src) = v
    have hk := State.setFlag_keeps s g (v.getLsbD 0)
    have he := State.raiseIf_keeps (s.setFlag g (v.getLsbD 0)) (decide (g = .EF) && v.getLsbD 0) unresolvedErrorCode
    have e : s.movScalar (.flag g) src len =
        ((s.setFlag g (v.getLsbD 0)).raiseIf (decide (g = .EF) && v.getLsbD 0) unresolvedErrorCode).advance len := by
      rw [← hv]; rfl
    rw [e]
    show Does s _ [.flag g] [g, .EF, .SEF] [] fun f => decide (f = g)
    refine ⟨(KeepsData.trans hk.mono he.mono (by simp)).advance len, id,
      formed_raiseIf (.inr (flgForm_setFlag s g _)) _ unresolvedErrorCode, ?_, fun f _ hc hf => ?_⟩
    · simp only [ErrorRule, State.advance_perr, State.advance_flag, State.raiseIf_perr, State.raiseIf_flag,
        State.setFlag_flag, State.setFlag_perr]
      by_cases hg : g = .EF
      · subst hg
        cases v.getLsbD 0
        · left; simp
        · right; simp only [decide_true, Bool.true_and, if_true]; exact ⟨rfl, _, rfl⟩
      · left; simp [hg, Ne.symm hg]
    · have hg : f ≠ g := by simpa using hc
      simp [State.raiseIf_flag, State.setFlag_flag, hg, hf]
  | mem m =>
    have hm : src.isMem = false := by simpa [badMov, Operand.isLit, Operand.isMem] using hv
    obtain ⟨n, hn⟩ : ∃ n, naturalWidth s.wordSize src = some n := by
      cases src <;> first | exact ⟨_, rfl⟩ | simp [Operand.isMem] at hm
    have hw : s.widthBeside (.mem m) src = n := by rw [State.widthBeside, hn]; rfl
    have hle : n ≤ 512 := by
      have := s.wordSize_cases
      cases src with
      | reg r => cases r <;> simp [naturalWidth, regWidth] at hn <;> omega
      | lit v => cases v <;> simp [naturalWidth, litWidth] at hn <;> omega
      | _ => simp [naturalWidth] at hn <;> omega
    have hk := State.writeBytes_keeps s (s.ea m)
      (toBytes (s.widthBeside (.mem m) src / 8) (s.readOp src (s.widthBeside (.mem m) src)))
      (by rw [length_toBytes, hw]; omega)
    rw [length_toBytes, hw] at hk
    have hst : storesOf (.mov (.mem m) src) s = [⟨s.ea m, n / 8⟩] := by simp [storesOf, hn]
    rw [hst]
    have e : s.movScalar (.mem m) src len = (s.writeBytes (s.ea m) (toBytes (n / 8) (s.readOp src n))).advance len := by
      rw [← hw]; rfl
    rw [e]
    exact Does.of_data (hk.mono.advance len) (fun h => Memory.wf_writeBytes h _ _) rfl rfl
  | reg r =>
    by_cases hr : r = .flg
    · subst hr
      generalize hv : (s.readOp src (s.widthBeside (.reg .flg) src)).setWidth 16 = v
      have e : s.movScalar (.reg .flg) src len =
          ((s.setFlg v).raiseIf (v.getLsbD 10) unresolvedErrorCode).advance len := by rw [← hv]; rfl
      rw [e]
      have hk := State.setFlg_keeps s v
      have he := State.raiseIf_keeps (s.setFlg v) (v.getLsbD 10) unresolvedErrorCode
      refine ⟨KeepsData.advance ?_ len, id, formed_raiseIf (.inr (flgForm_flgForm v)) _ unresolvedErrorCode, ?_, fun f _ hc _ => ?_⟩
      · exact {
          pool := fun x hx => (he.pool x (by simp)).trans (hk.pool x fun d hd => hx d (by simp_all [writesOf]))
          ar := fun k _ => (he.ar k (by simp)).trans (hk.ar k (by simp))
          sp := fun _ => (he.sp (by simp)).trans (hk.sp (by simp))
          ap := fun _ => (he.ap (by simp)).trans (hk.ap (by simp))
          wl := fun _ => (he.wl (by simp)).trans (hk.wl (by simp))
          rs := fun _ => (he.rs (by simp)).trans (hk.rs (by simp))
          flag := fun f hf =>
            (he.flag f fun h => hf (by simp_all [flagsOf])).trans (hk.flag f fun h => hf (by simp_all [flagsOf]))
          wlb := fun h => absurd (by simp [writesOf]) h
          mem := fun x _ => (he.mem x (by simp)).trans (hk.mem x (by simp)) }
      · simp only [ErrorRule, State.advance_perr, State.advance_flag, State.raiseIf_perr, State.raiseIf_flag,
          State.setFlg_flag, State.setFlg_perr]
        cases hx : v.getLsbD 10
        · left; simp only [flagBit, hx]; simp
        · right; simp only [decide_true, Bool.true_and]; exact ⟨rfl, _, rfl⟩
      · simp [mayClear] at hc
    · exact (scalar ⟨rfl, rfl, by cases r <;> first | rfl | exact absurd rfl hr⟩).mono
        (by cases r <;> simp_all [writesOf, destsOf])

/-! ### The instructions that take a number or transfer bytes -/

theorem advanceOutcome_next {o : StepOutcome} {len : Nat} {t : State} (h : advanceOutcome len o = .next t) :
    ∃ u, o = .next u ∧ t = u.advance len := by
  cases o with
  | next u => exact ⟨u, rfl, by simpa [advanceOutcome] using h.symm⟩
  | fault f => cases h
  | refused r => cases h

/-- How `in` and `out` can end in a next state. -/
theorem rangeCases_next {s t : State} {a b : Operand} {len : Nat} {transfer : Word → Nat → StepOutcome}
    (h : rangeCases a b len s transfer = .next t) :
    t = s.invalidInstruction ∨ t = s.simdError len ∨
      ∃ u, transfer (s.ioVal a 16) ((s.ioVal b 16).toNat - (s.ioVal a 16).toNat) = .next u ∧ t = u.advance len := by
  unfold rangeCases at h
  split at h
  · exact .inl (by simpa using h.symm)
  split at h
  · exact .inr (.inl (by simpa using h.symm))
  split at h
  · cases h
  split at h
  · cases h
  · exact .inr (.inr (advanceOutcome_next h))

/-- A store of some of the bytes of a range. -/
theorem State.writeBytes_keeps_within (s : State) (a : Word) (bs : List Byte) (n : Nat) (h : bs.length ≤ n)
    (hn : bs.length ≤ 65536) : KeepsData s (s.writeBytes a bs) [] [] [⟨a, n⟩] := by
  have hk := State.writeBytes_keeps s a bs hn
  refine { hk with mem := fun x hx => hk.mem x ?_ }
  intro r hr
  have hx := hx ⟨a, n⟩ (by simp)
  rw [List.mem_singleton.mp hr]
  simp only [MemRange.holds, decide_eq_false_iff_not, Nat.not_lt] at hx ⊢
  omega

/-- What a next input changes: the waiting inputs or the count of questions (R204). -/
theorem State.nextInput_spec {s u : State} {input : List Byte} (h : s.nextInput = some (input, u)) :
    (s.conIn = input :: u.conIn ∨ u.conIn = s.conIn) ∧ ∃ w n, u = { s with conIn := w, hostAsked := n } := by
  unfold State.nextInput at h
  split at h
  · rename_i i rest e
    simp only [Option.some.injEq, Prod.mk.injEq] at h
    obtain ⟨rfl, rfl⟩ := h
    exact ⟨.inl e, rest, s.hostAsked, rfl⟩
  · rename_i e
    rw [Option.map_eq_some_iff] at h
    obtain ⟨i, -, h⟩ := h
    simp only [Prod.mk.injEq] at h
    obtain ⟨rfl, rfl⟩ := h
    exact ⟨.inr rfl, s.conIn, s.hostAsked + 1, rfl⟩

theorem State.inputFrom_does {s u : State} {a : Word} {cap : Nat} (hcap : cap ≤ 65536)
    (h : s.inputFrom a cap = .next u) : Does s u [] [] [⟨a, cap⟩] fun _ => false := by
  unfold State.inputFrom at h
  split at h
  · cases h
  · split at h
    · cases h
    · rename_i input s1 e
      obtain ⟨-, w, n, rfl⟩ := State.nextInput_spec e
      injection h with h; subst h
      have hk : KeepsData s { s with conIn := w, hostAsked := n } [] [] [⟨a, cap⟩] := by apply KeepsData.of_eq <;> rfl
      have hl : (input.take cap).length ≤ cap := List.length_take_le ..
      exact Does.of_data (hk.trans (State.writeBytes_keeps_within _ a _ cap hl (by omega)) rfl)
        (fun h => Memory.wf_writeBytes h _ _) rfl rfl
  · split at h
    · cases h
    · rename_i t e
      injection h with h; subst h
      have hk := State.beginTransfer_keeps e [] [] [⟨a, cap⟩]
      obtain ⟨-, -, n, e2⟩ := State.beginTransfer_ok e
      have hl : ((t.contents.drop s.fpos.toNat).take cap).length ≤ cap := List.length_take_le ..
      have hw : t.state.wordSize = s.wordSize := by rw [e2]; rfl
      refine Does.of_data ((hk.trans (State.writeBytes_keeps_within _ a _ cap hl (by omega)) hw).trans
        (State.movePosition_keeps _ _ _ _ _) hw) (fun h => Memory.wf_writeBytes ?_ _ _) ?_ ?_
      · rw [e2]; exact h
      · show t.state.flg = s.flg
        rw [e2]
      · show t.state.perr = s.perr
        rw [e2]

theorem State.sendBytes_does {s u : State} {bs : List Byte} (h : s.sendBytes bs = .next u) :
    Does s u [] [] [] fun _ => false := by
  unfold State.sendBytes at h
  split at h
  · cases h
  · injection h with h; subst h
    exact Does.of_data (by apply KeepsData.of_eq <;> rfl) id rfl rfl
  · split at h
    · cases h
    · rename_i t e
      obtain ⟨-, -, n, e2⟩ := State.beginTransfer_ok e
      injection h with h; subst h
      rw [e2]
      exact Does.of_data (by apply KeepsData.of_eq <;> rfl) id rfl rfl

/-- How `mov` can end in a next state (R190, R121). -/
theorem execMov_next {s t : State} {d src : Operand} (h : execMov d src s = .next t) :
    t = s.halt invalidInstructionCode ∨ t = s.simdError (Instr.mov d src).len ∨
      (∃ g, d = .simd g ∧ t = (s.groupOp g src fun _ x => x).advance (Instr.mov d src).len) ∨
      (∃ m g, d = .mem m ∧ src = .simd g ∧
        t = (s.writeBytes (s.ea m) (s.readGroup g)).advance (Instr.mov d src).len) ∨
      (badMov d src = none ∧ isSimd d = false ∧ isSimd src = false ∧ t = s.movScalar d src (Instr.mov d src).len) := by
  unfold execMov at h
  cases hv : badMov d src with
  | some why => simp only [hv, Option.isSome_some, if_true] at h; exact .inl (Host.Outcome.next.inj h).symm
  | none =>
    have scalar : (if s.operandFits d && s.operandFits src then
          (.next (s.movScalar d src (Instr.mov d src).len) : StepOutcome) else .refused .poolOverrun) = .next t →
        t = s.movScalar d src (Instr.mov d src).len := by
      intro h; split at h
      · exact (Host.Outcome.next.inj h).symm
      · cases h
    cases d with
    | simd g =>
      have e : (if s.operandFits src then
          (.next ((s.groupOp g src fun _ x => x).advance (Instr.mov (.simd g) src).len) : StepOutcome)
          else .refused .poolOverrun) = .next t := by rw [hv] at h; exact h
      split at e
      · exact .inr (.inr (.inl ⟨g, rfl, (Host.Outcome.next.inj e).symm⟩))
      · cases e
    | mem m =>
      cases src with
      | simd g =>
        rw [hv] at h
        exact .inr (.inr (.inr (.inl ⟨m, g, rfl, rfl, (Host.Outcome.next.inj h).symm⟩)))
      | _ => rw [hv] at h; exact .inr (.inr (.inr (.inr ⟨rfl, rfl, rfl, scalar h⟩)))
    | _ =>
      cases src with
      | simd g => rw [hv] at h; exact .inr (.inl (Host.Outcome.next.inj h).symm)
      | _ => rw [hv] at h; exact .inr (.inr (.inr (.inr ⟨rfl, rfl, rfl, scalar h⟩)))

/-! ### Branches -/

theorem Does.advance {s t : State} {ds : List Operand} {fs : List Flag} {ms : List MemRange} {c : Flag → Bool}
    (h : Does s t ds fs ms c) (n : Nat) : Does s (t.advance n) ds fs ms c :=
  ⟨h.data.advance n, h.memory, h.flg, h.error, h.kept⟩

theorem Does.jump {s t : State} {ds : List Operand} {fs : List Flag} {ms : List MemRange} {c : Flag → Bool}
    (h : Does s t ds fs ms c) (a : Word) : Does s (t.jump a) ds fs ms c :=
  ⟨⟨h.data.pool, h.data.ar, h.data.sp, h.data.ap, h.data.wl, h.data.rs, h.data.flag, h.data.wlb, h.data.mem⟩, h.memory,
    h.flg, h.error, h.kept⟩

/-- Testing a flag clears EF if that is the flag tested (R181). -/
theorem State.tested_does (s : State) (c : BitVec 3) :
    Does s (s.tested c) [] (if c = 5#3 then [.EF] else []) [] fun f => decide (f = .EF) && c == 5#3 := by
  unfold State.tested
  split
  · rename_i h
    refine ⟨State.setFlag_keeps s .EF false, id, .inr (flgForm_setFlag s .EF false), .inl ⟨rfl, ?_⟩, ?_⟩
    · simp [State.setFlag_flag]
    · intro f _ hc hs
      have hf : f ≠ .EF := by simpa [h] using hc
      simpa [State.setFlag_flag, hf] using hs
  · exact Does.of_data (KeepsData.refl s _ _ _) id rfl rfl

/-! ### Every instruction -/

/-- Everything an instruction can change, when it ends in a next state. -/
theorem exec_does {i : Instr} {s t : State} (h : exec i s = .next t) :
    Does s t (writesOf i) (flagsOf i) (storesOf i s) fun f => mayClear f i := by
  have halts : ∀ {c : Byte} {u : State}, u = s.halt c → ∀ ds fs ms cl, Does s u ds fs ms cl := fun e ds fs ms cl =>
    e ▸ (State.halt_does s _).mono
  cases i with
  | exit c => exact halts (by simpa [exec, execExit] using h.symm) ..
  | exit1B c => exact halts (by simpa [exec, execExit1B] using h.symm) ..
  | exit1C c => exact halts (by simpa [exec, execExit1C] using h.symm) ..
  | exit1D c => exact halts (by simpa [exec, execExit1D] using h.symm) ..
  | exit1E c => exact halts (by simpa [exec, execExit1E] using h.symm) ..
  | exit1F c => exact halts (by simpa [exec, execExit1F] using h.symm) ..
  | and d src => exact logicCases_does (op := fun a b => a &&& b) h
  | or d src => exact logicCases_does (op := fun a b => a ||| b) h
  | nor d src => exact logicCases_does (op := fun a b => ~~~(a ||| b)) h
  | xor d src => exact logicCases_does (op := fun a b => a ^^^ b) h
  | not d =>
    refine aluCases_does (by simp [flagsOf]) (groupOp_lanes s d _ _) (fun hd => ?_) h
    exact (State.storeLogic_does s _ true _ hd (hd.width s d)).mono
  | add d src =>
    refine aluCases_does (by simp [flagsOf]) (fun g => ?_) (fun hd => ?_) h
    · cases s.flag .FMF
      · exact groupOp_lanes s src _ _ g
      · exact groupFloat_lanes s src _ _ g
    · exact (State.storeArith_does s _ _ _ hd (hd.width s src)).mono
  | sub d src =>
    refine aluCases_does (by simp [flagsOf]) (fun g => ?_) (fun hd => ?_) h
    · cases s.flag .FMF
      · exact groupOp_lanes s src _ _ g
      · exact groupFloat_lanes s src _ _ g
    · exact (State.scalarSub_does s _ hd).mono
  | mul hi lo src =>
    simp only [exec, execMul] at h
    split at h
    · exact halts (by simpa [State.invalidInstruction] using h.symm) ..
    · rename_i hv
      split at h
      · cases h
      · rename_i hr
        injection h with h; subst h
        obtain ⟨h1, h2, w1, w2, hc⟩ := TwoDestinations.spec ⟨by simpa using hv, hr⟩
        unfold State.mulStep
        simp only
        split
        · exact (State.storeProduct_does s _ _ _ _ h1 h2 w1 w2 hc).mono
        · split <;> exact (State.storeProduct_does s _ _ _ _ h1 h2 w1 w2 hc).mono
  | div m q src =>
    simp only [exec, execDiv] at h
    split at h
    · exact halts (by simpa [State.invalidInstruction] using h.symm) ..
    · rename_i hv
      split at h
      · cases h
      · rename_i hr
        injection h with h; subst h
        obtain ⟨h1, h2, w1, w2, hc⟩ := TwoDestinations.spec ⟨by simpa using hv, hr⟩
        unfold State.divStep
        simp only
        split
        · split
          · exact (State.divideByZero_does s _).mono
          · exact (State.storeQuotient_does s _ _ _ _ _ _ h1 h2 w1 w2 hc).mono
        · split
          · exact (State.divideByZero_does s _).mono
          · exact (State.storeQuotient_does s _ _ _ _ _ _ h1 h2 w1 w2 hc).mono
  | cmp a b =>
    simp only [exec, execCmp] at h
    split at h
    · exact halts (by simpa [State.invalidInstruction] using h.symm) ..
    split at h
    · injection h with h; subst h; exact (State.simdError_does s _).mono
    split at h
    · injection h with h; subst h; exact (State.flagsOfArith_does s _ _ _).mono
    · cases h
  | alloc n =>
    simp only [exec, execAlloc] at h
    split at h
    · injection h with h; subst h; exact (State.simdError_does s _).mono
    split at h
    · injection h with h; subst h; exact (State.scalarSub_does s _ ⟨rfl, rfl, rfl⟩).mono
    · cases h
  | ign b =>
    injection h with h; subst h
    refine ⟨(State.setFlag_keeps s .RF _).advance _, id, .inr (flgForm_setFlag s .RF _), .inl ⟨rfl, ?_⟩, ?_⟩
    · simp [State.setFlag_flag]
    · intro f hf _ hs; rcases hf with rfl | rfl <;> simpa [State.setFlag_flag] using hs
  | mode imm =>
    simp only [exec, execMode] at h
    split at h
    · cases h
    · injection h with h; subst h
      have hw := State.setWlb_keeps s (imm.extractLsb' 0 2)
      have hk := State.setFlag_keeps (s.setWlb (imm.extractLsb' 0 2)) .FMF (imm.extractLsb' 4 4 != 0#4)
      refine ⟨KeepsData.advance ?_ _, id, .inr (flgForm_setFlag _ .FMF _), .inl ⟨rfl, ?_⟩, ?_⟩
      · exact {
          pool := fun x _ => (hk.pool x (by simp)).trans (hw.pool x (by simp [covers]))
          ar := fun k _ => (hk.ar k (by simp)).trans (hw.ar k (by simp))
          sp := fun _ => rfl
          ap := fun _ => rfl
          wl := fun _ => rfl
          rs := fun _ => rfl
          flag := fun f hf => (hk.flag f hf).trans (hw.flag f (by simp))
          wlb := fun h => absurd (by simp [writesOf]) h
          mem := fun _ _ => rfl }
      · simp [State.setFlag_flag]
      · intro f hf _ hs; rcases hf with rfl | rfl <;> simpa [State.setFlag_flag] using hs
  | jfl c target =>
    injection h with h; subst h
    split
    · exact (State.tested_does s c).jump target
    · exact (State.tested_does s c).advance _
  | sfl c target =>
    injection h with h; subst h
    split
    · exact (State.tested_does s c).advance _
    · exact (State.tested_does s c).jump target
  | call target =>
    injection h with h; subst h
    have k := KeepsData.trans (ds := []) (fs := [.RF]) (ms := [⟨s.ap - 6#16, 6⟩]) (s.pushFrame_keeps (s.ip + BitVec.ofNat 16 (Instr.call target).len)).mono
      (State.setFlag_keeps _ .RF true).mono rfl
    refine ⟨?_, ?_, .inr (flgForm_setFlag _ .RF true), .inl ⟨rfl, ?_⟩, ?_⟩
    · exact {
        pool := fun x _ => k.pool x (by simp)
        ar := fun j _ => k.ar j (by simp)
        sp := fun h => absurd (by simp [writesOf]) h
        ap := fun h => absurd (by simp [writesOf]) h
        wl := fun _ => k.wl (by simp)
        rs := fun _ => k.rs (by simp)
        flag := k.flag
        wlb := fun _ => k.wlb (by simp)
        mem := k.mem }
    · exact fun h => Memory.wf_writeBytes (Memory.wf_writeBytes (Memory.wf_writeBytes h _ _) _ _) _ _
    · exact fun h => (k.flag .EF (by decide)).symm.trans h
    · intro f hf _ hs; rcases hf with rfl | rfl <;> exact (k.flag _ (by decide)).trans hs
  | ret status =>
    have hk := State.setFlag_keeps s .RF true
    let s1 : State := { s.setFlag .RF true with
      ip := s.readWord s.sp
      sp := s.readWord (s.sp + 2#16)
      ap := s.readWord (s.sp + 4#16)
      rs := status }
    have hf : ∀ f, s1.flag f = (s.setFlag .RF true).flag f := fun _ => rfl
    have k1 : KeepsData s s1 [.reg .sp, .reg .ap, .reg .rs] [.RF, .EF] [] := {
      pool := fun x _ => hk.pool x (by simp)
      ar := fun _ _ => rfl
      sp := fun h => absurd (by simp) h
      ap := fun h => absurd (by simp) h
      wl := fun _ => rfl
      rs := fun h => absurd (by simp) h
      flag := fun f h => hk.flag f (by simp_all)
      wlb := fun _ => hk.wlb (by simp)
      mem := fun _ _ => rfl }
    have e : t = s1.raiseIf (status != 0#8) status := by
      have hx : exec (.ret status) s = .next (s1.raiseIf (status != 0#8) status) := rfl
      rw [hx] at h; injection h with h; exact h.symm
    subst e
    refine ⟨k1.trans (State.raiseIf_keeps s1 _ _).mono (State.setFlag_wordSize s .RF true), id,
      formed_raiseIf (.inr (flgForm_setFlag s .RF true)) _ status, ?_, ?_⟩
    · simp only [ErrorRule, State.raiseIf_perr, State.raiseIf_flag, hf, State.setFlag_flag]
      by_cases h0 : status = 0#8
      · left; simp [h0]
        show s1.perr = s.perr; rfl
      · right; simp [h0]
    · intro f hf' _ hs
      rcases hf' with rfl | rfl <;> simp [State.raiseIf_flag, hf, State.setFlag_flag, hs]
  | mov d src =>
    rcases execMov_next h with e | e | ⟨g, rfl, e⟩ | ⟨m, g, rfl, rfl, e⟩ | ⟨hv, hd, hs, e⟩
    · exact halts e ..
    · subst e
      cases d with
      | reg r => cases r <;> exact (State.simdError_does s _).mono
      | _ => exact (State.simdError_does s _).mono
    · subst e
      exact (Does.of_data (c := fun _ => false) (State.groupOp_stored s _ src _ _).data id rfl rfl).mono
    · subst e
      have hl : (s.readGroup g).length = 64 := by simp [State.readGroup]
      have hk := State.writeBytes_keeps s (s.ea m) (s.readGroup g) (by omega)
      rw [hl] at hk
      have hst : storesOf (.mov (.mem m) (.simd g)) s = [⟨s.ea m, 64⟩] := by simp [storesOf, naturalWidth]
      rw [hst]
      exact Does.of_data (hk.mono.advance _) (fun h => Memory.wf_writeBytes h _ _) rfl rfl
    · subst e; exact State.movScalar_does s _ hv hd hs
  | mw a =>
    simp only [exec, execMw] at h
    split at h
    · injection h with h; subst h; exact (State.simdError_does s _).mono
    split at h
    · injection h with h; subst h
      exact (Does.of_data ((State.moveWindow_keeps s _).advance _)
        (fun h => by rw [State.advance_mem, State.moveWindow_mem]; exact Memory.wf_writeBytes h _ _) rfl rfl).mono
        (by simp [writesOf]) (by simp) (by simp [storesOf])
    · cases h
  | ioChan c =>
    simp only [exec, execIoChan] at h
    split at h
    · injection h with h; subst h; exact (State.simdError_does s _).mono
    split at h
    · injection h with h; subst h
      exact Does.of_data (by apply KeepsData.of_eq <;> rfl) id rfl rfl
    · cases h
  | seek p =>
    simp only [exec, execSeek] at h
    split at h
    · injection h with h; subst h; exact (State.simdError_does s _).mono
    split at h
    · injection h with h; subst h
      exact Does.of_data (by apply KeepsData.of_eq <;> rfl) id rfl rfl
    · cases h
  | inp a b =>
    rcases rangeCases_next h with rfl | rfl | ⟨u, hu, rfl⟩
    · exact (State.halt_does s _).mono
    · exact (State.simdError_does s _).mono
    · have hl := (s.ioVal b 16).isLt
      have hd := State.inputFrom_does (by omega) hu
      exact ⟨(hd.data.mono (by simp) (by simp) (by simp [storesOf])).advance _, hd.memory, hd.flg, hd.error,
        fun f hf _ => hd.kept f hf rfl⟩
  | out a b =>
    simp only [exec, execOut] at h
    rcases rangeCases_next h with rfl | rfl | ⟨u, hu, rfl⟩
    · exact (State.halt_does s _).mono
    · exact (State.simdError_does s _).mono
    · have hd := State.sendBytes_does hu
      exact ⟨(hd.data.mono (by simp) (by simp) (by simp [storesOf])).advance _, hd.memory, hd.flg, hd.error,
        fun f hf _ => hd.kept f hf rfl⟩
  | outs a =>
    simp only [exec, execOuts] at h
    split at h
    · injection h with h; subst h; exact (State.simdError_does s _).mono
    split at h
    · split at h
      · cases h
      · obtain ⟨u, hu, rfl⟩ := advanceOutcome_next h
        have hd := State.sendBytes_does hu
        exact ⟨(hd.data.mono).advance _, hd.memory, hd.flg, hd.error, fun f hf _ => hd.kept f hf rfl⟩
    · cases h
  | inth a =>
    injection h with h; subst h
    exact Does.of_data (by apply KeepsData.of_eq <;> rfl) id rfl rfl
  | nop =>
    injection h with h; subst h
    exact Does.of_data (by apply KeepsData.of_eq <;> rfl) id rfl rfl

end Sys2Proof.Machine
end

