-- ==== Sys2Proof/Laws/ExecHost.lean ====
section
/-! SUPPORT. What an instruction can do to the host's side: the channel, the console and the files. -/

namespace Sys2Proof.Machine

/-- The instruction is one of the I/O instructions. -/
def isIo : Instr → Bool
  | .ioChan _ | .inp _ _ | .out _ _ | .outs _ | .seek _ => true
  | _ => false

/-- From `s` to `t` no file, console or channel has changed; the program may have halted, which closes the open file. -/
structure HostKept (s t : State) : Prop where
  chan : t.chan = s.chan
  conIn : t.conIn = s.conIn
  conLog : t.conLog = s.conLog
  files : t.files = s.files
  openFile : (t.halted = s.halted ∧ t.openFile = s.openFile) ∨ t.openFile = none

theorem HostKept.of_keeps {s t : State} (h : KeepsHost s t) : HostKept s t :=
  ⟨h.chan, h.conIn, h.conLog, h.files, .inl ⟨h.halted, h.openFile⟩⟩

theorem State.halt_hostKept (s : State) (code : Byte) : HostKept s (s.halt code) :=
  ⟨rfl, rfl, rfl, rfl, .inr rfl⟩

theorem aluCases_host {s t : State} {d src : Operand} {len : Nat} {lanes : Group → State} {scalar : State}
    (hl : ∀ g, KeepsHost s ((lanes g).advance len)) (hs : isScalarDest d → KeepsHost s scalar)
    (h : aluCases d src len s lanes scalar = .next t) : HostKept s t := by
  rcases aluCases_next h with rfl | ⟨g, rfl, rfl⟩ | rfl | ⟨hd, rfl⟩
  · exact s.halt_hostKept _
  · exact .of_keeps (hl g)
  · exact .of_keeps (s.simdError_raised len).host
  · exact .of_keeps (hs hd)

theorem logicCases_host {s t : State} {d src : Operand} {len : Nat}
    {op : ∀ {N : Nat}, BitVec N → BitVec N → BitVec N} (h : logicCases d src len s op = .next t) : HostKept s t :=
  aluCases_host (fun g => (State.groupOp_stored s g src op len).host)
    (fun hd => (State.storeLogic_spec s len _ _ hd (hd.width s src)).host) h

theorem State.scalarSub_host (s : State) {d src : Operand} (len : Nat) (hd : isScalarDest d) :
    KeepsHost s (s.scalarSub d src len) :=
  (State.storeArith_spec s len _ _ hd (hd.width s src)).2.2.2.2.2.2.2.2

/-- An instruction that is no I/O instruction leaves the host's side alone. -/
theorem exec_host {i : Instr} {s t : State} (hi : isIo i = false) (h : exec i s = .next t) : HostKept s t := by
  have halts : ∀ {c : Byte} {u : State}, u = s.halt c → HostKept s u := fun e => e ▸ s.halt_hostKept _
  cases i with
  | ioChan c => cases hi
  | inp a b => cases hi
  | out a b => cases hi
  | outs a => cases hi
  | seek p => cases hi
  | exit c => exact halts (Host.Outcome.next.inj h).symm
  | exit1B c => exact halts (Host.Outcome.next.inj h).symm
  | exit1C c => exact halts (Host.Outcome.next.inj h).symm
  | exit1D c => exact halts (Host.Outcome.next.inj h).symm
  | exit1E c => exact halts (Host.Outcome.next.inj h).symm
  | exit1F c => exact halts (Host.Outcome.next.inj h).symm
  | and d src => exact logicCases_host (op := fun a b => a &&& b) h
  | or d src => exact logicCases_host (op := fun a b => a ||| b) h
  | nor d src => exact logicCases_host (op := fun a b => ~~~(a ||| b)) h
  | xor d src => exact logicCases_host (op := fun a b => a ^^^ b) h
  | not d =>
    exact aluCases_host (fun g => (State.groupOp_stored s g d _ _).host)
      (fun hd => (State.storeLogic_spec s _ true _ hd (hd.width s d)).host) h
  | add d src =>
    refine aluCases_host (fun g => ?_) (fun hd => ?_) h
    · cases s.flag .FMF
      · exact (State.groupOp_stored s g src _ _).host
      · exact (State.groupFloat_keeps s g src _ _).2
    · exact (State.storeArith_spec s _ _ _ hd (hd.width s src)).2.2.2.2.2.2.2.2
  | sub d src =>
    refine aluCases_host (fun g => ?_) (fun hd => ?_) h
    · cases s.flag .FMF
      · exact (State.groupOp_stored s g src _ _).host
      · exact (State.groupFloat_keeps s g src _ _).2
    · exact State.scalarSub_host s _ hd
  | mul high low src =>
    simp only [exec, execMul] at h
    split at h
    · exact halts (Host.Outcome.next.inj h).symm
    · rename_i hv
      split at h
      · cases h
      · rename_i hr
        injection h with h; subst h
        obtain ⟨h1, h2, w1, w2, hc⟩ := TwoDestinations.spec ⟨by simpa using hv, hr⟩
        have hk := fun r x => (State.storeProduct_spec s (Instr.mul high low src).len (s.widthsAgree low src) r x h1 h2
          w1 w2 hc).2.2.2.2.2.2.2.2.2.2
        unfold State.mulStep
        simp only
        split
        · exact .of_keeps (hk _ _)
        · split <;> exact .of_keeps (hk _ _)
  | div m q src =>
    simp only [exec, execDiv] at h
    split at h
    · exact halts (Host.Outcome.next.inj h).symm
    · rename_i hv
      split at h
      · cases h
      · rename_i hr
        injection h with h; subst h
        obtain ⟨h1, h2, w1, w2, hc⟩ := TwoDestinations.spec ⟨by simpa using hv, hr⟩
        have hk := fun zf sf mo qu => (State.storeQuotient_spec s (Instr.div m q src).len (s.widthsAgree q src) zf sf mo qu
          h1 h2 w1 w2 hc).2.2.2.2.2.2.2.2
        have hz := (State.divideByZero_spec s (Instr.div m q src).len).2.2.2.2
        unfold State.divStep
        simp only
        split
        · split
          · exact .of_keeps hz
          · exact .of_keeps (hk _ _ _ _)
        · split
          · exact .of_keeps hz
          · exact .of_keeps (hk _ _ _ _)
  | cmp a b =>
    simp only [exec, execCmp] at h
    split at h
    · exact halts (Host.Outcome.next.inj h).symm
    split at h
    · injection h with h; subst h; exact .of_keeps (s.simdError_raised _).host
    split at h
    · injection h with h; subst h; exact .of_keeps (State.flagsOfArith_spec s _ _ _).2.2.2.2.2.2.2
    · cases h
  | alloc n =>
    simp only [exec, execAlloc] at h
    split at h
    · injection h with h; subst h; exact .of_keeps (s.simdError_raised _).host
    split at h
    · injection h with h; subst h; exact .of_keeps (State.scalarSub_host s _ ⟨rfl, rfl, rfl⟩)
    · cases h
  | ign b => injection h with h; subst h; exact .of_keeps ((State.setFlag_host s _ _).trans (State.advance_host _ _))
  | mode imm =>
    simp only [exec, execMode] at h
    split at h
    · cases h
    · injection h with h; subst h
      exact .of_keeps (((State.setWlb_host s _).trans (State.setFlag_host _ _ _)).trans (State.advance_host _ _))
  | jfl c target =>
    injection h with h; subst h
    unfold State.tested; split <;> split <;> exact ⟨rfl, rfl, rfl, rfl, .inl ⟨rfl, rfl⟩⟩
  | sfl c target =>
    injection h with h; subst h
    unfold State.tested; split <;> split <;> exact ⟨rfl, rfl, rfl, rfl, .inl ⟨rfl, rfl⟩⟩
  | call target => injection h with h; subst h; exact ⟨rfl, rfl, rfl, rfl, .inl ⟨rfl, rfl⟩⟩
  | ret status => injection h with h; subst h; exact ⟨rfl, rfl, rfl, rfl, .inl ⟨rfl, rfl⟩⟩
  | mov d src =>
    rcases execMov_next h with e | e | ⟨g, rfl, e⟩ | ⟨m, g, rfl, rfl, e⟩ | ⟨hv, hd, hs, e⟩
    · exact halts e
    · subst e; exact .of_keeps (s.simdError_raised _).host
    · subst e; exact .of_keeps (State.groupOp_stored s g src _ _).host
    · subst e; exact .of_keeps ((State.writeBytes_host s _ _).trans (State.advance_host _ _))
    · subst e; exact .of_keeps ((State.writeOp_host s _).trans (State.finish_host _ _ _))
  | mw a =>
    simp only [exec, execMw] at h
    split at h
    · injection h with h; subst h; exact .of_keeps (s.simdError_raised _).host
    split at h
    · injection h with h; subst h
      exact .of_keeps ((State.moveWindow_host s _).trans (State.advance_host _ _))
    · cases h
  | inth a => injection h with h; subst h; exact ⟨rfl, rfl, rfl, rfl, .inl ⟨rfl, rfl⟩⟩
  | nop => injection h with h; subst h; exact ⟨rfl, rfl, rfl, rfl, .inl ⟨rfl, rfl⟩⟩

/-! ### The I/O instructions -/

/-- What any instruction does to the host's side: the log grows at its end, the waiting inputs are taken from their front,
the files stay a map, and an open file is one of a file channel. -/
structure HostRule (s t : State) : Prop where
  conLog : ∃ bs, t.conLog = s.conLog ++ bs
  conIn : ∃ taken, s.conIn = taken ++ t.conIn
  files : FilesAreAMap s → FilesAreAMap t
  openFile : t.openFile = none ∨ (t.halted = s.halted ∧ t.chan = s.chan ∧ (t.openFile = s.openFile ∨ 256 ≤ t.chan.toNat))

theorem HostKept.rule {s t : State} (h : HostKept s t) : HostRule s t where
  conLog := ⟨[], by rw [h.conLog, List.append_nil]⟩
  conIn := ⟨[], by rw [h.conIn, List.nil_append]⟩
  files hf := by rw [FilesAreAMap, h.files]; exact hf
  openFile := by
    rcases h.openFile with ⟨h1, h2⟩ | h1
    · exact .inr ⟨h1, h.chan, .inl h2⟩
    · exact .inl h1

theorem State.inputFrom_host {s u : State} {a : Word} {cap : Nat} (h : s.inputFrom a cap = .next u) :
    HostRule s u ∧ u.conLog = s.conLog := by
  unfold State.inputFrom at h
  split at h
  · cases h
  · split at h
    · cases h
    · rename_i input s1 e
      obtain ⟨hc, w, n, rfl⟩ := State.nextInput_spec e
      injection h with h; subst h
      refine ⟨⟨⟨[], by simp⟩, ?_, id, .inr ⟨rfl, rfl, .inl rfl⟩⟩, rfl⟩
      rcases hc with hc | hc
      · exact ⟨[input], hc⟩
      · exact ⟨[], hc.symm⟩
  · rename_i hk
    split at h
    · cases h
    · rename_i t e
      injection h with h; subst h
      obtain ⟨-, -, n, e2⟩ := State.beginTransfer_ok e
      have hc : 256 ≤ s.chan.toNat := by
        rcases channelKind_cases s.chan with ⟨_, h1⟩ | ⟨_, _, h1⟩ | ⟨h0, _⟩
        · rw [h1] at hk; cases hk
        · rw [h1] at hk; cases hk
        · exact h0
      rw [e2]
      exact ⟨⟨⟨[], by simp⟩, ⟨[], rfl⟩, id, .inr ⟨rfl, rfl, .inr hc⟩⟩, rfl⟩

theorem State.sendBytes_host {s u : State} {bs : List Byte} (h : s.sendBytes bs = .next u) :
    HostRule s u ∧ u.conIn = s.conIn := by
  unfold State.sendBytes at h
  split at h
  · cases h
  · injection h with h; subst h
    exact ⟨⟨⟨bs, rfl⟩, ⟨[], rfl⟩, id, .inr ⟨rfl, rfl, .inl rfl⟩⟩, rfl⟩
  · rename_i hk
    split at h
    · cases h
    · rename_i t e
      injection h with h; subst h
      obtain ⟨-, -, n, e2⟩ := State.beginTransfer_ok e
      have hc : 256 ≤ s.chan.toNat := by
        rcases channelKind_cases s.chan with ⟨_, h1⟩ | ⟨_, _, h1⟩ | ⟨h0, _⟩
        · rw [h1] at hk; cases hk
        · rw [h1] at hk; cases hk
        · exact h0
      rw [e2]
      exact ⟨⟨⟨[], by simp⟩, ⟨[], rfl⟩, fun hf => nodup_setFileContents _ _ hf, .inr ⟨rfl, rfl, .inr hc⟩⟩, rfl⟩

/-- How an I/O instruction can end in a next state. -/
theorem exec_io {i : Instr} {s t : State} (hi : isIo i = true) (h : exec i s = .next t) :
    HostKept s t ∨ (∃ c, i = .ioChan c ∧ t.openFile = none ∧ t.conLog = s.conLog ∧ t.conIn = s.conIn
    ∧ t.files = s.files) ∨
      (∃ u len, t = u.advance len ∧ ((∃ a b x n, i = .inp a b ∧ s.inputFrom x n = .next u) ∨
        ((∃ a b, i = .out a b) ∨ ∃ a, i = .outs a) ∧ ∃ bs, s.sendBytes bs = .next u)) := by
  cases i with
  | ioChan c =>
    simp only [exec, execIoChan] at h
    split at h
    · injection h with h; subst h; exact .inl (.of_keeps (s.simdError_raised _).host)
    split at h
    · injection h with h; subst h; exact .inr (.inl ⟨c, rfl, rfl, rfl, rfl, rfl⟩)
    · cases h
  | seek p =>
    simp only [exec, execSeek] at h
    split at h
    · injection h with h; subst h; exact .inl (.of_keeps (s.simdError_raised _).host)
    split at h
    · injection h with h; subst h; exact .inl ⟨rfl, rfl, rfl, rfl, .inl ⟨rfl, rfl⟩⟩
    · cases h
  | inp a b =>
    rcases rangeCases_next h with rfl | rfl | ⟨u, hu, rfl⟩
    · exact .inl (s.halt_hostKept _)
    · exact .inl (.of_keeps (s.simdError_raised _).host)
    · exact .inr (.inr ⟨u, _, rfl, .inl ⟨a, b, _, _, rfl, hu⟩⟩)
  | out a b =>
    simp only [exec, execOut] at h
    rcases rangeCases_next h with rfl | rfl | ⟨u, hu, rfl⟩
    · exact .inl (s.halt_hostKept _)
    · exact .inl (.of_keeps (s.simdError_raised _).host)
    · exact .inr (.inr ⟨u, _, rfl, .inr ⟨.inl ⟨a, b, rfl⟩, _, hu⟩⟩)
  | outs a =>
    simp only [exec, execOuts] at h
    split at h
    · injection h with h; subst h; exact .inl (.of_keeps (s.simdError_raised _).host)
    split at h
    · split at h
      · cases h
      · obtain ⟨u, hu, rfl⟩ := advanceOutcome_next h
        exact .inr (.inr ⟨u, _, rfl, .inr ⟨.inr ⟨a, rfl⟩, _, hu⟩⟩)
    · cases h
  | _ => cases hi

theorem HostRule.advance {s t : State} (h : HostRule s t) (n : Nat) : HostRule s (t.advance n) :=
  ⟨h.conLog, h.conIn, h.files, h.openFile⟩

/-- What any instruction does to the host's side. -/
theorem exec_hostRule {i : Instr} {s t : State} (h : exec i s = .next t) : HostRule s t := by
  cases hi : isIo i with
  | false => exact (exec_host hi h).rule
  | true =>
    rcases exec_io hi h with hk | ⟨c, -, h1, h2, h3, h4⟩ | ⟨u, len, rfl, hu⟩
    · exact hk.rule
    · exact ⟨⟨[], by simp [h2]⟩, ⟨[], by simp [h3]⟩, fun hf => by rw [FilesAreAMap, h4]; exact hf, .inl h1⟩
    · rcases hu with ⟨a, b, x, n, -, hu⟩ | ⟨-, bs, hu⟩
      · exact (State.inputFrom_host hu).1.advance len
      · exact (State.sendBytes_host hu).1.advance len

end Sys2Proof.Machine
end

