-- ==== Sys2Proof/Laws/PerInstr.lean ====
section
/-! SUPPORT. The encoder writes as many bytes as the instruction is long, instruction by instruction
(spec/30_encoding.md R72). -/

namespace Sys2Proof.Laws.EncodedLength

/-- The encoding of an instruction has the instruction's length (R72). -/
def Statement (i : Instr) : Prop := (encode i).length = i.len

theorem format1 (op : BitVec 5) (a : Operand) : (encode1 op a).length = 2 + a.payloadSize := by
  simp [encode1, length_payload]; omega

theorem format2 (op : BitVec 5) (a b : Operand) : (encode2 op a b).length = 3 + a.payloadSize + b.payloadSize := by
  simp [encode2, length_payload]; omega

theorem format3 (op : BitVec 5) (a b c : Operand) :
    (encode3 op a b c).length = 4 + a.payloadSize + b.payloadSize + c.payloadSize := by
  simp [encode3, length_payload]; omega

theorem exit (b : Byte) : Statement (.exit b) := rfl
theorem add (a b : Operand) : Statement (.add a b) := format2 _ a b
theorem sub (a b : Operand) : Statement (.sub a b) := format2 _ a b
theorem mul (a b d : Operand) : Statement (.mul a b d) := format3 _ a b d
theorem div (a b d : Operand) : Statement (.div a b d) := format3 _ a b d
theorem ign (t : BitVec 3) : Statement (.ign t) := rfl
theorem mode (b : Byte) : Statement (.mode b) := rfl
theorem and (a b : Operand) : Statement (.and a b) := format2 _ a b
theorem or (a b : Operand) : Statement (.or a b) := format2 _ a b
theorem nor (a b : Operand) : Statement (.nor a b) := format2 _ a b
theorem xor (a b : Operand) : Statement (.xor a b) := format2 _ a b
theorem not (a : Operand) : Statement (.not a) := format1 _ a
theorem cmp (a b : Operand) : Statement (.cmp a b) := format2 _ a b
theorem jfl (c : BitVec 3) (a : Word) : Statement (.jfl c a) := rfl
theorem sfl (c : BitVec 3) (a : Word) : Statement (.sfl c a) := rfl
theorem call (a : Word) : Statement (.call a) := rfl
theorem ret (b : Byte) : Statement (.ret b) := rfl
theorem mov (a b : Operand) : Statement (.mov a b) := format2 _ a b
theorem mw (a : Operand) : Statement (.mw a) := format1 _ a
theorem alloc (a : Operand) : Statement (.alloc a) := format1 _ a
theorem ioChan (a : Operand) : Statement (.ioChan a) := format1 _ a
theorem inp (a b : Operand) : Statement (.inp a b) := format2 _ a b
theorem out (a b : Operand) : Statement (.out a b) := format2 _ a b
theorem outs (a : Operand) : Statement (.outs a) := format1 _ a
theorem seek (a : Operand) : Statement (.seek a) := format1 _ a
theorem inth (a : Word) : Statement (.inth a) := rfl
theorem nop : Statement .nop := rfl
theorem exit1B (b : Byte) : Statement (.exit1B b) := rfl
theorem exit1C (b : Byte) : Statement (.exit1C b) := rfl
theorem exit1D (b : Byte) : Statement (.exit1D b) := rfl
theorem exit1E (b : Byte) : Statement (.exit1E b) := rfl
theorem exit1F (b : Byte) : Statement (.exit1F b) := rfl

end Sys2Proof.Laws.EncodedLength
end

