-- ==== Sys2Proof/Laws/Step.lean ====
section
/-! SUPPORT. What a step can do: halt, or execute one instruction, with a pending error discharged first or not
(spec/60_exceptions.md R228). -/

namespace Sys2Proof.Machine

/-- The first byte fetched is the one at `ip` (R60). -/
theorem State.fetchBytes_cons (s : State) :
    s.fetchBytes = s.readByte s.ip :: (List.range 27).map fun i => s.readByte (s.ip + 1#16 + BitVec.ofNat 16 i) := by
  unfold State.fetchBytes maxLen State.readBytes Memory.readBytes
  rw [show (28:Nat) = 27 + 1 from rfl, List.range_succ_eq_map, List.map_cons, List.map_map, show s.ip + BitVec.ofNat 16 0 = s.ip from BitVec.add_zero _]
  congr 1
  apply List.map_congr_left
  intro i _
  simp only [Function.comp, State.readByte]
  rw [Nat.succ_eq_add_one, Nat.add_comm, BitVec.ofNat_add, ← BitVec.add_assoc]

/-- The ways a step ends in a next state (R228). -/
theorem step_next {s t : State} (h : step s = .next t) :
    s.halted = none ∧ ((s.perr = none ∧ ((∃ c, t = s.halt c) ∨ ∃ i, exec i s = .next t)) ∨
      (s.perr ≠ none ∧ ((∃ c, t = s.halt c) ∨ (∃ c, t = s.discharge.halt c) ∨ ∃ i, exec i s.discharge = .next t))) := by
  unfold step State.start at h
  cases hh : s.halted with
  | some c => simp [hh] at h
  | none =>
    refine ⟨rfl, ?_⟩
    cases hp : s.perr with
    | none =>
      left; refine ⟨rfl, ?_⟩
      simp only [hh, hp, State.startDecoded] at h
      cases hd : decode s.fetchBytes with
      | ok i rest => rw [hd] at h; exact .inr ⟨i, h⟩
      | bad e => rw [hd] at h; exact .inl ⟨_, (Host.Outcome.next.inj h).symm⟩
    | some code =>
      right; refine ⟨by simp, ?_⟩
      simp only [hh, hp] at h
      cases ht : testsErrorFlag (s.readByte s.ip) with
      | false => simp only [ht, Bool.false_eq_true, if_false] at h; exact .inl ⟨_, (Host.Outcome.next.inj h).symm⟩
      | true =>
        simp only [ht, if_true, State.startDecoded] at h
        cases hd : decode s.discharge.fetchBytes with
        | ok i rest => rw [hd] at h; exact .inr (.inr ⟨i, h⟩)
        | bad e => rw [hd] at h; exact .inr (.inl ⟨_, (Host.Outcome.next.inj h).symm⟩)

end Sys2Proof.Machine
end

