-- ==== Sys2Proof/Tests/Slice0.lean ====
section
/-! SUPPORT. The model's own tests: decoding, well-formedness, one step of each instruction, and for each obligation with
hypotheses a state and operands that meet them. Expected results are those of spec/95_test_vectors.md unless a comment
names a rule. -/

namespace Sys2Proof.Tests

open Sys2Proof Sys2Proof.Machine

/-! ### Helpers -/

/-- The state after reset with bytes at `ip` (Conventions of spec/95_test_vectors.md). -/
def start (bs : List Byte) : State := State.reset.writeBytes 0x0100#16 bs

/-- What is seen of a next state. -/
def nextOf {α : Type} (o : StepOutcome) (f : State → α) : Option α :=
  match o with
  | .next s => some (f s)
  | _ => none

/-- The refusal, if the step is refused. -/
def refusalOf (o : StepOutcome) : Option Refusal :=
  match o with
  | .refused r => some r
  | _ => none

/-- The columns of the vectors' tables. -/
structure FlagView where
  zf : Bool
  sf : Bool
  of : Bool
  nof : Bool
  ef : Bool
  perr : Option Byte
  deriving DecidableEq, Repr

def flags (s : State) : FlagView := ⟨s.flag .ZF, s.flag .SF, s.flag .OF, s.flag .NOF, s.flag .EF, s.perr⟩

def withError (c : Byte) (s : State) : State := { s with perr := some c }

def withInput (l : List (List Byte)) (s : State) : State := { s with conIn := l }

/-- Channel, position, and one file of the host. -/
def onFile (c : Word) (p : BitVec 64) (path contents : List Byte) (s : State) : State :=
  { s with chan := c, fpos := p, files := [⟨path, contents⟩] }

/-! ### Decoding: one word per row of the opcode table (bytes of spec/95_test_vectors.md, or from R62, R63) -/

/-- T-INV EX3. -/
theorem test_decode_exit : decode [0x07, 0x2A] = .ok (.exit 0x2A#8) [] := by decide

/-- T-ADD AD5. -/
theorem test_decode_add : decode [0x0E, 0x18, 0x30, 0x80] = .ok (.add (.reg (.ar 0)) (.lit (.b8 0x80#8))) [] := by decide

/-- S2. -/
theorem test_decode_sub : decode [0x16, 0x28, 0x30, 0x80] = .ok (.sub (.reg .ap) (.lit (.b8 0x80#8))) [] := by decide

/-- T-MUL MU5. -/
theorem test_decode_mul : decode [0x1F, 0x19, 0x18, 0x31, 0x01, 0x2C] =
    .ok (.mul (.reg (.ar 1)) (.reg (.ar 0)) (.lit (.b16 0x012C#16))) [] := by decide

/-- T-DIV DV1. -/
theorem test_decode_div : decode [0x21, 0x31, 0x30, 0x30, 0x02] = .ok (.div (.pool 0x31#8) (.pool 0x30#8) (.lit (.b8 0x02#8))) [] := by decide

/-- T-IGN IG3. -/
theorem test_decode_ign : decode [0x2F] = .ok (.ign 7#3) [] := by decide

/-- T-IGN MD2. -/
theorem test_decode_mode : decode [0x30, 0x13] = .ok (.mode 0x13#8) [] := by decide

/-- T-LOG LG1. -/
theorem test_decode_and : decode [0x3A, 0x10, 0x30, 0x3C] = .ok (.and (.pool 0x10#8) (.lit (.b8 0x3C#8))) [] := by decide

/-- T-LOG LG3. -/
theorem test_decode_or : decode [0x42, 0x10, 0x30, 0x3C] = .ok (.or (.pool 0x10#8) (.lit (.b8 0x3C#8))) [] := by decide

/-- T-LOG LG5. -/
theorem test_decode_nor : decode [0x4E, 0x18, 0x30, 0x0F] = .ok (.nor (.reg (.ar 0)) (.lit (.b8 0x0F#8))) [] := by decide

/-- T-IGN MD7. -/
theorem test_decode_xor : decode [0x56, 0x40, 0x41] = .ok (.xor (.simd .w0) (.simd .w1)) [] := by decide

/-- T-LOG LG10. -/
theorem test_decode_not : decode [0x5C, 0x18] = .ok (.not (.reg (.ar 0))) [] := by decide

/-- T-CMP CM4. -/
theorem test_decode_cmp : decode [0x66, 0x30, 0x30, 0x05, 0x03] = .ok (.cmp (.lit (.b8 0x05#8)) (.lit (.b8 0x03#8))) [] := by decide

/-- T-FLOW FL6. -/
theorem test_decode_jfl : decode [0x6D, 0x03, 0x00] = .ok (.jfl 5#3 0x0300#16) [] := by decide

/-- T-FLOW FL4. -/
theorem test_decode_sfl : decode [0x75, 0x03, 0x00] = .ok (.sfl 5#3 0x0300#16) [] := by decide

/-- T-FLOW CL6. -/
theorem test_decode_call : decode [0x7F, 0x02, 0x00] = .ok (.call 0x0200#16) [] := by decide

/-- T-FLOW CL4. -/
theorem test_decode_ret : decode [0x80, 0x07] = .ok (.ret 0x07#8) [] := by decide

/-- T-MOV MV10. -/
theorem test_decode_mov : decode [0x8E, 0x1C, 0x34, 0x00, 0x04, 0x01, 0x02, 0x03, 0x04, 0x05, 0x06, 0x07, 0x08] =
    .ok (.mov (.mem (.off (.ar 0) 0x0004#16)) (.lit (.b64 0x0102030405060708#64))) [] := by decide

/-- T-MW MW2. -/
theorem test_decode_mw : decode [0x94, 0x2C, 0x00, 0x40] = .ok (.mw (.mem (.off .wl 0x0040#16))) [] := by decide

/-- T-AL AL3. -/
theorem test_decode_alloc : decode [0x9C, 0x31, 0x80, 0x00] = .ok (.alloc (.lit (.b16 0x8000#16))) [] := by decide

/-- T-IO IO6. -/
theorem test_decode_iochan : decode [0xA4, 0x31, 0x40, 0x00] = .ok (.ioChan (.lit (.b16 0x4000#16))) [] := by decide

/-- T-IO IO3. -/
theorem test_decode_in : decode [0xAE, 0x31, 0x31, 0x40, 0x00, 0x40, 0x10] =
    .ok (.inp (.lit (.b16 0x4000#16)) (.lit (.b16 0x4010#16))) [] := by decide

/-- T-IO IO2. -/
theorem test_decode_out : decode [0xB6, 0x31, 0x31, 0x40, 0x00, 0x40, 0x03] =
    .ok (.out (.lit (.b16 0x4000#16)) (.lit (.b16 0x4003#16))) [] := by decide

/-- T-IO IO1. -/
theorem test_decode_outs : decode [0xBC, 0x31, 0x40, 0x00] = .ok (.outs (.lit (.b16 0x4000#16))) [] := by decide

/-- T-IO IO8. -/
theorem test_decode_seek : decode [0xC4, 0x30, 0x10] = .ok (.seek (.lit (.b8 0x10#8))) [] := by decide

/-- T-IO IO10. -/
theorem test_decode_inth : decode [0xC8, 0x03, 0x00] = .ok (.inth 0x0300#16) [] := by decide

/-- T-IO IO11. -/
theorem test_decode_nop : decode [0xD0] = .ok (.nop) [] := by decide

/-- R63. -/
theorem test_decode_exit_1B : decode [0xD8, 0x11] = .ok (.exit1B 0x11#8) [] := by decide

/-- R63. -/
theorem test_decode_exit_1C : decode [0xE0, 0x12] = .ok (.exit1C 0x12#8) [] := by decide

/-- R63. -/
theorem test_decode_exit_1D : decode [0xE8, 0x13] = .ok (.exit1D 0x13#8) [] := by decide

/-- R63. -/
theorem test_decode_exit_1E : decode [0xF0, 0x14] = .ok (.exit1E 0x14#8) [] := by decide

/-- T-INV EX2. -/
theorem test_decode_exit_1F : decode [0xFF, 0x03] = .ok (.exit1F 0x03#8) [] := by decide

/-! ### Operands and invalid instructions -/

/-- The first ID of each range of R70 with its payload (R71). -/
theorem test_operand_ranges :
    [0x03, 0x04, 0x08, 0x0F, 0x10, 0x17, 0x1B, 0x1C, 0x23, 0x26, 0x2A].map (fun f => decodeOperand true f [0xAB, 0xCD]) =
      [.ok (.reg (.wi 3)) [0xAB, 0xCD], .ok (.reg (.pi 0)) [0xAB, 0xCD], .ok (.mem (.off (.wi 0) 0xABCD#16)) [],
       .ok (.mem (.off (.pi 3) 0xABCD#16)) [], .ok (.mem (.reg (.wi 0))) [0xAB, 0xCD],
       .ok (.mem (.reg (.pi 3))) [0xAB, 0xCD], .ok (.reg (.ar 3)) [0xAB, 0xCD], .ok (.mem (.off (.ar 0) 0xABCD#16)) [],
       .ok (.mem (.reg (.ar 3))) [0xAB, 0xCD], .ok (.mem (.off .sp 0xABCD#16)) [], .ok (.mem (.reg .ap)) [0xAB, 0xCD]] := by
  decide

/-- The single IDs of R70. -/
theorem test_operand_singles :
    [0x24, 0x2B, 0x2E, 0x2F, 0x32, 0x35, 0x3E, 0x3F, 0x40, 0x43].map (fun f => decodeOperand true f [0xAB, 0xCD]) =
      [.ok (.reg .ip) [0xAB, 0xCD], .ok (.reg .wl) [0xAB, 0xCD], .ok (.reg .flg) [0xAB, 0xCD], .ok (.reg .rs) [0xAB, 0xCD],
       .ok (.mem (.abs 0xABCD#16)) [], .ok (.flag .ZF) [0xAB, 0xCD], .ok (.flag .FMF) [0xAB, 0xCD], .ok .wlb [0xAB, 0xCD],
       .ok (.simd .w0) [0xAB, 0xCD], .ok (.simd .p1) [0xAB, 0xCD]] := by decide

/-- R72, R73: two 64-bit literals, 19 bytes. -/
theorem test_decode_longest :
    decode [0x66, 0x34, 0x34, 0, 0, 0, 0, 0, 0, 0, 5, 1, 2, 3, 4, 5, 6, 7, 8] =
      .ok (.cmp (.lit (.b64 5#64)) (.lit (.b64 0x0102030405060708#64))) [] := by decide

/-- R81 case 1; the bytes are vector IV1. -/
theorem test_wf_literal_destination :
    (Instr.add (.lit (.b8 0x01#8)) (.pool 0x10#8)).invalid = some .literalDestination ∧
      (Instr.add (.lit (.b8 0x01#8)) (.pool 0x10#8)).wf = false ∧
      decode [0x0C, 0x30, 0x10, 0x01] = .bad (.invalid .literalDestination) := by decide

/-- R81 case 1 for `mov` (MV25). -/
theorem test_wf_mov_literal_destination :
    (Instr.mov (.lit (.b8 0x01#8)) (.pool 0x10#8)).wf = false ∧
      decode [0x8C, 0x30, 0x10, 0x01] = .bad (.invalid .literalDestination) := by decide

/-- R81 case 2 (IV2, MU11). -/
theorem test_wf_memory_destination :
    (Instr.add (.mem (.reg (.ar 0))) (.pool 0x10#8)).wf = false ∧
      decode [0x0C, 0x20, 0x10] = .bad (.invalid .memoryDestination) ∧
      decode [0x1E, 0x19, 0x20, 0x30, 0x02] = .bad (.invalid .memoryDestination) := by decide

/-- R81 case 3 (IV3, CM10). -/
theorem test_wf_two_memory_operands :
    (Instr.mov (.mem (.reg (.ar 0))) (.mem (.reg (.ar 1)))).wf = false ∧
      decode [0x8E, 0x20, 0x21] = .bad (.invalid .twoMemoryOperands) ∧
      decode [0x66, 0x20, 0x32, 0x40, 0x00] = .bad (.invalid .twoMemoryOperands) := by decide

/-- R81 case 4 (IV4): the ID names no operand. -/
theorem test_wf_unassigned_operand : decode [0x0A, 0x10, 0x44] = .bad (.unassignedOperand 0x44#8) := by decide

/-- The rows of the opcode table as numbers: the first byte is the lowest. -/
theorem test_table_words :
    decodeTableWord 8 0xD0 = some .nop ∧ decodeTableWord 16 0x2A00 = some (.exit 0x2A#8) ∧
      decodeTableWord 24 0x00026C = some (.jfl 4#3 0x0200#16) := by decide

/-- The next step fetches and runs the word placed by `withFetchWord`. -/
theorem test_fetch_word :
    nextOf (step (State.reset.withFetchWord 8 0xD0)) (·.ip) = some 0x0101#16 ∧
      nextOf (step (State.reset.withFetchWord 24 0x00026C)) (·.ip) = some 0x0200#16 := by decide

/-! ### One step of each instruction (rows of spec/95_test_vectors.md; `file` is its program P4b) -/

/-- EX3. -/
theorem test_exit_ignores_type_bits :
    nextOf (step (start [0x07, 0x2A]))
      (fun s => (s.halted, s.ip)) = some (some 0x2A, 0x0100) := by decide

/-- AD7. -/
theorem test_add_wide_overflow :
    nextOf (step (start [0x0A, 0x10, 0x31, 0x00, 0x01] |>.writePool 0x10 [0x7F, 0xFF] |>.setWlb 1))
      (fun s => (s.readPool 0x10 2, flags s)) = some ([0x80, 0x00], ⟨false, true, false, true, true, some 0x05⟩) := by decide

/-- AD5. -/
theorem test_add_carry_keeps_sf :
    nextOf (step (start [0x0E, 0x18, 0x30, 0x80] |>.writeReg (.ar 0) 0xFF80 |>.setFlag .SF true))
      (fun s => (s.readReg (.ar 0), flags s)) = some (0, ⟨true, true, true, false, false, none⟩) := by decide

/-- SB3. -/
theorem test_sub_borrow_and_overflow :
    nextOf (step (start [0x12, 0x10, 0x30, 0x80]))
      (fun s => (s.readPool 0x10 1, flags s)) = some ([0x80], ⟨false, true, true, true, true, some 0x05⟩) := by decide

/-- SB5. -/
theorem test_sub_from_ap :
    nextOf (step (start [0x16, 0x28, 0x30, 0x80] |>.writeReg .ap 0x7FFA))
      (fun s => (s.ap, flags s)) = some (0x7F7A, ⟨false, false, false, false, false, none⟩) := by decide

/-- MU5. -/
theorem test_mul_two_destinations :
    nextOf (step (start [0x1F, 0x19, 0x18, 0x31, 0x01, 0x2C] |>.writeReg (.ar 0) 0x012C))
      (fun s => ((s.readReg (.ar 0), s.readReg (.ar 1)), flags s)) = some ((0x5F90, 1), ⟨false, false, false, false, false, none⟩) := by decide

/-- MU7. -/
theorem test_mul_one_destination :
    nextOf (step (start [0x18, 0x20, 0x20, 0x20] |>.writePool 0x20 [0x0C]))
      (fun s => (s.readPool 0x20 1, flags s)) = some ([0x90], ⟨false, true, true, true, true, some 0x05⟩) := by decide

/-- DV2. -/
theorem test_div_floors :
    nextOf (step (start [0x21, 0x31, 0x30, 0x30, 0x02] |>.writePool 0x30 [0xF9, 0x00]))
      (fun s => (s.readPool 0x30 2, [s.flag .ZF, s.flag .SF, s.flag .DZF, s.flag .EF], s.perr)) = some ([0xFC, 0x01], [false, true, false, false], none) := by decide

/-- DV8. -/
theorem test_div_by_zero :
    nextOf (step (start [0x21, 0x31, 0x30, 0x30, 0x00] |>.writePool 0x30 [0x05, 0x99]))
      (fun s => (s.readPool 0x30 2, [s.flag .ZF, s.flag .SF, s.flag .DZF, s.flag .EF], s.perr)) = some ([0x05, 0x99], [false, false, true, true], some 0x03) := by decide

/-- IG1. -/
theorem test_ign_clears :
    nextOf (step (start [0x28]))
      (fun s => (s.flg, s.ip)) = some (0x0800, 0x0101) := by decide

/-- IG3. -/
theorem test_ign_sets :
    nextOf (step (start [0x2F] |>.setFlag .RF false))
      (fun s => s.flag .RF) = some (true) := by decide

/-- MD2. -/
theorem test_mode_float_qword :
    nextOf (step (start [0x30, 0x13]))
      (fun s => (s.wordSize, s.flg)) = some (64, 0x0970) := by decide

/-- MD5. -/
theorem test_mode_unassigned : refusalOf (step (start [0x30, 0x04])) = some .modeWordLength := by decide

/-- LG8. -/
theorem test_and_widens_literal :
    nextOf (step (start [0x3E, 0x18, 0x30, 0xFF] |>.writeReg (.ar 0) 0x1234))
      (fun s => (s.readReg (.ar 0), s.flag .ZF, s.flag .SF)) = some (0x34, false, false) := by decide

/-- LG2. -/
theorem test_and_zero :
    nextOf (step (start [0x3A, 0x10, 0x30, 0x0F] |>.writePool 0x10 [0xF0]))
      (fun s => (s.readPool 0x10 1, s.flag .ZF, s.flag .SF)) = some ([0x00], true, false) := by decide

/-- LG3. -/
theorem test_or_sign :
    nextOf (step (start [0x42, 0x10, 0x30, 0x3C] |>.writePool 0x10 [0xF0]))
      (fun s => (s.readPool 0x10 1, s.flag .ZF, s.flag .SF)) = some ([0xFC], false, true) := by decide

/-- LG4. -/
theorem test_nor_value :
    nextOf (step (start [0x4A, 0x10, 0x30, 0x3C] |>.writePool 0x10 [0xF0]))
      (fun s => (s.readPool 0x10 1, s.flag .ZF, s.flag .SF)) = some ([0x03], false, false) := by decide

/-- LG5. -/
theorem test_nor_widens_literal :
    nextOf (step (start [0x4E, 0x18, 0x30, 0x0F]))
      (fun s => (s.readReg (.ar 0), s.flag .ZF, s.flag .SF)) = some (0xFFF0, false, false) := by decide

/-- LG7. -/
theorem test_xor_keeps_of_nof :
    nextOf (step (start [0x50, 0x10, 0x10] |>.writePool 0x10 [0x5A] |>.setFlag .OF true |>.setFlag .NOF true))
      (fun s => (s.readPool 0x10 1, flags s)) = some ([0x00], ⟨true, false, true, true, false, none⟩) := by decide

/-- LG6. -/
theorem test_xor_value :
    nextOf (step (start [0x52, 0x10, 0x30, 0xFF] |>.writePool 0x10 [0xF0]))
      (fun s => (s.readPool 0x10 1, s.flag .ZF, s.flag .SF)) = some ([0x0F], false, false) := by decide

/-- LG11. -/
theorem test_not_scalar :
    nextOf (step (start [0x58, 0x10]))
      (fun s => (s.readPool 0x10 1, s.flag .ZF, s.flag .SF)) = some ([0xFF], false, true) := by decide

/-- SM13. -/
theorem test_not_group :
    nextOf (step (start [0x5C, 0x40] |>.writePool 0x00 [0x0F, 0xFF]))
      (fun s => (s.readPool 0x00 3, s.readPool 0x3F 1, s.flg)) = some ([0xF0, 0, 0xFF], [0xFF], 0x0900) := by decide

/-- CM4. -/
theorem test_cmp_two_literals :
    nextOf (step (start [0x66, 0x30, 0x30, 0x05, 0x03]))
      (fun s => (flags s, s.ip)) = some (⟨false, false, false, false, false, none⟩, 0x0105) := by decide

/-- CM11. -/
theorem test_cmp_simd :
    nextOf (step (start [0x66, 0x40, 0x41]))
      (fun s => (s.flag .SEF, flags s)) = some (true, ⟨false, false, false, false, true, some 0x02⟩) := by decide

/-- FL6. -/
theorem test_jfl_discharges :
    nextOf (step (start [0x6D, 0x03, 0x00] |>.setFlag .EF true |>.setFlag .NOF true |> withError 0x05))
      (fun s => (s.ip, flags s)) = some (0x0300, ⟨false, false, false, true, false, none⟩) := by decide

/-- FL3. -/
theorem test_jfl_not_taken :
    nextOf (step (start [0x68, 0x02, 0x00]))
      (fun s => s.ip) = some (0x0103) := by decide

/-- FL5. -/
theorem test_sfl_discharges :
    nextOf (step (start [0x75, 0x03, 0x00] |>.setFlag .EF true |>.setFlag .NOF true |> withError 0x05))
      (fun s => (s.ip, flags s)) = some (0x0103, ⟨false, false, false, true, false, none⟩) := by decide

/-- FL4. -/
theorem test_sfl_taken :
    nextOf (step (start [0x75, 0x03, 0x00]))
      (fun s => s.ip) = some (0x0300) := by decide

/-- CL1. -/
theorem test_call_frame :
    nextOf (step (start [0x78, 0x02, 0x00]))
      (fun s => (s.readBytes 0x7FFA 6, [s.ip, s.sp, s.ap], s.flag .RF)) = some ([0x01, 0x03, 0x80, 0x00, 0x80, 0x00], [0x0200, 0x7FFA, 0x7FFA], true) := by decide

/-- CL5. -/
theorem test_call_wraps :
    nextOf (step (start [0x78, 0x02, 0x00] |>.writeReg .sp 0x0002 |>.writeReg .ap 0x0002))
      (fun s => (s.readBytes 0xFFFC 6, s.sp, s.ap)) = some ([0x01, 0x03, 0x00, 0x02, 0x00, 0x02], 0xFFFC, 0xFFFC) := by decide

/-- CL3. -/
theorem test_ret_zero :
    nextOf (step (start [0x80, 0x00] |>.writeBytes 0x7FFA [0x01, 0x03, 0x80, 0x00, 0x80, 0x00] |>.writeReg .sp 0x7FFA |>.writeReg .ap 0x7FFA))
      (fun s => ([s.ip, s.sp, s.ap], s.rs, [s.flag .RF, s.flag .EF], s.perr)) = some ([0x0103, 0x8000, 0x8000], 0x00, [true, false], none) := by decide

/-- CL4. -/
theorem test_ret_status :
    nextOf (step (start [0x80, 0x07] |>.writeBytes 0x7FFA [0x01, 0x03, 0x80, 0x00, 0x80, 0x00] |>.writeReg .sp 0x7FFA |>.writeReg .ap 0x7FFA |>.setFlag .RF false))
      (fun s => ([s.ip, s.sp, s.ap], s.rs, [s.flag .RF, s.flag .EF], s.perr)) = some ([0x0103, 0x8000, 0x8000], 0x07, [true, true], some 0x07) := by decide

/-- MV10. -/
theorem test_mov_thirteen_bytes :
    nextOf (step (start [0x8E, 0x1C, 0x34, 0x00, 0x04, 0x01, 0x02, 0x03, 0x04, 0x05, 0x06, 0x07, 0x08] |>.writeReg (.ar 0) 0x4000))
      (fun s => (s.readBytes 0x4004 8, s.ip)) = some ([1, 2, 3, 4, 5, 6, 7, 8], 0x010D) := by decide

/-- MV17. -/
theorem test_mov_flg :
    nextOf (step (start [0x8E, 0x2E, 0x31, 0xFF, 0xFF]))
      (fun s => (s.flg, s.perr)) = some (0xFFF0, some 0x04) := by decide

/-- MW5. -/
theorem test_mw_memory_form :
    nextOf (step (start [0x94, 0x32, 0x30, 0x00] |>.writeBytes 0x3000 [0x40, 0x00]))
      (fun s => s.wl) = some (0x3000) := by decide

/-- AL1. -/
theorem test_alloc_like_sub :
    nextOf (step (start [0x9C, 0x30, 0x80] |>.writeReg .ap 0x7FFA))
      (fun s => ((s.ap, s.sp), flags s)) = some ((0x7F7A, 0x8000), ⟨false, false, false, false, false, none⟩) := by decide

/-- AL2. -/
theorem test_alloc_overflow :
    nextOf (step (start [0x9C, 0x31, 0x01, 0x00]))
      (fun s => (s.ap, flags s)) = some (0x7F00, ⟨false, false, false, true, true, some 0x05⟩) := by decide

/-- IO7. -/
theorem test_iochan_two_pool_bytes :
    nextOf (step (start [0xA0, 0x10] |>.writePool 0x10 [0x40, 0x00]))
      (fun s => (s.chan, s.ip)) = some (0x4000, 0x0102) := by decide

/-- IO6. -/
theorem test_iochan_literal :
    nextOf (step (start [0xA4, 0x31, 0x40, 0x00]))
      (fun s => s.chan) = some (0x4000) := by decide

/-- IO4. -/
theorem test_in_discards :
    nextOf (step (start [0xAE, 0x31, 0x31, 0x40, 0x00, 0x40, 0x02] |> withInput [[0x68, 0x65, 0x6C, 0x0A], [0x78]]))
      (fun s => (s.readBytes 0x4000 4, s.conIn)) = some ([0x68, 0x65, 0, 0], [[0x78]]) := by decide

/-- P4b. -/
theorem test_in_file :
    nextOf (step (start [0xAE, 0x31, 0x31, 0x03, 0x00, 0x03, 0x04] |>.writeBytes 0x0200 [0x66, 0x00] |> onFile 0x0200 2 [0x66] [0x30, 0x31, 0x32, 0x33, 0x34, 0x35, 0x36]))
      (fun s => (s.readBytes 0x0300 4, s.fpos)) = some ([0x32, 0x33, 0x34, 0x35], 6) := by decide

/-- IO2. -/
theorem test_out_raw_bytes :
    nextOf (step (start [0xB6, 0x31, 0x31, 0x40, 0x00, 0x40, 0x03] |>.writeBytes 0x4000 [0x4F, 0x00, 0x4B, 0x21]))
      (fun s => s.conLog) = some ([0x4F, 0x00, 0x4B]) := by decide

/-- IO9. -/
theorem test_out_reversed : refusalOf (step (start [0xB6, 0x31, 0x31, 0x40, 0x03, 0x40, 0x00])) = some .ioRangeReversed := by decide

/-- IO1. -/
theorem test_outs_stops :
    nextOf (step (start [0xBC, 0x31, 0x40, 0x00] |>.writeBytes 0x4000 [0x4F, 0x4B]))
      (fun s => (s.conLog, s.ip)) = some ([0x4F, 0x4B], 0x0104) := by decide

/-- IO12. -/
theorem test_outs_simd :
    nextOf (step (start [0xBC, 0x40]))
      (fun s => (s.flag .SEF, s.flag .EF, s.perr)) = some (true, true, some 0x02) := by decide

/-- IO8. -/
theorem test_seek_literal :
    nextOf (step (start [0xC4, 0x30, 0x10]))
      (fun s => s.fpos) = some (16) := by decide

/-- IO10. -/
theorem test_inth_records :
    nextOf (step (start [0xC8, 0x03, 0x00]))
      (fun s => (s.ih, s.ip)) = some (some 0x0300, 0x0103) := by decide

/-- IO11. -/
theorem test_nop_advances :
    nextOf (step (start [0xD0]))
      (fun s => (s.ip, s.flg)) = some (0x0101, 0x0900) := by decide

/-- FL9. -/
theorem test_nop_with_pending_error :
    nextOf (step (start [0xD0] |>.setFlag .EF true |>.setFlag .NOF true |> withError 0x05))
      (fun s => (s.halted, s.ip)) = some (some 0x05, 0x0100) := by decide

/-- R141. -/
theorem test_exit_alias_1B :
    nextOf (step (start [0xD8, 0x10]))
      (fun s => (s.halted, s.ip)) = some (some 0x10, 0x0100) := by decide

/-- R141. -/
theorem test_exit_alias_1C :
    nextOf (step (start [0xE0, 0x11]))
      (fun s => (s.halted, s.ip)) = some (some 0x11, 0x0100) := by decide

/-- R141. -/
theorem test_exit_alias_1D :
    nextOf (step (start [0xE8, 0x12]))
      (fun s => (s.halted, s.ip)) = some (some 0x12, 0x0100) := by decide

/-- R141. -/
theorem test_exit_alias_1E :
    nextOf (step (start [0xF0, 0x13]))
      (fun s => (s.halted, s.ip)) = some (some 0x13, 0x0100) := by decide

/-- EX2. -/
theorem test_exit_alias_1F :
    nextOf (step (start [0xFF, 0x03]))
      (fun s => (s.halted, s.ip)) = some (some 0x03, 0x0100) := by decide

set_option maxRecDepth 4000 in
/-- MW1, the first byte copied out. -/
theorem test_mw_copies_the_window :
    nextOf (step { start [0x94, 0x31, 0x20, 0x00] with wl := 0x1000, pool := (start []).pool.setByte 0x00 0xAA |>.setByte 0x80 0x77 })
      (fun s => (s.readByte 0x1000, s.poolByte 0x80, s.wl)) = some (0xAA#8, 0x77#8, 0x2000#16) := by decide

/-! ### Witnesses: states and operands that meet the hypotheses of the obligations, clause by clause -/

/-- An instruction ends in a next state of which `P` holds. -/
def endsWith (i : Instr) (s : State) (P : State → Bool) : Bool :=
  match exec i s with
  | .next t => P t
  | _ => false

theorem endsWith_spec {i : Instr} {s : State} {P : State → Bool} (h : endsWith i s P = true) :
    ∃ t, exec i s = .next t ∧ P t = true := by
  unfold endsWith at h
  split at h
  · rename_i t e; exact ⟨t, e, h⟩
  · cases h

theorem witness_DecodingAnEncodingGivesItBack :
    (Instr.cmp (.lit (.b64 0xFFFFFFFFFFFFFFFF#64)) (.lit (.b64 0#64))).wf = true := by decide

theorem witness_DecodedInstruction :
    (∃ i, decode [0x66, 0x34, 0x34, 0, 0, 0, 0, 0, 0, 0, 5, 1, 2, 3, 4, 5, 6, 7, 8] = .ok i [] ∧ 13 < i.len) ∧
      28 ≤ (List.replicate 28 0x00#8).length := by
  exact ⟨⟨_, test_decode_longest, by decide⟩, by decide⟩

theorem witness_InvalidOperandRoles :
    (Instr.div (.pool 0x00#8) (.lit (.b64 0#64)) (.pool 0xFF#8)).invalid = some .literalDestination ∧
      (Instr.not (.mem (.abs 0xFFFF#16))).invalid = some .memoryDestination ∧
      (Instr.out (.mem (.reg .wl)) (.mem (.off .sp 0#16))).invalid = some .twoMemoryOperands := by decide

theorem witness_OperandIds :
    (0x43#8).toNat < 0x44 ∧ 8 ≤ (List.replicate 8 0x00#8).length ∧ 0x44 ≤ (0x44#8).toNat ∧ 0x44 ≤ (0xFF#8).toNat := by
  decide

theorem witness_UnusedTypeBits :
    (0x1F#5 ∈ [0x00#5, 0x06#5, 0x0F#5, 0x10#5, 0x19#5, 0x1A#5, 0x1B#5, 0x1C#5, 0x1D#5, 0x1E#5, 0x1F#5]) ∧
      (4#3).getLsbD 2 = (7#3).getLsbD 2 ∧ (6#3).getLsbD 2 = (7#3).getLsbD 2 ∧ (6#3).getLsbD 1 = (7#3).getLsbD 1 := by
  decide

theorem witness_StepRunsTheDecodedInstruction :
    Ready (start [0xD0]) ∧ decode (start [0xD0]).fetchBytes = .ok .nop (List.replicate 27 0x00#8) := by
  unfold Ready; decide

theorem witness_PendingErrorCheck :
    ({ start [] with halted := some 0x00#8 } : State).halted ≠ none ∧ (start [0x0C, 0x30]).perr = none ∧
      decode (start [0x0C, 0x30]).fetchBytes = .bad (.invalid .literalDestination) ∧
      (withError 0x05 (start [0x75])).perr = some 0x05#8 ∧
      ((withError 0x05 (start [0x75])).readByte 0x0100).extractLsb' 3 5 = 0x0E#5 ∧
      ((withError 0x05 (start [0x75])).readByte 0x0100).extractLsb' 0 3 = 5#3 ∧
      ((withError 0x05 (start [0x74])).readByte 0x0100).extractLsb' 0 3 ≠ 5#3 := by decide

theorem witness_InvalidInstruction :
    Ready (start [0x0A, 0x10, 0x44]) ∧
      decode (start [0x0A, 0x10, 0x44]).fetchBytes = .bad (.unassignedOperand 0x44#8) := by
  unfold Ready; decide

theorem witness_Exit : opcodeOf 0x07#8 = 0x00 ∧ 0x1A < opcodeOf 0xD8#8 ∧ 0x1A < opcodeOf 0xFF#8 := by decide

theorem witness_ZeroFilledMemory :
    Ready State.reset ∧ State.reset.readByte State.reset.ip = 0x00#8 ∧
      State.reset.readByte (State.reset.ip + 1#16) = 0x00#8 := by
  unfold Ready; decide

/-- A state with a pending error, a stored byte and an open file meets all the invariants, and steps. -/
def busy : State :=
  { withError 0x05 (start [0x6D] |>.setFlag .EF true) with
    chan := 0x0200#16, openFile := some ⟨[0x66#8], .writing⟩, files := [⟨[0x66#8], []⟩, ⟨[0x67#8], [0x01#8]⟩] }

theorem witness_invariants :
    MemoryCanonical busy ∧ FlagsHardWired busy ∧ PendingErrorSound busy ∧ OpenFileSound busy ∧ FilesAreAMap busy ∧
      busy.perr ≠ none ∧ busy.openFile ≠ none ∧ nextOf (step busy) (·.ip) = some 0x0000#16 := by
  unfold MemoryCanonical FlagsHardWired PendingErrorSound OpenFileSound FilesAreAMap; decide

theorem witness_RegistersChange :
    endsWith (.mov (.reg (.ar 3)) (.lit (.b8 0x01#8))) (start []) (fun t => t.readReg (.ar 3) == 1#16) = true ∧
      endsWith (.call 0x0200#16) (start []) (fun t => t.sp == 0x7FFA#16 && t.ap == 0x7FFA#16) = true ∧
      endsWith (.mov (.reg .wl) (.lit (.b8 0x01#8))) (start []) (fun t => t.wl == 1#16) = true ∧
      endsWith (.ret 0x07#8) (start []) (fun t => t.rs == 7#8) = true := by decide

theorem witness_ControlFlags :
    endsWith (.ign 0#3) (start []) (fun t => !t.flag .RF) = true ∧
      endsWith (.mode 0x13#8) (start []) (fun t => t.flag .FMF && t.wlb == 3#2) = true := by decide

theorem witness_ErrorFlags :
    (start [] |>.setFlag .EF true |>.setFlag .SEF true).flag .EF = true ∧
      (start [] |>.setFlag .EF true |>.setFlag .SEF true).flag .SEF = true ∧
      endsWith (.jfl 5#3 0x0000#16) (start [] |>.setFlag .EF true) (fun t => !t.flag .EF) = true ∧
      endsWith (.mov (.reg .flg) (.lit (.b16 0#16))) (start [] |>.setFlag .SEF true) (fun t => !t.flag .SEF) = true := by
  decide

theorem witness_ErrorsArePending :
    (start []).perr = none ∧ (start []).flag .EF = false ∧
      endsWith (.ret 0xFF#8) (start []) (fun t => t.flag .EF && t.flag .RF && t.perr == some 0xFF#8) = true := by decide

theorem witness_MemoryChanges :
    endsWith (.mov (.mem (.abs 0xFFFF#16)) (.lit (.b8 0x01#8))) (start []) (fun t => t.readByte 0xFFFF != 0#8) = true := by
  decide

theorem witness_Console :
    endsWith (.out (.lit (.b16 0x0100#16)) (.lit (.b16 0x0101#16))) (start [0xD0]) (fun t => t.conLog == [0xD0#8]) = true ∧
      endsWith (.inp (.lit (.b16 0x0100#16)) (.lit (.b16 0x0100#16))) (withInput [[]] (start [])) (fun t => t.conIn == []) =
        true := by decide

/-- A data-pool destination at the end of the pool and the hard-wired-width registers, W = 8. -/
theorem witness_ScalarOperands :
    ScalarOperands (start []) (.pool 0xFF#8) (.mem (.off .wl 0xFFFF#16)) ∧
      ScalarOperands (start []) (.reg .ip) (.pool 0xFF#8) ∧ ScalarOperands (start []) (.reg .rs) (.reg .flg) ∧
      ScalarOperands (start [] |>.setWlb 3) (.pool 0xF8#8) (.lit (.b64 0#64)) ∧
      ScalarOperands (start []) (.reg (.pi 3)) (.reg (.pi 3)) ∧
      (start []).floatMode [.pool 0xFF#8, .mem (.off .wl 0xFFFF#16)] = false := by
  refine ⟨?_, ?_, ?_, ?_, ?_, by decide⟩ <;> constructor <;> decide

theorem witness_Alloc :
    isSimd (.pool 0xFF#8) = false ∧ (start []).operandFits (.pool 0xFF#8) = true ∧
      (start []).floatMode [.reg .ap, .pool 0xFF#8] = false ∧
      (start [] |>.setFlag .FMF true).floatMode [.reg .ap, .pool 0xFF#8] = true := by decide

theorem witness_Cmp :
    badSources (.mem (.reg .sp)) (.lit (.b64 0#64)) = none ∧ isSimd (.mem (.reg .sp)) = false ∧
      isSimd (.lit (.b64 0#64)) = false ∧ (start []).operandFits (.mem (.reg .sp)) = true ∧
      (start []).operandFits (.lit (.b64 0#64)) = true ∧
      (start []).floatMode [.mem (.reg .sp), .lit (.b64 0#64)] = false := by decide

/-- Adjacent pool destinations at W = 16, one register, and the same operand twice; a divisor other than zero and zero. -/
theorem witness_TwoDestinations :
    TwoDestinations (start [] |>.setWlb 1) (.pool 0x20#8) (.pool 0x22#8) (.lit (.b8 0x02#8)) ∧
      TwoDestinations (start [] |>.setWlb 1) (.reg .ip) (.pool 0xFE#8) (.lit (.b8 0x00#8)) ∧
      TwoDestinations (start []) (.pool 0xFF#8) (.pool 0xFF#8) (.mem (.abs 0xFFFF#16)) ∧
      Operand.pool 0x20#8 ≠ .pool 0x22#8 ∧
      (start [] |>.setWlb 1).floatMode [.pool 0x20#8, .pool 0x22#8, .lit (.b8 0x02#8)] = false ∧
      (start []).floatMode [.pool 0xFF#8, .pool 0xFF#8, .mem (.abs 0xFFFF#16)] = false ∧
      (start [] |>.setWlb 1).readOp (.lit (.b8 0x02#8)) 16 ≠ 0 ∧ (start [] |>.setWlb 1).readOp (.lit (.b8 0x00#8)) 16 = 0 := by
  refine ⟨⟨by decide, by decide⟩, ⟨by decide, by decide⟩, ⟨by decide, by decide⟩, by decide⟩

theorem witness_FloatArithmetic :
    ScalarOperands (start [] |>.setFlag .FMF true) (.pool 0xFF#8) (.reg .sp) ∧
      (start [] |>.setFlag .FMF true).floatMode [.pool 0xFF#8, .reg .sp] = true ∧
      TwoDestinations (start [] |>.setFlag .FMF true) (.reg .rs) (.pool 0x00#8) (.reg .sp) ∧
      (start [] |>.setFlag .FMF true).floatMode [.reg .rs, .pool 0x00#8, .reg .sp] = true ∧
      badSources (.pool 0xFF#8) (.reg .sp) = none ∧ (start [] |>.setFlag .FMF true).flag .FMF = true ∧
      (start [] |>.setFlag .FMF true).operandFits (.simd .p1) = true := by
  refine ⟨?_, by decide, ⟨by decide, by decide⟩, by decide⟩
  constructor <;> decide

theorem witness_SimdDestination :
    (start [] |>.setWlb 3).operandFits (.simd .p1) = true ∧ (start [] |>.setWlb 3).operandFits (.pool 0xF8#8) = true ∧
      (start []).operandFits (.mem (.reg .wl)) = true ∧ (start []).flag .FMF = false := by decide

theorem witness_SimdError :
    isSimd (.reg .flg) = false ∧ badDest (.reg .flg) = none ∧ isSimd (.pool 0xFF#8) = false ∧
      badDest (.pool 0xFF#8) = none ∧ isSimd (.simd .p1) = true := by decide

theorem witness_MovStoresToMemory :
    Operand.isMem (.pool 0xF8#8) = false ∧ isSimd (.pool 0xF8#8) = false ∧
      (start [] |>.setWlb 3).operandFits (.pool 0xF8#8) = true ∧
      naturalWidth (start [] |>.setWlb 3).wordSize (.pool 0xF8#8) = some (8 * 8) ∧
      naturalWidth (start []).wordSize .wlb = some (8 * 1) := by decide

theorem witness_MovWritesFlags :
    isSimd (.lit (.b8 0xFF#8)) = false ∧ (start []).operandFits (.lit (.b8 0xFF#8)) = true ∧
      isSimd (.pool 0xFF#8) = false ∧ (start []).operandFits (.pool 0xFF#8) = true := by decide

/-- Pool operands that end at the last pool byte. -/
theorem witness_NumberOperand :
    NumberOperand 2 (.pool 0xFE#8) ∧ NumberOperand 8 (.pool 0xF8#8) ∧ NumberOperand 2 (.mem (.abs 0xFFFF#16)) ∧
      NumberOperand 8 (.reg .rs) ∧ NumberOperand 2 (.lit (.b64 0#64)) := by
  refine ⟨?_, ?_, ?_, ?_, ?_⟩ <;> constructor <;> decide

theorem witness_RetReversesCall :
    ∃ t u : State, exec (.call 0x0200#16) (start []) = .next t ∧ u.sp = t.sp ∧
      ∀ i < 6, u.readByte (t.sp + BitVec.ofNat 16 i) = t.readByte (t.sp + BitVec.ofNat 16 i) :=
  ⟨_, _, rfl, rfl, fun _ _ => rfl⟩

theorem witness_Mode : (0xF3#8).toNat % 16 ≤ 3 ∧ (0x00#8).toNat % 16 ≤ 3 ∧ 3 < (0x04#8).toNat % 16 ∧ 3 < (0xFF#8).toNat % 16 := by
  decide

/-- An input longer than the buffer, and no waiting input. -/
theorem witness_ConsoleInput :
    badSources (.lit (.b16 0x4000#16)) (.lit (.b16 0x4002#16)) = none ∧
      NumberOperand 2 (.lit (.b16 0x4000#16)) ∧ NumberOperand 2 (.lit (.b16 0x4002#16)) ∧
      (withInput [[0x61, 0x62, 0x63]] (start [])).chan = 0#16 ∧
      (withInput [[0x61, 0x62, 0x63]] (start [])).conIn = [0x61#8, 0x62#8, 0x63#8] :: [] ∧
      (start []).chan = 0#16 ∧ (start []).conIn = [] ∧
      ((start []).ioVal (.lit (.b16 0x4000#16)) 16).toNat ≤ ((start []).ioVal (.lit (.b16 0x4002#16)) 16).toNat := by
  refine ⟨by decide, ?_, ?_, by decide⟩ <;> constructor <;> decide

/-- The channel at the lowest file channel: a file read at its end, one that is open for writing and written at its end,
and a path that names no file, for which the host is asked. -/
theorem witness_File :
    256 ≤ (onFile 0x0100 3 [] [1, 2, 3] (start [])).chan.toNat ∧
      (onFile 0x0100 3 [] [1, 2, 3] (start [])).channelPath = some [] ∧
      (onFile 0x0100 3 [] [1, 2, 3] (start [])).channelMode .reading = .reading ∧
      fileContents (onFile 0x0100 3 [] [1, 2, 3] (start [])).files [] = some [1, 2, 3] ∧
      (onFile 0x0100 3 [] [1, 2, 3] (start [])).fpos.toNat ≤ [1#8, 2#8, 3#8].length ∧
      ({ onFile 0x0100 3 [] [1, 2, 3] (start []) with openFile := some ⟨[], .writing⟩ } : State).openFile.map (·.mode) =
        some .writing ∧
      ({ onFile 0x0100 3 [] [1, 2, 3] (start []) with openFile := some ⟨[], .writing⟩ } : State).channelPath = some [] ∧
      fileContents ({ onFile 0x0100 3 [] [1, 2, 3] (start []) with files := [] } : State).files [] = none ∧
      (start [0xD0]).stringAt 0x0100#16 = some [0xD0#8] := by
  decide

theorem witness_OutsString :
    (∀ i < 1, (start [0xD0]).readByte (0x0100#16 + BitVec.ofNat 16 i) ≠ 0x00#8) ∧
      (start [0xD0]).readByte (0x0100#16 + BitVec.ofNat 16 1) = 0x00#8 ∧
      (start [0xD0]).ioVal (.lit (.b16 0x0100#16)) 16 = 0x0100#16 ∧
      (start [0xD0]).stringAt 0x0100#16 = some [0xD0#8] := by decide

/-- Bytes 0x01 at `n` addresses from `a` on. -/
def ones : Nat → Nat → Memory
  | 0, _ => []
  | n + 1, a => (a, 0x01#8) :: ones n (a + 1)

theorem read_ones (n a x : Nat) (h : a ≤ x) (h' : x < a + n) : (ones n a).read x = 0x01#8 := by
  induction n generalizing a with
  | zero => omega
  | succ n ih =>
    rw [ones, Memory.read]
    split
    · rfl
    · exact ih (a + 1) (by omega) (by omega)

/-- A memory without a 0x00 byte, so that no path ends. -/
theorem witness_OutsNeverCompletes :
    ∃ s : State, s.chan = 0x0100#16 ∧ s.openFile = none ∧ ∀ b : Word, s.readByte b ≠ 0x00#8 := by
  refine ⟨{ State.reset with mem := ones 65536 0, chan := 0x0100#16 }, rfl, rfl, fun b => ?_⟩
  have h := read_ones 65536 0 b.toNat (Nat.zero_le _) (by have := b.isLt; omega)
  intro hb
  have hb : (ones 65536 0).read b.toNat = 0x00#8 := hb
  rw [h] at hb
  exact absurd hb (by decide)

theorem witness_ArithmeticRefusals :
    isFlagOperand (.flag .TF) = true ∧ badDest (.flag .TF) = none ∧
      ((start [] |>.setWlb 1).operandFits (.pool 0xFF#8) && (start [] |>.setWlb 1).operandFits (.reg .sp)) = false ∧
      naturalWidth (start []).wordSize (.pool 0xFF#8) ≠ naturalWidth (start []).wordSize (.reg .sp) ∧
      naturalWidth (start [] |>.setWlb 1).wordSize (.pool 0x05#8) =
        naturalWidth (start [] |>.setWlb 1).wordSize (.reg (.wi 3)) ∧
      covers (start [] |>.setWlb 1).wordSize (.pool 0x05#8) 0x06#8 = true ∧
      covers (start [] |>.setWlb 1).wordSize (.reg (.wi 3)) 0x06#8 = true ∧
      badMov (.flag .EF) (.pool 0xFF#8) = none ∧ badDest (.simd .w0) = none ∧
      ((start [] |>.setWlb 1).operandFits (.simd .w0) && (start [] |>.setWlb 1).operandFits (.pool 0xFF#8)) = false ∧
      badSources (.mem (.abs 0#16)) (.pool 0xFF#8) = none ∧ isSimd (.pool 0xFF#8) = false ∧
      (start [] |>.setWlb 1).operandFits (.pool 0xFF#8) = false := by decide

theorem witness_IoRefusals :
    ((start []).ioVal (.lit (.b16 0xFFFE#16)) 16).toNat < ((start []).ioVal (.lit (.b16 0xFFFF#16)) 16).toNat ∧
      1 ≤ ({ start [] with chan := 1#16 } : State).chan.toNat ∧ ({ start [] with chan := 255#16 } : State).chan.toNat ≤ 255 ∧
      (fitsBytes 2 (.lit (.b8 0#8)) && fitsBytes 2 (.pool 0xFF#8)) = false ∧ fitsBytes 2 (.pool 0xFF#8) = false ∧
      fitsBytes 8 (.pool 0xF9#8) = false := by
  decide

end Sys2Proof.Tests
end

/-! The statements about the architectural state, after the lemmas they need: what a step keeps if every instruction keeps
it, and who writes each register and flag. -/

namespace Sys2Proof.Machine

/-! ### Invariants of a step -/

/-- What a halt, the discharge of a pending error and every instruction keep, every step keeps (R228). -/
theorem step_preserves {P : State → Prop} (hhalt : ∀ s c, P s → P (s.halt c)) (hdischarge : ∀ s, P s → P s.discharge)
    (hexec : ∀ i s t, s.halted = none → P s → exec i s = .next t → P t) {s t : State} (hs : P s)
    (h : step s = .next t) : P t := by
  obtain ⟨hrun, ⟨-, ⟨c, rfl⟩ | ⟨i, hi⟩⟩ | ⟨-, ⟨c, rfl⟩ | ⟨c, rfl⟩ | ⟨i, hi⟩⟩⟩ := step_next h
  · exact hhalt s c hs
  · exact hexec i s t hrun hs hi
  · exact hhalt s c hs
  · exact hhalt _ c (hdischarge s hs)
  · exact hexec i s.discharge t hrun (hdischarge s hs) hi

/-! ### The hard-wired bits of `flg` -/

/-- Bit 11 of what is put into `flg` is 1 and bits 3..0 are 0 (R31). -/
theorem flgForm_hardWired (v : Word) : (flgForm v).getLsbD 11 = true ∧ ∀ i < 4, (flgForm v).getLsbD i = false := by
  refine ⟨by simp [getLsbD_flgForm_bit], fun i hi => ?_⟩
  have h11 : i ≠ 11 := by omega
  simp [getLsbD_flgForm_bit, h11, Nat.not_le.mpr hi]

/-- A write of TF leaves `flg` as it reads (R31, R117). -/
theorem flgWith_TF (b : Bool) (v : Word) : flgWith .TF b v = flgForm v := by
  apply BitVec.eq_of_getLsbD_eq
  intro i hi
  rw [flgWith, getLsbD_flgForm_bit, getLsbD_flgForm_bit]
  have hmask : 1#16 <<< flagBit .TF = BitVec.twoPow 16 11 := rfl
  by_cases h11 : i = 11
  · simp [h11]
  · cases b <;> simp [hmask, h11, hi]

/-- Every instruction keeps the hard-wired bits (R31): `flg` is left alone or written in its form. -/
theorem exec_flagsHardWired {i : Instr} {s t : State} (hs : FlagsHardWired s) (h : exec i s = .next t) :
    FlagsHardWired t := by
  rcases (exec_does h).flg with heq | hform
  · rw [FlagsHardWired, heq]; exact hs
  · rw [FlagsHardWired, ← hform]; exact flgForm_hardWired t.flg

/-! ### Who writes a register -/

/-- The operand is no destination of the instruction, but written by the instruction's own rule (R167, R184, R186, R193,
R196; for the word length in `flg`, R117). -/
inductive WritesByRule : Instr → Operand → Prop
  | flg (src : Operand) : WritesByRule (.mov (.reg .flg) src) .wlb
  | mode (imm : Byte) : WritesByRule (.mode imm) .wlb
  | callSp (target : Word) : WritesByRule (.call target) (.reg .sp)
  | callAp (target : Word) : WritesByRule (.call target) (.reg .ap)
  | retSp (status : Byte) : WritesByRule (.ret status) (.reg .sp)
  | retAp (status : Byte) : WritesByRule (.ret status) (.reg .ap)
  | retRs (status : Byte) : WritesByRule (.ret status) (.reg .rs)
  | lowerWindow (a : Operand) : WritesByRule (.mw a) (.simd .w0)
  | upperWindow (a : Operand) : WritesByRule (.mw a) (.simd .w1)
  | windowLocation (a : Operand) : WritesByRule (.mw a) (.reg .wl)
  | alloc (n : Operand) : WritesByRule (.alloc n) (.reg .ap)

/-- An instruction writes its destinations and what its own rule names. -/
theorem mem_writesOf {i : Instr} {o : Operand} (h : o ∈ writesOf i) : o ∈ destsOf i ∨ WritesByRule i o := by
  unfold writesOf at h
  split at h
  case h_7 => exact .inl h
  all_goals simp only [List.mem_cons, List.not_mem_nil, or_false] at h
  · rcases h with rfl | rfl
    · exact .inl (List.mem_singleton.mpr rfl)
    · exact .inr (.flg _)
  · exact .inr (h ▸ .mode _)
  · rcases h with rfl | rfl
    · exact .inr (.callSp _)
    · exact .inr (.callAp _)
  · rcases h with rfl | rfl | rfl
    · exact .inr (.retSp _)
    · exact .inr (.retAp _)
    · exact .inr (.retRs _)
  · rcases h with rfl | rfl | rfl
    · exact .inr (.lowerWindow _)
    · exact .inr (.upperWindow _)
    · exact .inr (.windowLocation _)
  · exact .inr (h ▸ .alloc _)

/-- A two-operand instruction with the word length as destination stores nothing in it: the forms that are not refused
halt or raise the SIMD error (R117, R128). -/
theorem aluCases_wlb {s t : State} {src : Operand} {len : Nat} {lanes : Group → State} {scalar : State}
    (h : aluCases .wlb src len s lanes scalar = .next t) : t.wlb = s.wlb := by
  rcases aluCases_next h with rfl | ⟨g, hg, -⟩ | rfl | ⟨hd, -⟩
  · rfl
  · cases hg
  · exact (s.simdError_raised len).data.wlb (by simp)
  · exact absurd hd.2.2 (by decide)

/-- How `mul` can end in a next state (R156). -/
theorem execMul_next {s t : State} {hi lo src : Operand} (h : execMul hi lo src s = .next t) :
    t = s.invalidInstruction ∨
      (TwoDestinations s hi lo src ∧ t = s.mulStep hi lo src (Instr.mul hi lo src).len) := by
  unfold execMul at h
  split at h
  · exact .inl (Host.Outcome.next.inj h).symm
  · rename_i hvalid
    split at h
    · cases h
    · rename_i hruns
      exact .inr ⟨⟨by simpa using hvalid, hruns⟩, (Host.Outcome.next.inj h).symm⟩

/-- How `div` can end in a next state (R161). -/
theorem execDiv_next {s t : State} {m q src : Operand} (h : execDiv m q src s = .next t) :
    t = s.invalidInstruction ∨ (TwoDestinations s m q src ∧ t = s.divStep m q src (Instr.div m q src).len) := by
  unfold execDiv at h
  split at h
  · exact .inl (Host.Outcome.next.inj h).symm
  · rename_i hvalid
    split at h
    · cases h
    · rename_i hruns
      exact .inr ⟨⟨by simpa using hvalid, hruns⟩, (Host.Outcome.next.inj h).symm⟩

/-- No `mul` or `div` runs with the word length as a destination (R117, U7). -/
theorem not_twoDestinations_wlb {s : State} {d1 d2 src : Operand} (hd : Operand.wlb ∈ [d1, d2]) :
    ¬ TwoDestinations s d1 d2 src := by
  intro h
  obtain ⟨h1, h2, -⟩ := h.spec
  simp only [List.mem_cons, List.not_mem_nil, or_false] at hd
  rcases hd with rfl | rfl
  · exact absurd h1.2.2 (by decide)
  · exact absurd h2.2.2 (by decide)

/-- Of the instructions with a destination only `mov` writes the word length (R117, U7). -/
theorem eq_mov_of_wlb_dest_changed {i : Instr} {s t : State} (hd : Operand.wlb ∈ destsOf i) (h : exec i s = .next t)
    (hne : t.wlb ≠ s.wlb) : ∃ src, i = .mov .wlb src := by
  have alu : ∀ {d src len lanes scalar}, Operand.wlb ∈ [d] → aluCases d src len s lanes scalar = .next t →
      t.wlb = s.wlb := by
    intro d src len lanes scalar hd h
    obtain rfl := List.mem_singleton.mp hd
    exact aluCases_wlb h
  cases i with
  | mov d src => exact ⟨src, by rw [List.mem_singleton.mp hd]⟩
  | add d src | sub d src | and d src | or d src | nor d src | xor d src | not d => exact absurd (alu hd h) hne
  | mul hi lo src =>
    rcases execMul_next h with rfl | ⟨hruns, -⟩
    · exact absurd rfl hne
    · exact absurd hruns (not_twoDestinations_wlb hd)
  | div m q src =>
    rcases execDiv_next h with rfl | ⟨hruns, -⟩
    · exact absurd rfl hne
    · exact absurd hruns (not_twoDestinations_wlb hd)
  | _ => cases hd

/-! ### Who writes a flag -/

/-- The instruction writes the control flag, RF or FMF, by its own rule or because `mov` has it, or `flg`, as destination
(R117, R166, R167, R184, R186). -/
inductive WritesControlFlag : Instr → Flag → Prop
  | ign (types : BitVec 3) : WritesControlFlag (.ign types) .RF
  | call (target : Word) : WritesControlFlag (.call target) .RF
  | ret (status : Byte) : WritesControlFlag (.ret status) .RF
  | mode (imm : Byte) : WritesControlFlag (.mode imm) .FMF
  | flag (f : Flag) (src : Operand) : WritesControlFlag (.mov (.flag f) src) f
  | flg (f : Flag) (src : Operand) : WritesControlFlag (.mov (.reg .flg) src) f

/-- The instructions that may write RF or FMF (R29, R229). -/
theorem control_mem_flagsOf {i : Instr} {f : Flag} (hf : f = .RF ∨ f = .FMF) (h : f ∈ flagsOf i) :
    WritesControlFlag i f := by
  have hother : ∀ {fs : List Flag}, f ∈ fs → fs ⊆ [.ZF, .SF, .OF, .NOF, .EF, .DZF, .SEF] → WritesControlFlag i f := by
    intro fs hfs hsub
    rcases hf with rfl | rfl <;> exact absurd (hsub hfs) (by decide)
  cases i with
  | ign types => exact List.mem_singleton.mp h ▸ .ign types
  | mode imm => exact List.mem_singleton.mp h ▸ .mode imm
  | call target => exact List.mem_singleton.mp h ▸ .call target
  | ret status =>
    rcases List.mem_cons.mp h with rfl | herror
    · exact .ret status
    · exact hother herror (by simp)
  | jfl c target | sfl c target => exact hother h (by simp only [flagsOf]; split <;> simp)
  | mov d src =>
    unfold flagsOf at h
    split at h <;> rename_i hi <;> cases hi
    · rcases List.mem_cons.mp h with rfl | herror
      · exact .flag f src
      · exact hother herror (by simp)
    · exact .flg f src
    · exact hother h (by simp)
  | _ => exact hother h (by simp [flagsOf])

/-- The instructions that may clear EF or SEF (R32, R181). -/
theorem mayClear_cases {f : Flag} {i : Instr} (h : mayClear f i = true) :
    (f = .EF ∧ ((∃ a, i = .jfl 5#3 a) ∨ ∃ a, i = .sfl 5#3 a)) ∨
      ∃ d src, i = .mov d src ∧ (d = .flag f ∨ d = .reg .flg) := by
  unfold mayClear at h
  split at h
  · simp only [Bool.and_eq_true, decide_eq_true_iff, beq_iff_eq] at h
    obtain ⟨rfl, rfl⟩ := h
    exact .inl ⟨rfl, .inl ⟨_, rfl⟩⟩
  · simp only [Bool.and_eq_true, decide_eq_true_iff, beq_iff_eq] at h
    obtain ⟨rfl, rfl⟩ := h
    exact .inl ⟨rfl, .inr ⟨_, rfl⟩⟩
  · obtain rfl := of_decide_eq_true h
    exact .inr ⟨_, _, rfl, .inl rfl⟩
  · exact .inr ⟨_, _, rfl, .inr rfl⟩
  · cases h

/-! ### Imaginary registers -/

/-- Two pool bytes as a 16-bit value, most significant first (R15). -/
theorem State.readPoolWord_eq (s : State) (a : Byte) :
    s.readPoolWord a = s.poolByte a ++ s.poolByte (a + 1#8) := by
  rw [State.readPoolWord, State.readPool_two, ofBytes_two]

/-- The two pool bytes that hold a 16-bit value written to them, most significant first (R15, R44). -/
theorem State.poolByte_writePool_two (s : State) (a : Byte) (v : Word) :
    (s.writePool a (toBytes 2 v)).poolByte a = v.extractLsb' 8 8 ∧
      (s.writePool a (toBytes 2 v)).poolByte (a + 1#8) = v.extractLsb' 0 8 := by
  have h := s.readPool_writePool a (toBytes 2 v) (by simp)
  rw [length_toBytes, State.readPool_two, toBytes_two] at h
  simpa [toBytes_two] using h

/-! ### The statements about the architectural state (spec/10_state.md) -/

/-- Settles O13: a halt and the discharge of an error leave `flg` alone, and every instruction keeps its form. -/
theorem stepKeepsFlagsHardWired : Obligations.StepKeepsFlagsHardWired := fun _ _ hs h =>
  step_preserves (P := FlagsHardWired) (fun _ _ hs => hs) (fun _ hs => hs) (fun _ _ _ _ => exec_flagsHardWired) hs h

/-- Settles O18: by the frame of `exec_does` a register that changes is one that the instruction writes, as a destination
or by its own rule. -/
theorem registersChangeOnlyByTheirInstructions : Obligations.RegistersChangeOnlyByTheirInstructions := by
  intro i s t h
  have hframe := (exec_does h).data
  refine ⟨fun k hne => ?_, fun hne => ?_, fun hne => ?_, fun hne => ?_, fun hne => ?_⟩
  · rcases mem_writesOf (Decidable.not_imp_symm (hframe.ar k) hne) with hdest | hrule
    · exact hdest
    · cases hrule
  · refine (mem_writesOf (Decidable.not_imp_symm hframe.sp hne)).imp_right fun hrule => ?_
    cases hrule with
    | callSp target => exact .inl ⟨target, rfl⟩
    | retSp status => exact .inr ⟨status, rfl⟩
  · refine (mem_writesOf (Decidable.not_imp_symm hframe.ap hne)).imp_right fun hrule => ?_
    cases hrule with
    | callAp target => exact .inl ⟨target, rfl⟩
    | retAp status => exact .inr (.inl ⟨status, rfl⟩)
    | alloc n => exact .inr (.inr ⟨n, rfl⟩)
  · refine (mem_writesOf (Decidable.not_imp_symm hframe.wl hne)).imp_right fun hrule => ?_
    cases hrule with
    | windowLocation a => exact ⟨a, rfl⟩
  · refine (mem_writesOf (Decidable.not_imp_symm hframe.rs hne)).imp_right fun hrule => ?_
    cases hrule with
    | retRs status => exact ⟨status, rfl⟩

/-- Settles O19: RF and FMF by the flags that `exec_does` names; the word length by its operands, of which only `mov` writes
`WLB` as a destination. -/
theorem controlFlagsChangeOnlyByTheirInstructions : Obligations.ControlFlagsChangeOnlyByTheirInstructions := by
  intro i s t h
  have hframe := (exec_does h).data
  refine ⟨fun hne => ?_, fun hne => ?_, fun hne => ?_⟩
  · cases control_mem_flagsOf (.inl rfl) (Decidable.not_imp_symm (hframe.flag .RF) hne) with
    | ign types => exact .inl ⟨types, rfl⟩
    | call target => exact .inr (.inl ⟨target, rfl⟩)
    | ret status => exact .inr (.inr (.inl ⟨status, rfl⟩))
    | flag _ src => exact .inr (.inr (.inr ⟨_, src, rfl, .inl rfl⟩))
    | flg _ src => exact .inr (.inr (.inr ⟨_, src, rfl, .inr rfl⟩))
  · cases control_mem_flagsOf (.inr rfl) (Decidable.not_imp_symm (hframe.flag .FMF) hne) with
    | mode imm => exact .inl ⟨imm, rfl⟩
    | flag _ src => exact .inr ⟨_, src, rfl, .inl rfl⟩
    | flg _ src => exact .inr ⟨_, src, rfl, .inr rfl⟩
  · rcases mem_writesOf (Decidable.not_imp_symm hframe.wlb hne) with hdest | hrule
    · obtain ⟨src, rfl⟩ := eq_mov_of_wlb_dest_changed hdest h hne
      exact .inr ⟨_, src, rfl, .inl rfl⟩
    · cases hrule with
      | mode imm => exact .inl ⟨imm, rfl⟩
      | flg src => exact .inr ⟨_, src, rfl, .inr rfl⟩

/-- Settles O20: by `exec_does` an instruction that clears an error flag is one that may. -/
theorem errorFlagsAreClearedOnlyByTestOrWrite : Obligations.ErrorFlagsAreClearedOnlyByTestOrWrite := by
  intro i s t h
  have clears : ∀ f, f = .EF ∨ f = .SEF → s.flag f = true → t.flag f = false → mayClear f i = true := by
    intro f hf hset hclear
    cases hmay : mayClear f i with
    | true => rfl
    | false =>
      have hkept := (exec_does h).kept f hf hmay hset
      rw [hclear] at hkept
      cases hkept
  refine ⟨fun hset hclear => ?_, fun hset hclear => ?_⟩
  · rcases mayClear_cases (clears .EF (.inl rfl) hset hclear) with ⟨-, htest⟩ | hmov
    · exact htest.imp_right .inl
    · exact .inr (.inr hmov)
  · rcases mayClear_cases (clears .SEF (.inr rfl) hset hclear) with ⟨hef, -⟩ | hmov
    · cases hef
    · exact hmov

/-- Settles O45: the second byte of each register is the one after its first. -/
theorem imaginaryRegistersArePoolBytes : Obligations.ImaginaryRegistersArePoolBytes := by
  intro s k v
  have hw : wiBase k + 1#8 = BitVec.ofNat 8 (2 * k.val + 1) := (BitVec.ofNat_add _ 1).symm
  have hp : piBase k + 1#8 = BitVec.ofNat 8 (0x80 + 2 * k.val + 1) := (BitVec.ofNat_add _ 1).symm
  obtain ⟨hwHigh, hwLow⟩ := s.poolByte_writePool_two (wiBase k) v
  obtain ⟨hpHigh, hpLow⟩ := s.poolByte_writePool_two (piBase k) v
  rw [← hw, ← hp]
  exact ⟨s.readPoolWord_eq (wiBase k), s.readPoolWord_eq (piBase k), hwHigh, hwLow, hpHigh, hpLow⟩

/-- Settles O24: whatever is stored, `flg` is read in its form. -/
theorem trueFlagAndUnusedBitsAreFixed : Obligations.TrueFlagAndUnusedBitsAreFixed := by
  intro s
  obtain ⟨hTF, hunused⟩ := flgForm_hardWired s.flg
  refine ⟨s.flag_TF, hTF, hunused, s.flag_TF, fun b => ?_, fun v => ?_⟩
  · rw [State.flgRead, State.setFlag_flg, flgForm_flgWith, flgWith_TF, State.flgRead]
  · rw [State.setFlg_flgRead]
    exact flgForm_hardWired v

end Sys2Proof.Machine

/-! The statements about memory, after the lemma they need: which instructions store to memory. -/

namespace Sys2Proof.Machine

/-! ### Who stores to memory -/

/-- An instruction with a range of memory to store to is a `mov` to memory, a `call`, an `mw` or an `in` (R47). -/
theorem storing_of_mem_storesOf {i : Instr} {s : State} {r : MemRange} (h : r ∈ storesOf i s) :
    (∃ m src, i = .mov (.mem m) src) ∨ (∃ target, i = .call target) ∨ (∃ a, i = .mw a) ∨ ∃ a b, i = .inp a b := by
  unfold storesOf at h
  split at h
  · exact .inl ⟨_, _, rfl⟩
  · exact .inr (.inl ⟨_, rfl⟩)
  · exact .inr (.inr (.inl ⟨_, rfl⟩))
  · exact .inr (.inr (.inr ⟨_, _, rfl⟩))
  · cases h

/-! ### The statements about memory (spec/20_memory.md) -/

/-- Settles O12: a halt and the discharge of an error leave memory alone, and by `exec_does` every instruction keeps its
form. -/
theorem stepKeepsMemoryCanonical : Obligations.StepKeepsMemoryCanonical := fun _ _ hs h =>
  step_preserves (P := MemoryCanonical) (fun _ _ hs => hs) (fun _ hs => hs) (fun _ _ _ _ hs h => (exec_does h).memory hs)
    hs h

/-- Settles O22: by the frame of `exec_does` a byte that changes lies in a range that the instruction stores to. -/
theorem memoryChangesOnlyByStoringInstructions : Obligations.MemoryChangesOnlyByStoringInstructions := by
  intro i s t a h hne
  refine Classical.byContradiction fun hnone => hne ?_
  exact (exec_does h).data.mem a fun r hr => absurd (storing_of_mem_storesOf hr) hnone

end Sys2Proof.Machine

/-! The statements about the encoding, after the lemmas they need: an instruction's bytes have its layout, an operand
decoded from an ID has that ID, and which type bits a layout uses. -/

namespace Sys2Proof

/-! ### Layouts and the operand rules -/

/-- The layout of an instruction's bytes is that instruction, valid or not (R60 to R73). -/
theorem decodeLayout_encode (i : Instr) (rest : List Byte) : decodeLayout (encode i ++ rest) = .ok i rest := by
  cases i with
  | ign t => simp [encode, decodeLayout, opcodeOf_byteZero, typeBitsOf_byteZero]
  | nop => simp [encode, decodeLayout, opcodeOf_byteZero]
  | exit c | mode c | ret c | exit1B c | exit1C c | exit1D c | exit1E c | exit1F c =>
    simp [encode, encodeI, decodeLayout, opcodeOf_byteZero, decodeI_encoded]
  | jfl c a | sfl c a | call a | inth a =>
    simp [encode, encodeA, decodeLayout, opcodeOf_byteZero, typeBitsOf_byteZero, decodeA_encoded]
  | not a | mw a | alloc a | ioChan a | outs a | seek a =>
    simp only [encode, encode1, List.cons_append, decodeLayout, opcodeOf_byteZero, byteZero_bits]
    exact decode1_encoded _ a rest
  | add a b | sub a b | and a b | or a b | nor a b | xor a b | cmp a b | mov a b | inp a b | out a b =>
    simp only [encode, encode2, List.cons_append, List.append_assoc, decodeLayout, opcodeOf_byteZero, byteZero_bits]
    exact decode2_encoded _ a b rest
  | mul a b c | div a b c =>
    simp only [encode, encode3, List.cons_append, List.append_assoc, decodeLayout, opcodeOf_byteZero, byteZero_bits]
    exact decode3_encoded _ a b c rest

/-- A layout that breaks no operand rule is decoded (R81). -/
theorem decode_of_valid {bs rest : List Byte} {i : Instr} (hlayout : decodeLayout bs = .ok i rest)
    (hvalid : i.invalid = none) : decode bs = .ok i rest := by
  simp [decode, hlayout, Decoded.andThen, hvalid]

/-- A layout that breaks an operand rule is rejected with the rule's name (R81). -/
theorem decode_of_invalid {bs rest : List Byte} {i : Instr} {why : Invalid} (hlayout : decodeLayout bs = .ok i rest)
    (hinvalid : i.invalid = some why) : decode bs = .bad (.invalid why) := by
  simp [decode, hlayout, Decoded.andThen, hinvalid]

/-- The decoder runs out of bytes only where the layout does (R81). -/
theorem decodeLayout_of_decode_truncated {bs : List Byte} (h : decode bs = .bad .truncated) :
    decodeLayout bs = .bad .truncated := by
  cases hlayout : decodeLayout bs with
  | bad e => rwa [decode, hlayout] at h
  | ok i rest =>
    cases hinvalid : i.invalid with
    | none => simp [decode_of_valid hlayout hinvalid] at h
    | some why => simp [decode_of_invalid hlayout hinvalid] at h

/-- No layout takes more than 28 bytes: byte 0, and 27 more for three fields and their payloads (R66, R72). -/
theorem decodeLayout_enough {bs : List Byte} (h : 28 ≤ bs.length) : decodeLayout bs ≠ .bad .truncated := by
  cases bs with
  | nil => simp at h
  | cons b0 bs =>
    have hrest : 27 ≤ bs.length := by simpa using h
    simp only [decodeLayout]
    split <;> simp [decodeI_enough hrest, decodeA_enough hrest, decode1_enough hrest, decode2_enough hrest,
      decode3_enough hrest]

/-- Every instruction has byte 0 (R60). -/
theorem Instr.one_le_len (i : Instr) : 1 ≤ i.len := by
  cases i <;> simp only [Instr.len] <;> omega

/-! ### Operand IDs -/

/-- The operand ID of a form, whatever payload completes it (R70). -/
def Form.id : Form → Byte
  | .whole o => o.field
  | .lit8 => 0x30#8
  | .lit16 => 0x31#8
  | .lit32 => 0x33#8
  | .lit64 => 0x34#8
  | .offset r => r.offsetId
  | .absolute => 0x32#8

/-- The operand ID table gives an ID the form that has it (R70). -/
theorem id_of_formOf {f : Byte} {form : Form} (h : formOf f = some form) : form.id = f := by
  have hall : ∀ f : Byte, (formOf f).all (fun form => form.id == f) = true := by decide
  simpa [h] using hall f

/-- The operand ID table ends at 0x44 (R70, R81 case 4). -/
theorem formOf_eq_none_iff {f : Byte} : formOf f = none ↔ 0x44 ≤ f.toNat := by
  revert f; decide

/-- With the 8 bytes of the longest payload there, every form is completed (R71). -/
theorem Form.fill_enough (form : Form) {bs : List Byte} (h : 8 ≤ bs.length) : ∃ o rest, form.fill bs = .ok o rest := by
  cases form with
  | whole o => exact ⟨o, bs, rfl⟩
  | lit8 | lit16 | lit32 | lit64 | offset r | absolute =>
    rw [Form.fill, takeValue_enough (by omega)]
    exact ⟨_, _, rfl⟩

/-- An operand decoded from an ID has type bit 1, that ID and the payload at the front (R64, R70, R71). -/
theorem decodeOperand_id_ok {f : Byte} {bs rest : List Byte} {o : Operand} (h : decodeOperand true f bs = .ok o rest) :
    o.typeBit = true ∧ o.field = f ∧ o.payload = bs.take o.payloadSize := by
  cases hform : formOf f with
  | none => simp [decodeOperand, hform] at h
  | some form =>
    have hfill : form.fill bs = .ok o rest := by simpa [decodeOperand, hform] using h
    cases form with
    | whole o' =>
      cases hfill
      obtain ⟨hsize, htype, hfield⟩ := formOf_whole f o hform
      have hpayload : o.payload = [] := List.eq_nil_of_length_eq_zero ((length_payload o).trans hsize)
      exact ⟨htype, hfield, by rw [hpayload, hsize, List.take_zero]⟩
    | lit8 | lit16 | lit32 | lit64 | offset r | absolute =>
      obtain ⟨v, r, htake, hv⟩ := Decoded.andThen_ok hfill
      cases hv
      obtain ⟨-, -, hpayload⟩ := takeValue_ok htake
      exact ⟨rfl, id_of_formOf hform, hpayload⟩

/-- An assigned ID decodes to an operand where the 8 bytes of the longest payload are there (R70, R71). -/
theorem decodeOperand_id_enough {f : Byte} {bs : List Byte} (hf : f.toNat < 0x44) (h : 8 ≤ bs.length) :
    ∃ o rest, decodeOperand true f bs = .ok o rest := by
  cases hform : formOf f with
  | none => exact absurd (formOf_eq_none_iff.mp hform) (Nat.not_le.mpr hf)
  | some form => simpa [decodeOperand, hform] using form.fill_enough h

/-! ### Type bits -/

/-- The type bits of the first two fields are bits 2 and 1 of byte 0 (R61, R65). -/
theorem getLsbD_byteZero (op : BitVec 5) (t : BitVec 3) :
    (byteZero op t).getLsbD 2 = t.getLsbD 2 ∧ (byteZero op t).getLsbD 1 = t.getLsbD 1 := by
  revert op t; decide

/-- An instruction of format I, `call`, `inth` and `NOP` are laid out by what follows byte 0 (R65, R67). -/
theorem decodeLayout_no_field {op : BitVec 5}
    (hop : op ∈ [0x00#5, 0x06#5, 0x0F#5, 0x10#5, 0x19#5, 0x1A#5, 0x1B#5, 0x1C#5, 0x1D#5, 0x1E#5, 0x1F#5]) :
    ∃ layout : List Byte → Decoded Instr, ∀ t bs, decodeLayout (byteZero op t :: bs) = layout bs := by
  simp only [List.mem_cons, List.not_mem_nil, or_false] at hop
  rcases hop with rfl | rfl | rfl | rfl | rfl | rfl | rfl | rfl | rfl | rfl | rfl <;>
    simp only [decodeLayout, opcodeOf_byteZero] <;> exact ⟨_, fun _ _ => rfl⟩

/-- A one-field instruction is laid out by the first type bit and what follows byte 0 (R65, R66). -/
theorem decodeLayout_one_field {op : BitVec 5} (hop : op ∈ [0x0B#5, 0x12#5, 0x13#5, 0x14#5, 0x17#5, 0x18#5]) :
    ∃ mk, ∀ t bs, decodeLayout (byteZero op t :: bs) = decode1 mk (t.getLsbD 2) bs := by
  simp only [List.mem_cons, List.not_mem_nil, or_false] at hop
  rcases hop with rfl | rfl | rfl | rfl | rfl | rfl <;>
    simp only [decodeLayout, opcodeOf_byteZero, getLsbD_byteZero] <;>
    exact ⟨_, fun _ _ => rfl⟩

/-- A two-field instruction is laid out by the first two type bits and what follows byte 0 (R65, R66). -/
theorem decodeLayout_two_fields {op : BitVec 5}
    (hop : op ∈ [0x01#5, 0x02#5, 0x07#5, 0x08#5, 0x09#5, 0x0A#5, 0x0C#5, 0x11#5, 0x15#5, 0x16#5]) :
    ∃ mk, ∀ t bs, decodeLayout (byteZero op t :: bs) = decode2 mk (t.getLsbD 2) (t.getLsbD 1) bs := by
  simp only [List.mem_cons, List.not_mem_nil, or_false] at hop
  rcases hop with rfl | rfl | rfl | rfl | rfl | rfl | rfl | rfl | rfl | rfl <;>
    simp only [decodeLayout, opcodeOf_byteZero, getLsbD_byteZero] <;>
    exact ⟨_, fun _ _ => rfl⟩

/-! ### The statements about the encoding (spec/30_encoding.md) -/

/-- Settles O1: an instruction's bytes have its layout, which breaks no operand rule. -/
theorem decodingAnEncodingGivesItBack : Obligations.DecodingAnEncodingGivesItBack := fun i rest hwf =>
  decode_of_valid (decodeLayout_encode i rest) (by simpa [Instr.wf] using hwf)

/-- Settles O2: what is decoded is a valid layout, whose length is bounded by its operands. -/
theorem decodedInstructionIsValidAndHasItsLength : Obligations.DecodedInstructionIsValidAndHasItsLength := by
  refine ⟨fun bs i rest h => ?_, fun bs hlen h => decodeLayout_enough hlen (decodeLayout_of_decode_truncated h)⟩
  obtain ⟨hlayout, hwf⟩ := decode_ok h
  obtain ⟨hfits, hrest⟩ := decodeLayout_ok hlayout
  obtain ⟨hmax, hlong⟩ := Instr.len_of_wf hwf
  exact ⟨hwf, i.one_le_len, hmax, hfits, hrest, hlong⟩

/-- Settles O3: an instruction's bytes have its layout, valid or not, and the broken rule rejects it. -/
theorem invalidOperandRolesAreRejectedByName : Obligations.InvalidOperandRolesAreRejectedByName :=
  fun i _ rest hinvalid => decode_of_invalid (decodeLayout_encode i rest) hinvalid

/-- Settles O4: below 0x44 every ID has a form, which 8 bytes complete; from 0x44 on none has. -/
theorem operandIdsDecodeExactlyBelow0x44 : Obligations.OperandIdsDecodeExactlyBelow0x44 := by
  refine fun f bs => ⟨fun hf hlen => ?_, fun hf => ?_⟩
  · obtain ⟨o, rest, ho⟩ := decodeOperand_id_enough hf hlen
    obtain ⟨-, rfl⟩ := decodeOperand_ok ho
    exact ⟨o, ho, decodeOperand_id_ok ho⟩
  · simp [decodeOperand, formOf_eq_none_iff.mpr hf]

/-- Settles O5: the layout is made from the type bits that are used. -/
theorem unusedTypeBitsAreIgnored : Obligations.UnusedTypeBitsAreIgnored := by
  refine fun op t u bs => ⟨fun hop => ?_, fun hop h1 => ?_, fun hop h1 h2 => ?_⟩
  · obtain ⟨layout, hlayout⟩ := decodeLayout_no_field hop
    rw [decode, decode, hlayout, hlayout]
  · obtain ⟨mk, hlayout⟩ := decodeLayout_one_field hop
    rw [decode, decode, hlayout, hlayout, h1]
  · obtain ⟨mk, hlayout⟩ := decodeLayout_two_fields hop
    rw [decode, decode, hlayout, hlayout, h1, h2]

/-- Settles O6: the decoder, run on each example's bytes, answers the example. -/
theorem sampleBytesDecode : Obligations.SampleBytesDecode := by
  unfold Obligations.SampleBytesDecode
  decide

end Sys2Proof

/-! The statements about operands and SIMD groups, after the lemmas they need: which case of an instruction its operands
select, and what the writes of a group, of a flag and of `flg` leave behind. -/

namespace Sys2Proof.Machine

/-! ### The SIMD error -/

/-- A valid destination outside `mov` has no payload: neither a literal nor memory is one (R71, R81). -/
theorem payloadSize_of_badDest {d : Operand} (h : badDest d = none) : d.payloadSize = 0 := by
  cases d with
  | lit v | mem m => cases h
  | _ => rfl

/-- Two sources of which one is a SIMD group are not both memory (R81). -/
theorem badSources_of_simd {x y : Operand} (h : isSimd x = true ∨ isSimd y = true) : badSources x y = none := by
  rcases h with h | h
  · cases x with
    | simd g => rfl
    | _ => cases h
  · cases y with
    | simd g => simp [badSources, Operand.isMem]
    | _ => cases h

/-- `mov` of a SIMD group to a scalar is the SIMD error (R128). -/
theorem execMov_simdError {d : Operand} (g : Group) (s : State) (hv : badDest d = none) (hd : isSimd d = false) :
    execMov d (.simd g) s = .next (s.simdError (Instr.mov d (.simd g)).len) := by
  cases d with
  | lit v | mem m => cases hv
  | simd h => cases hd
  | _ => rfl

/-- `in` and `out` with a SIMD group in a field are the SIMD error, whatever they would transfer (R128). -/
theorem rangeCases_simdError {x y : Operand} (h : isSimd x = true ∨ isSimd y = true) (len : Nat) (s : State)
    (transfer : Word → Nat → StepOutcome) : rangeCases x y len s transfer = .next (s.simdError len) := by
  simp [rangeCases, badSources_of_simd h, h]

/-- `cmp` with a SIMD group in a field is the SIMD error (R128). -/
theorem execCmp_simdError {x y : Operand} (h : isSimd x = true ∨ isSimd y = true) (s : State) :
    execCmp x y s = .next (s.simdError (Instr.cmp x y).len) := by
  simp [execCmp, badSources_of_simd h, h]

/-- An instruction that answers with the SIMD error has raised it (R128). -/
theorem simdErrorRaised_of_eq {answer : StepOutcome} {s : State} {len : Nat}
    (h : answer = .next (s.simdError len)) : ∃ t, answer = .next t ∧ SimdErrorRaised s t len :=
  ⟨_, h, s.simdError_raised len⟩

/-! ### SIMD destinations -/

/-- In integer mode `add` and `sub` with a SIMD destination are lane operations (R122, R168). -/
theorem exec_add_sub_simd (g : Group) {src : Operand} {s : State} (hfit : s.operandFits src = true)
    (hmode : s.flag .FMF = false) :
    exec (.add (.simd g) src) s = .next ((s.groupOp g src (· + ·)).advance (Instr.add (.simd g) src).len) ∧
    exec (.sub (.simd g) src) s = .next ((s.groupOp g src (· - ·)).advance (Instr.sub (.simd g) src).len) := by
  simp [exec, execAdd, execSub, aluCases_simd hfit, hmode]

/-- A logic instruction with a SIMD destination is a lane operation, in either mode (R122, R169). -/
theorem logicCases_simd (g : Group) {src : Operand} {s : State} (hfit : s.operandFits src = true) (len : Nat)
    (op : ∀ {N : Nat}, BitVec N → BitVec N → BitVec N) :
    logicCases (.simd g) src len s op = .next ((s.groupOp g src op).advance len) :=
  aluCases_simd hfit _ _ _

/-- `not` of a SIMD group is the lane operation that complements (R127). -/
theorem exec_not_simd (g : Group) (s : State) :
    exec (.not (.simd g)) s = .next ((s.groupOp g (.simd g) fun a _ => ~~~a).advance 2) := rfl

/-- `mov` to a SIMD destination is the lane operation that takes the source's lane (R122 to R124). -/
theorem execMov_simd (g : Group) {src : Operand} {s : State} (hfit : s.operandFits src = true) :
    execMov (.simd g) src s = .next ((s.groupOp g src fun _ x => x).advance (Instr.mov (.simd g) src).len) := by
  simp [execMov, badMov, Operand.isLit, Operand.isMem, hfit]

/-- Complementing every lane writes the complements of the group's bytes (R127). -/
theorem State.groupOp_not (s : State) (g : Group) (src : Operand) :
    s.groupOp g src (fun a _ => ~~~a) = s.writeGroup g ((s.readGroup g).map (~~~ ·)) := by
  obtain ⟨k, hW, hk, hpos, -, hlanes⟩ := s.wordSize_split
  have hlen : (s.readGroup g).length = 64 := s.length_readPool _ _
  rw [State.groupOp, bytesOf_not (by omega) (by omega) _ (by rw [hlen, hk, hlanes]) _ (s.length_sourceLanes src)]

/-- Each byte of a group that is written byte by byte from its old bytes (R35). -/
theorem State.poolByte_writeGroup_map (s : State) (g : Group) (f : Byte → Byte) {b : Byte}
    (hb : inPoolRange (groupBase g) 64 b = true) :
    (s.writeGroup g ((s.readGroup g).map f)).poolByte b = f (s.poolByte b) := by
  have hlt : (b - groupBase g).toNat < 64 := of_decide_eq_true hb
  have hbyte : groupBase g + BitVec.ofNat 8 (b - groupBase g).toNat = b := by
    rw [BitVec.ofNat_toNat, BitVec.setWidth_eq, BitVec.add_comm, BitVec.sub_add_cancel]
  rw [State.writeGroup, State.poolByte_writePool _ _ _ (by simp [State.readGroup]), List.getElem?_map,
    State.readGroup, State.getElem?_readPool s _ hlt, hbyte]
  rfl

/-! ### `mov` between scalars -/

/-- `mov` between operands other than SIMD groups moves a scalar, or is refused where a pool operand runs past the pool
(R190, U5). -/
theorem execMov_scalars {d src : Operand} {s : State} (hv : badMov d src = none) (hd : isSimd d = false)
    (hs : isSimd src = false) :
    execMov d src s = if s.operandFits d && s.operandFits src then .next (s.movScalar d src (Instr.mov d src).len)
      else .refused .poolOverrun := by
  simp only [execMov, hv, Option.isSome_none, Bool.false_eq_true, if_false]
  split
  · cases hd
  · cases hs
  · cases hs
  · rfl

/-- `mov` between operands other than SIMD groups moves a scalar where no pool operand runs past the pool (R190). -/
theorem execMov_runs {d src : Operand} {s : State} (hv : badMov d src = none) (hd : isSimd d = false)
    (hs : isSimd src = false) (hfd : s.operandFits d = true) (hfs : s.operandFits src = true) :
    execMov d src s = .next (s.movScalar d src (Instr.mov d src).len) := by
  rw [execMov_scalars hv hd hs, hfd, hfs]; rfl

/-- Only a data-pool operand can run past the pool, never a SIMD group (R13). -/
theorem isSimd_of_not_fits {o : Operand} {s : State} (h : s.operandFits o = false) : isSimd o = false := by
  cases o with
  | simd g => cases h
  | _ => rfl

/-- `mov` with a pool operand that runs past the pool is refused (U5), but for a SIMD source (R233). -/
theorem execMov_overrun {d src : Operand} {s : State} (hv : badMov d src = none) (hs : isSimd src = false)
    (h : (s.operandFits d && s.operandFits src) = false) : execMov d src s = .refused .poolOverrun := by
  cases hd : isSimd d with
  | false => rw [execMov_scalars hv hd hs, h]; rfl
  | true =>
    cases d with
    | simd g =>
      have hsrc : s.operandFits src = false := h
      simp [execMov, hv, hsrc]
    | _ => cases hd

/-! ### Flags as destinations -/

/-- An error that is not raised changes nothing (R226). -/
@[simp] theorem State.raiseIf_false (s : State) (code : Byte) : s.raiseIf false code = s := rfl

/-- Setting a flag that is set changes nothing (R31, R117). -/
theorem flgWith_of_set {f : Flag} {v : Word} (h : v.getLsbD (flagBit f) = true) : flgWith f true v = flgForm v := by
  have hset : v ||| (1#16 <<< flagBit f) = v := by
    apply BitVec.eq_of_getLsbD_eq
    intro i hi
    by_cases hf : i = flagBit f
    · simp [hf, h]
    · have hbit : (1#16 <<< flagBit f).getLsbD i = false := by
        simp [BitVec.getLsbD_shiftLeft]; omega
      rw [BitVec.getLsbD_or, hbit, Bool.or_false]
  rw [flgWith, if_pos rfl, hset]

/-- A write of `flg` with bit 10 set has set EF already when it raises its error (R117, R227). -/
theorem State.flgRead_raiseIf_setFlg (s : State) (v : Word) (code : Byte) :
    ((s.setFlg v).raiseIf (v.getLsbD 10) code).flgRead = flgForm v := by
  cases h : v.getLsbD 10 with
  | false => simp
  | true =>
    have hef : (flgForm v).getLsbD (flagBit .EF) = true := by rw [getLsbD_flgForm]; simp [flagBit, h]
    simp [State.flgRead, flgWith_of_set hef]

/-- A write of a flag, with the error of a 1 written to EF, changes that flag alone (R117, R227). -/
theorem State.writeFlag_keeps (s : State) (f : Flag) (b : Bool) (code : Byte) :
    KeepsData s ((s.setFlag f b).raiseIf (decide (f = .EF) && b) code) [] [f] [] := by
  by_cases hf : f = .EF
  · subst hf
    exact (s.setFlag_keeps .EF b).trans (State.raiseIf_keeps _ _ code) (s.setFlag_wordSize .EF b)
  · simpa [hf] using s.setFlag_keeps f b

/-- Two updates in a row, the second of which names no operand: whatever the first does to the word size. -/
theorem KeepsData.trans_of_no_dest {s t u : State} {ds : List Operand} {fs : List Flag} {ms : List MemRange}
    (h1 : KeepsData s t ds fs ms) (h2 : KeepsData t u [] fs ms) : KeepsData s u ds fs ms where
  pool b hb := (h2.pool b (by simp)).trans (h1.pool b hb)
  ar k hk := (h2.ar k (by simp)).trans (h1.ar k hk)
  sp hk := (h2.sp (by simp)).trans (h1.sp hk)
  ap hk := (h2.ap (by simp)).trans (h1.ap hk)
  wl hk := (h2.wl (by simp)).trans (h1.wl hk)
  rs hk := (h2.rs (by simp)).trans (h1.rs hk)
  flag f hk := (h2.flag f hk).trans (h1.flag f hk)
  wlb hk := (h2.wlb (by simp)).trans (h1.wlb hk)
  mem a ha := (h2.mem a ha).trans (h1.mem a ha)

/-- A write of `flg`, with the error of a 1 in bit 10, changes the flags and the word length alone (R117, R227). -/
theorem State.writeFlg_keeps (s : State) (v : Word) (code : Byte) :
    KeepsData s ((s.setFlg v).raiseIf (v.getLsbD 10) code) [.wlb]
      [.ZF, .SF, .OF, .NOF, .EF, .DZF, .RF, .SEF, .FMF] [] :=
  (s.setFlg_keeps v).trans_of_no_dest (State.raiseIf_keeps _ _ code).mono

/-- `mov` to a flag writes bit 0 of the source's 8 bits (R117). -/
theorem State.movScalar_flag (s : State) (f : Flag) (src : Operand) (len : Nat) :
    s.movScalar (.flag f) src len = ((s.setFlag f ((s.readOp src 8).getLsbD 0)).raiseIf
      (decide (f = .EF) && (s.readOp src 8).getLsbD 0) unresolvedErrorCode).advance len := rfl

/-- `mov` to `WLB` writes the two low bits of the source's 8 bits (R117). -/
theorem State.movScalar_wlb (s : State) (src : Operand) (len : Nat) :
    s.movScalar .wlb src len = (s.setWlb ((s.readOp src 8).setWidth 2)).advance len := rfl

/-- `mov` to `flg` writes the source's 16 bits (R117). -/
theorem State.movScalar_flg (s : State) (src : Operand) (len : Nat) :
    s.movScalar (.reg .flg) src len = ((s.setFlg (s.readOp src 16)).raiseIf
      ((s.readOp src 16).getLsbD 10) unresolvedErrorCode).advance len := by
  have hvalue : s.movScalar (.reg .flg) src len =
      ((s.setFlg ((s.readOp src 16).setWidth 16)).raiseIf (((s.readOp src 16).setWidth 16).getLsbD 10)
        unresolvedErrorCode).advance len := rfl
  rw [hvalue, BitVec.setWidth_eq]

/-! ### What `mul` and `div` refuse -/

/-- `mul` and `div` on operands that the spec gives no meaning are refused by name (R119, R129). -/
theorem exec_mul_div_refused {s : State} {d1 d2 src : Operand} {r : Refusal}
    (hv : (badDest d1).or (badDest d2) = none) (h : s.mulDivRefusal d1 d2 src = some r) :
    exec (.mul d1 d2 src) s = .refused r ∧ exec (.div d1 d2 src) s = .refused r := by
  simp [exec, execMul, execDiv, hv, h]

/-! ### The statements about operands and SIMD groups (spec/40_operands_simd.md) -/

/-- Settles O35: each instruction is a lane operation, which stores its lanes. -/
theorem simdDestinationIsCombinedLaneByLane : Obligations.SimdDestinationIsCombinedLaneByLane := by
  intro g src s hfit
  refine ⟨fun hmode => ?_, ?_, ?_, ?_, ?_, ?_⟩
  · obtain ⟨hadd, hsub⟩ := exec_add_sub_simd g hfit hmode
    exact ⟨⟨_, hadd, s.groupOp_stored g src _ _⟩, ⟨_, hsub, s.groupOp_stored g src _ _⟩⟩
  · exact ⟨_, logicCases_simd g hfit _ (fun a b => a &&& b), s.groupOp_stored g src _ _⟩
  · exact ⟨_, logicCases_simd g hfit _ (fun a b => a ||| b), s.groupOp_stored g src _ _⟩
  · exact ⟨_, logicCases_simd g hfit _ (fun a b => ~~~(a ||| b)), s.groupOp_stored g src _ _⟩
  · exact ⟨_, logicCases_simd g hfit _ (fun a b => a ^^^ b), s.groupOp_stored g src _ _⟩
  · exact ⟨_, execMov_simd g hfit, s.groupOp_stored g src _ _⟩

/-- Settles O36: the lane operation that complements writes the complements of the group's bytes. -/
theorem notOfASimdGroupComplementsItsBytes : Obligations.NotOfASimdGroupComplementsItsBytes := by
  intro g s
  obtain ⟨-, hip, hperr, hdata, hhost⟩ := s.groupOp_stored g (.simd g) (fun a _ => ~~~a) 2
  refine ⟨_, exec_not_simd g s, fun b hb => ?_, hip, hperr, hdata, hhost⟩
  rw [State.advance_poolByte, State.groupOp_not]
  exact s.poolByte_writeGroup_map g (~~~ ·) hb

/-- Settles O37: every form answers with the SIMD error; the lengths are those of operands without a payload. -/
theorem simdOperandWhereScalarIsNeededRaises : Obligations.SimdOperandWhereScalarIsNeededRaises := by
  refine ⟨fun d g s hd hv => ?_, fun x y s h => ?_, fun g s => ?_⟩
  · have hlen : 3 + d.payloadSize + 0 = 3 := by rw [payloadSize_of_badDest hv]
    have halu : ∀ len lanes scalar, len = 3 → ∃ t,
        aluCases d (.simd g) len s lanes scalar = .next t ∧ SimdErrorRaised s t 3 := by
      rintro len lanes scalar rfl
      exact simdErrorRaised_of_eq (aluCases_simdError hv hd _ _ _)
    have hmov := simdErrorRaised_of_eq (execMov_simdError g s hv hd)
    rw [show (Instr.mov d (.simd g)).len = 3 from hlen] at hmov
    exact ⟨halu _ _ _ hlen, halu _ _ _ hlen, halu _ _ _ hlen, halu _ _ _ hlen, halu _ _ _ hlen, halu _ _ _ hlen, hmov⟩
  · exact ⟨simdErrorRaised_of_eq (execCmp_simdError h s), simdErrorRaised_of_eq (rangeCases_simdError h _ s _),
      simdErrorRaised_of_eq (rangeCases_simdError h _ s fun first n => s.sendBytes (s.readBytes first n))⟩
  · exact ⟨simdErrorRaised_of_eq rfl, simdErrorRaised_of_eq rfl, simdErrorRaised_of_eq rfl, simdErrorRaised_of_eq rfl,
      simdErrorRaised_of_eq rfl⟩

/-- Settles O38: the group's 64 bytes are stored as they are read. -/
theorem movStoresASimdGroup : Obligations.MovStoresASimdGroup := by
  intro m g s
  have hlen : (s.readGroup g).length = 64 := s.length_readPool _ _
  have hkeeps := (s.writeBytes_keeps (s.ea m) (s.readGroup g) (by omega)).advance
    (Instr.mov (.mem m) (.simd g)).len
  rw [hlen] at hkeeps
  refine ⟨_, rfl, fun i hi => ?_, rfl, rfl, hkeeps, (s.writeBytes_host _ _).trans (State.advance_host _ _)⟩
  rw [State.advance_readByte, State.readByte_writeBytes _ _ _ (by omega), add_ofNat_sub_toNat _ (by omega),
    State.readGroup, State.getElem?_readPool s _ hi]
  rfl

/-- Settles O41: the write is that of one flag or of the word length; the error of a 1 in EF sets EF, which is 1. -/
theorem movWritesFlags : Obligations.MovWritesFlags := by
  refine ⟨fun f src s hs hfit => ?_, fun src s hs hfit => ?_⟩
  · intro b
    refine ⟨_, execMov_runs rfl rfl hs rfl hfit, ?_⟩
    rw [State.movScalar_flag]
    refine ⟨?_, ?_, rfl, (s.writeFlag_keeps f b _).advance _,
      ((s.setFlag_host f b).trans (State.raiseIf_host _ _ _)).trans (State.advance_host _ _)⟩
    · rw [State.advance_flag, State.raiseIf_flag, State.setFlag_flag, if_pos rfl]
      by_cases hf : f = .EF
      · subst hf; simp [b]
      · simp [hf, b]
    · rw [State.advance_perr, State.raiseIf_perr, State.setFlag_flag, State.setFlag_perr]
      by_cases hf : f = .EF
      · subst hf; simp [b, unresolvedErrorCode]
      · simp [hf]
  · refine ⟨_, execMov_runs rfl rfl hs rfl hfit, ?_⟩
    rw [State.movScalar_wlb]
    exact ⟨by simp [BitVec.setWidth_eq_extractLsb'], rfl, rfl, (s.setWlb_keeps _).advance _,
      (s.setWlb_host _).trans (State.advance_host _ _)⟩

/-- Settles O42: `flg` is read as the value in its form, which the error leaves as it is; RF is bit 8 of the value. -/
theorem movWritesTheFlagsRegister : Obligations.MovWritesTheFlagsRegister := by
  intro src s hs hfit v
  refine ⟨_, execMov_runs rfl rfl hs rfl hfit, ?_⟩
  rw [State.movScalar_flg, State.advance_flgRead, State.flgRead_raiseIf_setFlg]
  obtain ⟨h11, hlow⟩ := flgForm_hardWired v
  refine ⟨fun i hi hne => ?_, h11, hlow, ?_, rfl, (s.writeFlg_keeps v _).advance _,
    ((s.setFlg_host v).trans (State.raiseIf_host _ _ _)).trans (State.advance_host _ _)⟩
  · rw [getLsbD_flgForm_bit]; simp [hi, hne, v]
  · rw [State.advance_perr, State.raiseIf_perr, State.setFlg_flag]; rfl

/-- Settles O59: the shared cases of the two-operand instructions, `mov`'s, and the refusals of `mul` and `div` in their
order; destinations overlap where a pool byte belongs to both. -/
theorem arithmeticFormsWithNoMeaningAreRefused : Obligations.ArithmeticFormsWithNoMeaningAreRefused := by
  refine ⟨fun d src s hv hs => ⟨fun hf => ?_, fun hf h => ?_, fun hf h => ?_⟩,
    fun d src s hv hs h => execMov_overrun hv hs h, fun x y s hv hx hy => ⟨fun h => ?_, fun h => ?_⟩,
    fun d1 d2 src s hv => ⟨fun h => ?_, fun h1 h2 h3 => ⟨fun hf => ?_, fun hf1 hf2 => ⟨fun hw => ?_, fun hw =>
      ⟨fun hfit => ?_, fun hfit hne hshared => ?_⟩⟩⟩⟩⟩
  · have hd : isSimd d = false := by
      cases d with
      | simd g => cases hf
      | _ => rfl
    exact ⟨aluCases_flag hf hs _ _ _, aluCases_flag hf hs _ _ _, aluCases_flag hf hs _ _ _,
      aluCases_flag hf hs _ _ _, aluCases_flag hf hs _ _ _, aluCases_flag hf hs _ _ _, aluCases_flag hf hd _ _ _⟩
  · have hrefused := fun len lanes scalar => aluCases_overrun hv hf hs h len lanes scalar
    exact ⟨hrefused _ _ _, hrefused _ _ _, hrefused _ _ _, hrefused _ _ _, hrefused _ _ _, hrefused _ _ _⟩
  · exact aluCases_overrun hv hf (isSimd_of_not_fits h) (by rw [h]; rfl) _ _ _
  · simp [exec, execCmp, hv, hx, hy, h]
  · simp [exec, execAlloc, hx, h]
  · exact exec_mul_div_refused hv (if_pos (by simpa [or_assoc] using h))
  · exact exec_mul_div_refused hv (by
      rw [State.mulDivRefusal, if_neg (by simp [h1, h2, h3]), if_pos (by simpa using hf)])
  · exact exec_mul_div_refused hv (by simp [State.mulDivRefusal, h1, h2, h3, hf1, hf2, hw])
  · exact exec_mul_div_refused hv (by simp [State.mulDivRefusal, h1, h2, h3, hf1, hf2, hw, hfit])
  · obtain ⟨hv1, hv2⟩ := Option.or_eq_none_iff.mp hv
    have hfits := hfit
    simp only [Bool.and_eq_true] at hfits
    have hoverlap : spansOverlap s.wordSize d1 d2 = true :=
      (spansOverlap_iff ⟨hv1, h1, hf1⟩ ⟨hv2, h2, hf2⟩ hfits.1.1 hfits.1.2).mpr hshared
    exact exec_mul_div_refused hv (by simp [State.mulDivRefusal, h1, h2, h3, hf1, hf2, hw, hfit, hne, hoverlap])

end Sys2Proof.Machine

/-! The statement about `exit`, after the lemmas it needs: which opcodes are laid out as a form of `exit`, and what
every such form does. -/

namespace Sys2Proof.Machine

/-! ### The forms of `exit` -/

/-- `exit` and its aliases, as instructions of an exit code (R140, R141). -/
def exitForms : List (Byte → Instr) := [.exit, .exit1B, .exit1C, .exit1D, .exit1E, .exit1F]

theorem forall_exitForms {p : (Byte → Instr) → Prop} :
    (∀ form ∈ exitForms, p form) ↔ p .exit ∧ p .exit1B ∧ p .exit1C ∧ p .exit1D ∧ p .exit1E ∧ p .exit1F := by
  simp [exitForms]

theorem exec_exitForm (code : Byte) (s : State) : ∀ form ∈ exitForms, exec (form code) s = .next (s.halt code) :=
  forall_exitForms.mpr ⟨rfl, rfl, rfl, rfl, rfl, rfl⟩

theorem invalid_exitForm (code : Byte) : ∀ form ∈ exitForms, (form code).invalid = none :=
  forall_exitForms.mpr ⟨rfl, rfl, rfl, rfl, rfl, rfl⟩

/-- The opcode has five bits (R61). -/
theorem opcodeOf_lt (b0 : Byte) : opcodeOf b0 < 0x20 := by
  revert b0; decide

/-- Opcode 0x00 and the opcodes above 0x1A are those of `exit` and its aliases, with the next byte as the exit code
(R62, R66). -/
theorem decodeLayout_exitForm {b0 : Byte} (hop : opcodeOf b0 = 0x00 ∨ 0x1A < opcodeOf b0) (code : Byte)
    (rest : List Byte) : ∃ form ∈ exitForms, decodeLayout (b0 :: code :: rest) = .ok (form code) rest := by
  have hlt := opcodeOf_lt b0
  have hcases : opcodeOf b0 = 0x00 ∨ opcodeOf b0 = 0x1B ∨ opcodeOf b0 = 0x1C ∨ opcodeOf b0 = 0x1D ∨
      opcodeOf b0 = 0x1E ∨ opcodeOf b0 = 0x1F := by omega
  rcases hcases with h | h | h | h | h | h <;> simp [decodeLayout, h, decodeI_encoded, exitForms]

/-! ### The statement about `exit` (spec/41_exit.md) -/

/-- Settles O10: the bytes are laid out as a form of `exit`, which breaks no operand rule, and every form halts. -/
theorem exitAndItsAliasesHaltWithTheirOperand : Obligations.ExitAndItsAliasesHaltWithTheirOperand := by
  refine ⟨fun b0 code rest hop => ?_, fun code s => forall_exitForms.mp (exec_exitForm code s)⟩
  obtain ⟨form, hform, hlayout⟩ := decodeLayout_exitForm hop code rest
  exact ⟨form code, decode_of_valid hlayout (invalid_exitForm code form hform), fun s => exec_exitForm code s form hform⟩

end Sys2Proof.Machine

/-! The statements about arithmetic and logic, after the lemmas they need: which case of its instruction runs, the results
and flags as facts about integers, and what floating-point mode leaves open. -/

namespace Sys2Proof.Machine

/-! ### Which case runs -/

/-- `mul` and `div` on operands that they accept run (R156, R161). -/
theorem TwoDestinations.exec_mul_div {s : State} {d1 d2 src : Operand} (h : TwoDestinations s d1 d2 src) :
    exec (.mul d1 d2 src) s = .next (s.mulStep d1 d2 src (Instr.mul d1 d2 src).len) ∧
    exec (.div d1 d2 src) s = .next (s.divStep d1 d2 src (Instr.div d1 d2 src).len) := by
  simp [exec, execMul, execDiv, h.badDest, h.runs]

/-- `cmp` on two valid scalars inside the pool runs (R174). -/
theorem execCmp_runs {x y : Operand} {s : State} (hv : badSources x y = none) (hx : isSimd x = false)
    (hy : isSimd y = false) (hfx : s.operandFits x = true) (hfy : s.operandFits y = true) :
    execCmp x y s = .next (s.compare x y (Instr.cmp x y).len) := by
  simp [execCmp, hv, hx, hy, hfx, hfy]

/-- `alloc` of a scalar inside the pool runs (R196). -/
theorem execAlloc_runs {n : Operand} {s : State} (hn : isSimd n = false) (hf : s.operandFits n = true) :
    execAlloc n s = .next (s.scalarSub (.reg .ap) n (Instr.alloc n).len) := by
  simp [execAlloc, hn, hf]

/-! ### Results and their flags as facts about integers -/

/-- ZF is computed by the Boolean test of equality and stated by the proposition (R151). -/
theorem bitVec_beq_eq_decide {N : Nat} (x y : BitVec N) : (x == y) = decide (x = y) := rfl

/-- The sum modulo `2^N` with the flags of R154. -/
theorem addResult_eq {N : Nat} (a b : BitVec N) :
    addResult a b =
      { value := BitVec.ofNat N (a.toNat + b.toNat)
        zf := decide (BitVec.ofNat N (a.toNat + b.toNat) = 0#N)
        sf := (BitVec.ofNat N (a.toNat + b.toNat)).getLsbD (N - 1)
        of := decide (2 ^ N ≤ a.toNat + b.toNat)
        nof := decide ((BitVec.ofNat N (a.toNat + b.toNat)).toInt ≠ a.toInt + b.toInt) } := by
  rw [addResult, addOverflow_eq, BitVec.msb_eq_getLsbD_last, bitVec_beq_eq_decide, add_eq_ofNat, carryOut]

/-- The difference modulo `2^N` with the flags of R155. -/
theorem subResult_eq {N : Nat} (a b : BitVec N) :
    subResult a b =
      { value := BitVec.ofInt N (a.toNat - b.toNat : Int)
        zf := decide (BitVec.ofInt N (a.toNat - b.toNat : Int) = 0#N)
        sf := (BitVec.ofInt N (a.toNat - b.toNat : Int)).getLsbD (N - 1)
        of := decide (a.toNat < b.toNat)
        nof := decide ((BitVec.ofInt N (a.toNat - b.toNat : Int)).toInt ≠ a.toInt - b.toInt) } := by
  rw [subResult, subOverflow_eq, BitVec.msb_eq_getLsbD_last, bitVec_beq_eq_decide, sub_eq_ofInt, borrowOut]

/-- With one destination NOF is set only where OF is (R157). -/
theorem mulNarrowResult_of_or_nof {N : Nat} (a b : BitVec N) :
    ((mulNarrowResult a b).of || (mulNarrowResult a b).nof) = (mulNarrowResult a b).of := by
  cases hnof : (mulNarrowResult a b).nof with
  | false => exact Bool.or_false _
  | true =>
    have hof : (mulNarrowResult a b).of = true := decide_eq_true (mulSignRule_ne hnof)
    rw [hof]; rfl

/-! ### Integer mode -/

/-- Outside floating-point mode `mul` stores the signed product, its flags by the number of destinations (R156). -/
theorem State.mulStep_integer {s : State} {hi lo src : Operand} (len : Nat) (h : s.floatMode [hi, lo, src] = false) :
    let a := s.readOp lo (s.widthBeside lo src)
    let b := s.readOp src (s.widthBeside lo src)
    s.mulStep hi lo src len = s.storeProduct hi lo len (s.widthsAgree lo src)
      (if hi = lo then mulNarrowResult a b else mulWideResult a b) (productHigh a b) := by
  intro a b
  simp only [State.mulStep, h, Bool.false_eq_true, if_false]
  split <;> rfl

/-- Outside floating-point mode `div` divides by zero or stores quotient and modulo (R161). -/
theorem State.divStep_integer {s : State} {m q src : Operand} (len : Nat) (h : s.floatMode [m, q, src] = false) :
    let N := s.widthBeside q src
    let a := s.readOp q N
    let b := s.readOp src N
    s.divStep m q src len = if b = 0 then s.divideByZero len else
      s.storeQuotient m q len (s.widthsAgree q src) (divQuotient a b == 0#N) (divQuotient a b).msb (divModulo a b)
        (divQuotient a b) := by
  simp only [State.divStep, h, Bool.false_eq_true, if_false]
  rfl

/-! ### Frames -/

/-- A flag that has not changed need not be named. -/
theorem KeepsData.without_flag {s t : State} {ds : List Operand} {fs : List Flag} {f : Flag} {ms : List MemRange}
    (h : KeepsData s t ds (fs ++ [f]) ms) (hf : t.flag f = s.flag f) : KeepsData s t ds fs ms where
  pool := h.pool
  ar := h.ar
  sp := h.sp
  ap := h.ap
  wl := h.wl
  rs := h.rs
  flag g hg := by
    by_cases hgf : g = f
    · rw [hgf, hf]
    · exact h.flag g (by simp [hg, hgf])
  wlb := h.wlb
  mem := h.mem

/-! ### Floating-point mode -/

/-- Whatever its result, a stored addition or subtraction is one with free flags (R168, U1). -/
theorem State.storeArith_open {N : Nat} (s : State) {d : Operand} (len : Nat) (agree : Bool) (r : ArithResult N)
    (hd : isScalarDest d) (hN : naturalWidth s.wordSize d = some N) :
    Advances s (s.storeArith d len agree r) d len ∧ OpenArith s (s.storeArith d len agree r) [d] agree := by
  obtain ⟨-, hip, -, hsf, -, hnof, herror, hdata, hhost⟩ := s.storeArith_spec len agree r hd hN
  exact ⟨hip, .of_spec hsf hnof herror hdata hhost⟩

/-- Whatever its operands, the subtraction of `sub` and `alloc` is one with free flags (R168, U1). -/
theorem State.scalarSub_open (s : State) {d : Operand} (src : Operand) (len : Nat) (hd : isScalarDest d) :
    Advances s (s.scalarSub d src len) d len ∧ OpenArith s (s.scalarSub d src len) [d] (s.widthsAgree d src) :=
  s.storeArith_open _ _ _ hd (hd.width s src)

/-- Whatever its result, a comparison is a subtraction with free flags that stores nothing (R174, U1). -/
theorem State.flagsOfArith_open {N : Nat} (s : State) (len : Nat) (agree : Bool) (r : ArithResult N) :
    let t := ((s.setArithFlags r agree).advance len).raiseIf r.nof signBitOverflowCode
    t.ip = s.ip + BitVec.ofNat 16 len ∧ OpenArith s t [] agree := by
  obtain ⟨hip, -, hsf, -, hnof, herror, hdata, hhost⟩ := s.flagsOfArith_spec len agree r
  exact ⟨hip, .of_spec hsf hnof herror hdata hhost⟩

/-- Whatever its result, a stored product is one with free flags (R168, U1). -/
theorem TwoDestinations.storeProduct_open {s : State} {hi lo src : Operand} (h : TwoDestinations s hi lo src)
    (len : Nat) (agree : Bool) (r : ArithResult (s.widthBeside lo src)) (high : BitVec (s.widthBeside lo src)) :
    (hi ≠ .reg .ip → Advances s (s.storeProduct hi lo len agree r high) lo len) ∧
      OpenProduct s (s.storeProduct hi lo len agree r high) [hi, lo] agree := by
  obtain ⟨hd1, hd2, hw1, hw2, hdisjoint⟩ := h.spec
  obtain ⟨-, -, hip, -, hsf, hof, hnof, hef, hperr, hdata, hhost⟩ :=
    s.storeProduct_spec len agree r high hd1 hd2 hw1 hw2 hdisjoint
  refine ⟨hip, fun hagree => ?_, ?_, ?_, hdata, hhost⟩
  · rw [hsf, hagree]; rfl
  · rw [hef, hof, hnof]
  · rw [hperr, hof, hnof]

/-- Whatever they are, a stored quotient and modulo are those of a division with free flags, DZF being 0 (R168, U1). -/
theorem TwoDestinations.storeQuotient_open {s : State} {m q src : Operand} (h : TwoDestinations s m q src)
    (len : Nat) (agree zf sf : Bool) (modulo quotient : BitVec (s.widthBeside q src)) :
    (m ≠ .reg .ip → Advances s (s.storeQuotient m q len agree zf sf modulo quotient) q len) ∧
      OpenQuotient s (s.storeQuotient m q len agree zf sf modulo quotient) [m, q] agree len := by
  obtain ⟨hd1, hd2, hw1, hw2, hdisjoint⟩ := h.spec
  obtain ⟨-, -, hip, -, hsf, hdzf, hperr, hdata, hhost⟩ :=
    s.storeQuotient_spec len agree zf sf modulo quotient hd1 hd2 hw1 hw2 hdisjoint
  refine ⟨hip, fun hagree => ?_, ?_, fun hzero => ?_, hdata.mono, hhost⟩
  · rw [hsf, hagree]; rfl
  · rw [hdzf]
    exact ⟨by rw [hdata.flag .EF (by decide), Bool.or_false], hperr⟩
  · rw [hdzf] at hzero
    cases hzero

/-- A division by zero is one with free flags, DZF being 1 (log entry 16). -/
theorem State.divideByZero_open (s : State) (ds : List Operand) (agree : Bool) (len : Nat) :
    OpenQuotient s (s.divideByZero len) ds agree len := by
  obtain ⟨hdzf, herror, hip, hdata, hhost⟩ := s.divideByZero_spec len
  exact ⟨fun _ => hdata.flag .SF (by decide), by rw [hdzf]; exact herror, fun _ => ⟨hip, hdata⟩, hdata.mono, hhost⟩

/-- `mul` in floating-point mode (R168, U1). -/
theorem TwoDestinations.mulStep_open {s : State} {hi lo src : Operand} (h : TwoDestinations s hi lo src) (len : Nat)
    (hmode : s.floatMode [hi, lo, src] = true) :
    (hi ≠ .reg .ip → Advances s (s.mulStep hi lo src len) lo len) ∧
      OpenProduct s (s.mulStep hi lo src len) [hi, lo] (s.widthsAgree lo src) := by
  simp only [State.mulStep, hmode, if_true]
  exact h.storeProduct_open len _ _ _

/-- `div` in floating-point mode: `FLOAT_OPS` says whether it divides by zero (R168, U1). -/
theorem TwoDestinations.divStep_open {s : State} {m q src : Operand} (h : TwoDestinations s m q src) (len : Nat)
    (hmode : s.floatMode [m, q, src] = true) :
    (m ≠ .reg .ip → Advances s (s.divStep m q src len) q len) ∧
      OpenQuotient s (s.divStep m q src len) [m, q] (s.widthsAgree q src) len := by
  simp only [State.divStep, hmode, if_true]
  split
  · exact ⟨fun _ _ => rfl, s.divideByZero_open _ _ len⟩
  · exact h.storeQuotient_open len _ _ _ _ _

/-- In floating-point mode `add` and `sub` with a SIMD destination are lane operations of `FLOAT_OPS` (R130, U1). -/
theorem exec_add_sub_simd_float (g : Group) {src : Operand} {s : State} (hfit : s.operandFits src = true)
    (hmode : s.flag .FMF = true) :
    exec (.add (.simd g) src) s = .next ((s.groupFloat g src .add).advance (Instr.add (.simd g) src).len) ∧
    exec (.sub (.simd g) src) s = .next ((s.groupFloat g src .sub).advance (Instr.sub (.simd g) src).len) := by
  simp [exec, execAdd, execSub, aluCases_simd hfit, hmode]

/-! ### The immediate of `mode` -/

/-- The low nibble of `mode`'s immediate (R167). -/
theorem toNat_lowNibble (imm : Byte) : (imm.extractLsb' 0 4).toNat = imm.toNat % 16 := by
  rw [BitVec.extractLsb'_toNat, Nat.shiftRight_zero]

/-- An assigned word length is given by the two low bits of the immediate (R30, R167). -/
theorem toNat_wordLengthBits {imm : Byte} (h : imm.toNat % 16 ≤ 3) :
    (imm.extractLsb' 0 2).toNat = imm.toNat % 16 := by
  rw [BitVec.extractLsb'_toNat, Nat.shiftRight_zero]
  omega

/-- The high nibble is not zero exactly if the immediate is at least 16 (R167). -/
theorem highNibble_ne_zero (imm : Byte) : (imm.extractLsb' 4 4 != 0#4) = decide (16 ≤ imm.toNat) := by
  revert imm; decide

/-! ### The statements about arithmetic and logic (spec/42_arith_logic.md) -/

/-- Settles O34: where they run, the instructions store some result with some flags, and what the shared ends do with those
does not depend on them. -/
theorem floatArithmeticRunsWithOpenResults : Obligations.FloatArithmeticRunsWithOpenResults := by
  refine ⟨fun d src s h _ => ⟨?_, ?_⟩, fun x y s hv hx hy hfx hfy _ => ?_, fun hi lo src s h hmode => ⟨?_, ?_⟩,
    fun n s hn hfit _ => ?_, fun g src s hfit hmode => ?_⟩
  · exact ⟨_, aluCases_scalar h _ _ _, s.storeArith_open _ _ _ h.dest h.width⟩
  · exact ⟨_, aluCases_scalar h _ _ _, s.scalarSub_open src _ h.dest⟩
  · exact ⟨_, execCmp_runs hv hx hy hfx hfy, s.flagsOfArith_open _ _ _⟩
  · exact ⟨_, h.exec_mul_div.1, h.mulStep_open _ hmode⟩
  · exact ⟨_, h.exec_mul_div.2, h.divStep_open _ hmode⟩
  · obtain ⟨hip, hopen⟩ := s.scalarSub_open (d := .reg .ap) n (Instr.alloc n).len ⟨rfl, rfl, rfl⟩
    exact ⟨_, execAlloc_runs hn hfit, hip (by decide), hopen⟩
  · obtain ⟨hadd, hsub⟩ := exec_add_sub_simd_float g hfit hmode
    exact ⟨⟨_, hadd, rfl, rfl, s.groupFloat_keeps g src _ _⟩, ⟨_, hsub, rfl, rfl, s.groupFloat_keeps g src _ _⟩⟩

/-- Settles O25: the stored result is the sum with the flags of `addResult_eq`. -/
theorem addStoresTheSum : Obligations.AddStoresTheSum := by
  intro d src s h hmode N a b r
  refine ⟨_, aluCases_scalar h _ _ _, .of_spec (r := addResult a b) ?_ ?_ ?_ ?_ ?_ ?_⟩
  · simp only [State.scalarAdd, hmode, Bool.false_eq_true, if_false]
    exact s.storeArith_spec _ _ _ h.dest h.width
  all_goals rw [addResult_eq]

/-- Settles O26: the stored result is the difference with the flags of `subResult_eq`. -/
theorem subStoresTheDifference : Obligations.SubStoresTheDifference := by
  intro d src s h hmode N a b r
  refine ⟨_, aluCases_scalar h _ _ _, .of_spec (r := subResult a b) ?_ ?_ ?_ ?_ ?_ ?_⟩
  · simp only [State.scalarSub, hmode, Bool.false_eq_true, if_false]
    exact s.storeArith_spec _ _ _ h.dest h.width
  all_goals rw [subResult_eq]

/-- Settles O28: the flags are those of the difference at the larger width. -/
theorem cmpSetsTheFlagsOfSub : Obligations.CmpSetsTheFlagsOfSub := by
  intro x y s hv hx hy hfx hfy hmode N a b r
  refine ⟨_, execCmp_runs hv hx hy hfx hfy, ?_⟩
  have hspec := s.flagsOfArith_spec (Instr.cmp x y).len (s.widthsAgree x y) (subResult a b)
  simp only [State.compare, hmode, Bool.false_eq_true, if_false]
  rw [subResult_eq] at hspec ⊢
  exact hspec

/-- Settles O29: each instruction stores the result of its operation. -/
theorem logicInstructionsStoreTheirResult : Obligations.LogicInstructionsStoreTheirResult := by
  refine ⟨fun d src s h => ?_, fun d s h => ?_⟩
  · have hstored := fun len agree r => s.storeLogic_spec len agree r h.dest h.width
    exact ⟨⟨_, aluCases_scalar h _ _ _, hstored _ _ _⟩, ⟨_, aluCases_scalar h _ _ _, hstored _ _ _⟩,
      ⟨_, aluCases_scalar h _ _ _, hstored _ _ _⟩, ⟨_, aluCases_scalar h _ _ _, hstored _ _ _⟩⟩
  · exact ⟨_, aluCases_scalar h _ _ _, s.storeLogic_spec _ _ _ h.dest h.width⟩

/-- Settles O30: the halves stored are those of the product, which always fits, so that no error is raised. -/
theorem mulStoresTheWholeProduct : Obligations.MulStoresTheWholeProduct := by
  intro hi lo src s h hne hmode N p
  obtain ⟨hd1, hd2, hw1, hw2, hdisjoint⟩ := h.spec
  obtain ⟨hlow, hhigh, hip, hzf, hsf, hof, hnof, hef, hperr, hdata, hhost⟩ :=
    s.storeProduct_spec (Instr.mul hi lo src).len (s.widthsAgree lo src)
      (mulWideResult (s.readOp lo N) (s.readOp src N)) (productHigh (s.readOp lo N) (s.readOp src N))
      hd1 hd2 hw1 hw2 hdisjoint
  refine ⟨_, h.exec_mul_div.1, ?_⟩
  rw [State.mulStep_integer _ hmode, if_neg hne]
  have hN : 0 < N := by have := (naturalWidth_bytes hw2).2; omega
  refine ⟨?_, hip, hzf, hsf, hof, hnof, hperr, hdata.without_flag (hef.trans (Bool.or_false _)), hhost⟩
  rw [hhigh hne, hlow]
  exact product_append_toInt hN _ _

/-- Settles O31: the low half is stored, and the sign rule finds only products that differ from it. -/
theorem mulWithOneDestinationStoresTheLowHalf : Obligations.MulWithOneDestinationStoresTheLowHalf := by
  intro d src s h hmode N x y r z nof of
  obtain ⟨hd, -, hw, -, hdisjoint⟩ := h.spec
  obtain ⟨hlow, -, hip, hzf, hsf, hof, hnof, hef, hperr, hdata, hhost⟩ :=
    s.storeProduct_spec (Instr.mul d d src).len (s.widthsAgree d src)
      (mulNarrowResult (s.readOp d N) (s.readOp src N)) (productHigh (s.readOp d N) (s.readOp src N))
      hd hd hw hw hdisjoint
  refine ⟨_, h.exec_mul_div.1, ?_⟩
  rw [State.mulStep_integer _ hmode, if_pos rfl]
  rw [mulNarrowResult_of_or_nof] at hef hperr
  refine ⟨hlow, fun hne => hip hne hne, ?_, ?_, hof, hnof, hef, hperr, hdata.mono, hhost⟩
  · rw [hzf, mulNarrowResult, bitVec_beq_eq_decide]
    rfl
  · rw [hsf, mulNarrowResult, BitVec.msb_eq_getLsbD_last]
    rfl

/-- Settles O32: quotient and modulo are those of `Int.fdiv`. -/
theorem divStoresFloorQuotientAndModulo : Obligations.DivStoresFloorQuotientAndModulo := by
  intro m q src s h hmode hb N a b
  obtain ⟨hd1, hd2, hw1, hw2, hdisjoint⟩ := h.spec
  obtain ⟨hquotient, hmodulo, hip, hzf, hsf, hdzf, hperr, hdata, hhost⟩ :=
    s.storeQuotient_spec (Instr.div m q src).len (s.widthsAgree q src)
      (divQuotient (s.readOp q N) (s.readOp src N) == 0#N) (divQuotient (s.readOp q N) (s.readOp src N)).msb
      (divModulo (s.readOp q N) (s.readOp src N)) (divQuotient (s.readOp q N) (s.readOp src N)) hd1 hd2 hw1 hw2 hdisjoint
  have hbInt : b ≠ 0 := fun hzero => hb (BitVec.toInt_inj.mp (hzero.trans BitVec.toInt_zero.symm))
  refine ⟨_, a.fdiv b, a - b * a.fdiv b, h.exec_mul_div.2, by omega, floor_modulo a b hbInt, ?_⟩
  rw [State.divStep_integer _ hmode, if_neg hb]
  refine ⟨hquotient, hmodulo, hip, ?_, ?_, hdzf, hperr, hdata, hhost⟩
  · rw [hzf, bitVec_beq_eq_decide]
    rfl
  · rw [hsf, BitVec.msb_eq_getLsbD_last]
    rfl

/-- Settles O33: the zero divisor selects the division by zero. -/
theorem divByZeroRaisesAndStoresNothing : Obligations.DivByZeroRaisesAndStoresNothing := by
  intro m q src s h hmode hb
  refine ⟨_, h.exec_mul_div.2, ?_⟩
  rw [State.divStep_integer _ hmode, if_pos hb]
  exact s.divideByZero_spec _

/-- Settles O51: the word length is the immediate's two low bits, the low nibble being at most 3. -/
theorem modeSelectsWordLengthAndNumberMode : Obligations.ModeSelectsWordLengthAndNumberMode := by
  refine fun imm s => ⟨fun hlow => ?_, fun hlow => if_pos (by rwa [toNat_lowNibble])⟩
  refine ⟨_, if_neg (by rw [toNat_lowNibble]; omega), ?_, ?_, rfl, rfl, ?_,
    ((s.setWlb_host _).trans (State.setFlag_host _ _ _)).trans (State.advance_host _ _)⟩
  · rw [State.advance_wordSize, State.setFlag_wordSize, State.wordSize, State.setWlb_wlb, toNat_wordLengthBits hlow]
  · rw [State.advance_flag, State.setFlag_flag, highNibble_ne_zero]; rfl
  · exact ((s.setWlb_keeps _).mono.trans_of_no_dest (State.setFlag_keeps _ .FMF _)).advance _

/-- Settles O50: `ign` writes RF and moves on. -/
theorem ignWritesTheResponseFlag : Obligations.IgnWritesTheResponseFlag := by
  refine fun b s => ⟨_, rfl, ?_, rfl, rfl, (s.setFlag_keeps .RF _).advance _,
    (s.setFlag_host .RF _).trans (State.advance_host _ _)⟩
  rw [State.advance_flag, State.setFlag_flag, bne, bitVec_beq_eq_decide, ← decide_not]
  rfl

end Sys2Proof.Machine

/-! The statements about flow control, after the lemmas they need: where a branch goes and what testing its flag leaves
alone, and memory read where two states agree on a range. -/

namespace Sys2Proof.Machine

/-! ### Branches -/

/-- The branch IDs number the flags in the order of R180. -/
theorem branchFlag_eq_getD (c : BitVec 3) :
    branchFlag c = [Flag.ZF, .SF, .OF, .NOF, .TF, .EF, .DZF, .RF].getD c.toNat .ZF := by
  revert c; decide

@[simp] theorem State.tested_ip (s : State) (c : BitVec 3) : (s.tested c).ip = s.ip := by
  unfold State.tested; split <;> rfl

@[simp] theorem State.tested_perr (s : State) (c : BitVec 3) : (s.tested c).perr = s.perr := by
  unfold State.tested; split <;> rfl

/-- Testing EF clears it (R181). -/
theorem State.tested_EF (s : State) : (s.tested 5#3).flag .EF = false := by
  rw [State.tested, if_pos rfl, State.setFlag_flag]; rfl

theorem State.tested_host (s : State) (c : BitVec 3) : KeepsHost s (s.tested c) := by
  unfold State.tested; split
  · exact s.setFlag_host .EF false
  · exact KeepsHost.refl s

/-- `jfl` goes on at its target if its flag is 1, else at the next instruction (R182). -/
theorem exec_jfl (c : BitVec 3) (target : Word) (s : State) :
    exec (.jfl c target) s =
      .next ((s.tested c).jump (if s.flag (branchFlag c) then target else s.ip + 3#16)) := by
  simp only [exec, execJfl]
  split
  · rfl
  · rw [← s.tested_ip c]; rfl

/-- `sfl` goes on at the next instruction if its flag is 1, else at its target (R183). -/
theorem exec_sfl (c : BitVec 3) (target : Word) (s : State) :
    exec (.sfl c target) s =
      .next ((s.tested c).jump (if s.flag (branchFlag c) then s.ip + 3#16 else target)) := by
  simp only [exec, execSfl]
  split
  · rw [← s.tested_ip c]; rfl
  · rfl

/-- An instruction that tests a flag and goes on at `a` clears EF if that is the flag, and changes nothing else
(R181). -/
theorem exec_testAndJump {i : Instr} {c : BitVec 3} {a : Word} {s : State}
    (h : exec i s = .next ((s.tested c).jump a)) :
    ∃ t, exec i s = .next t ∧ t.ip = a ∧ (c = 5#3 → t.flag .EF = false) ∧ t.perr = s.perr ∧
      KeepsData s t [] (if c = 5#3 then [.EF] else []) [] ∧ KeepsHost s t := by
  refine ⟨_, h, rfl, ?_, s.tested_perr c, ((s.tested_does c).jump a).data,
    (s.tested_host c).trans (State.jump_host _ a)⟩
  rintro rfl
  exact s.tested_EF

/-! ### The frame record -/

/-- Two states that agree on the bytes of a range read the same from it (R42). -/
theorem State.readBytes_congr {s t : State} {a : Word} {n : Nat}
    (h : ∀ i < n, s.readByte (a + BitVec.ofNat 16 i) = t.readByte (a + BitVec.ofNat 16 i)) :
    s.readBytes a n = t.readBytes a n :=
  List.map_congr_left fun i hi => h i (List.mem_range.mp hi)

/-- Two states that agree on the six bytes of a frame record read the same three words from it (R184, R186). -/
theorem State.readWord_frame_congr {s t : State} {a : Word}
    (h : ∀ i < 6, s.readByte (a + BitVec.ofNat 16 i) = t.readByte (a + BitVec.ofNat 16 i)) :
    s.readWord a = t.readWord a ∧ s.readWord (a + 2#16) = t.readWord (a + 2#16) ∧
      s.readWord (a + 4#16) = t.readWord (a + 4#16) := by
  have hword : ∀ k, k + 2 ≤ 6 → s.readWord (a + BitVec.ofNat 16 k) = t.readWord (a + BitVec.ofNat 16 k) := by
    intro k hk
    rw [State.readWord, s.readBytes_part a 6 k 2 hk, State.readBytes_congr h, ← t.readBytes_part a 6 k 2 hk,
      State.readWord]
  have hzero := hword 0 (by decide)
  rw [BitVec.add_zero] at hzero
  exact ⟨hzero, hword 2 (by decide), hword 4 (by decide)⟩

/-- `ret` before it raises its status: the frame record loaded, RF set, `rs` written (R186). -/
def State.restoreFrame (s : State) (status : Byte) : State :=
  { s.setFlag .RF true with
    ip := s.readWord s.sp
    sp := s.readWord (s.sp + 2#16)
    ap := s.readWord (s.sp + 4#16)
    rs := status }

@[simp] theorem State.restoreFrame_perr (s : State) (status : Byte) : (s.restoreFrame status).perr = s.perr := rfl

/-- Loading the frame record sets RF and no other flag (R186). -/
theorem State.restoreFrame_flag (s : State) (status : Byte) (f : Flag) :
    (s.restoreFrame status).flag f = if f = .RF then true else s.flag f := by
  have hset : (s.restoreFrame status).flag f = (s.setFlag .RF true).flag f := rfl
  rw [hset, State.setFlag_flag, ite_self]

/-- `ret` loads the frame record, then raises a status other than zero (R186). -/
theorem exec_ret (status : Byte) (s : State) :
    exec (.ret status) s = .next ((s.restoreFrame status).raiseIf (status != 0#8) status) := rfl

/-! ### The statements about flow control (spec/43_flow_control.md) -/

/-- Settles O46: both branches test their flag and go on at one of two addresses. -/
theorem branchesFollowTheirFlag : Obligations.BranchesFollowTheirFlag := by
  intro c target s f tested
  have hf : f = branchFlag c := (branchFlag_eq_getD c).symm
  rw [hf]
  exact ⟨exec_testAndJump (exec_jfl c target s), exec_testAndJump (exec_sfl c target s)⟩

/-- Settles O47: the frame record reads back as its three words, and the rest is the frame of `exec_does`. -/
theorem callPushesAFrame : Obligations.CallPushesAFrame := by
  intro target s
  obtain ⟨hreturn, hsp, hap⟩ := s.pushFrame_words (s.ip + 3#16)
  have hflag := State.setFlag_flag (s.pushFrame (s.ip + 3#16)) .RF .RF true
  exact ⟨_, rfl, hreturn, hsp, hap, rfl, rfl, rfl, hflag, rfl, (exec_does (i := .call target) rfl).data,
    by constructor <;> rfl⟩

/-- Settles O48: the loads are those of `restoreFrame`. RF is set before the status is raised, so that a status other
than zero is always the pending error. -/
theorem retRestoresFromTheFrame : Obligations.RetRestoresFromTheFrame := by
  intro status s
  refine ⟨_, exec_ret status s, rfl, rfl, rfl, ?_, rfl, ?_, ?_, (exec_does (exec_ret status s)).data,
    by constructor <;> rfl⟩
  · rw [State.raiseIf_flag, State.restoreFrame_flag]; simp
  · rw [State.raiseIf_flag, State.restoreFrame_flag, bne, bitVec_beq_eq_decide, ← decide_not]; simp [Bool.or_comm]
  · rw [State.raiseIf_perr, State.restoreFrame_flag, State.restoreFrame_perr]; simp

/-- Settles O49: `ret` loads the words that the call stored, `sp + 2` and `sp + 4` being its `ap - 4` and `ap - 2`. -/
theorem retReversesCall : Obligations.RetReversesCall := by
  intro target status s t u hcall husp hframe
  obtain ⟨t', hcall', hreturn, hsp, hap, -, htsp, -⟩ := callPushesAFrame target s
  obtain rfl : t = t' := Host.Outcome.next.inj (hcall.symm.trans hcall')
  obtain ⟨v, hret, hvip, hvsp, hvap, -⟩ := retRestoresFromTheFrame status u
  obtain ⟨hword, hword2, hword4⟩ := State.readWord_frame_congr hframe
  have hsecond : s.ap - 4#16 = t.sp + 2#16 := by rw [htsp]; bv_omega
  have hthird : s.ap - 2#16 = t.sp + 4#16 := by rw [htsp]; bv_omega
  rw [← htsp] at hreturn
  rw [hsecond] at hsp
  rw [hthird] at hap
  rw [husp] at hvip hvsp hvap
  exact ⟨v, hret, hvip.trans (hword.trans hreturn), hvsp.trans (hword2.trans hsp), hvap.trans (hword4.trans hap)⟩

end Sys2Proof.Machine

/-! The statements about data transfer, after the lemmas they need: what `mov` does to a scalar and to memory, which
subtraction `alloc` is, and what an operand of each form gives to `mw` and to an I/O instruction. -/

namespace Sys2Proof.Machine

/-! ### `mov` -/

/-- A destination that is valid outside `mov` is valid in `mov` (R81). -/
theorem badMov_of_badDest {d : Operand} (src : Operand) (h : badDest d = none) : badMov d src = none := by
  cases d with
  | lit v | mem m => cases h
  | _ => rfl

/-- A memory destination is valid opposite any source but memory (R81). -/
theorem badMov_mem (m : MemRef) {src : Operand} (h : src.isMem = false) : badMov (.mem m) src = none := by
  simp [badMov, Operand.isLit, h]

/-- Everything that `mov` to a scalar destination does (R190). -/
theorem State.movScalar_spec (s : State) {d : Operand} (src : Operand) (len : Nat) (hd : isScalarDest d) :
    (s.movScalar d src len).readOp d (s.widthBeside d src) = s.readOp src (s.widthBeside d src) ∧
      Advances s (s.movScalar d src len) d len ∧ (s.movScalar d src len).perr = s.perr ∧
      KeepsData s (s.movScalar d src len) [d] [] [] ∧ KeepsHost s (s.movScalar d src len) := by
  rw [State.movScalar]
  refine ⟨?_, fun hip => ?_, ?_, ?_, (s.writeOp_host _).trans (State.finish_host _ d len)⟩
  · rw [State.readOp_finish, s.readOp_writeOp _ hd (hd.width s src)]
  · rw [State.finish_ip _ _ _ hip, s.writeOp_ip _ hd hip]
  · rw [State.finish_perr, s.writeOp_perr _ hd]
  · exact (s.writeOp_keeps _ hd).trans (State.finish_keeps _ d len _ _ _) (s.writeOp_wordSize _ hd)

/-- No operand is wider than a SIMD group (R110). -/
theorem naturalWidth_le {s : State} {o : Operand} {N : Nat} (h : naturalWidth s.wordSize o = some N) : N ≤ 512 := by
  have hW := s.wordSize_cases
  cases o with
  | mem m => cases h
  | reg r => cases h; cases r <;> simp [regWidth]
  | lit v => cases h; cases v <;> simp [litWidth]
  | _ => cases h; omega

/-- `mov` to memory stores the bytes of the source at its own width (R190, R111). -/
theorem State.movScalar_mem {s : State} (m : MemRef) {src : Operand} {n : Nat} (len : Nat)
    (h : naturalWidth s.wordSize src = some (8 * n)) :
    s.movScalar (.mem m) src len = (s.writeBytes (s.ea m) (toBytes n (s.readOp src (8 * n)))).advance len := by
  have hN : s.widthBeside (.mem m) src = 8 * n := by rw [State.widthBeside, h]; rfl
  have hbytes : 8 * n / 8 = n := by omega
  rw [State.movScalar, hN, State.writeOp, hbytes]
  rfl

/-! ### `alloc` -/

/-- The operand of `alloc` agrees in width with `ap` if its own width is 16, and always if it is memory (R113). -/
theorem State.widthsAgree_ap (s : State) (n : Operand) :
    s.widthsAgree (.reg .ap) n = (decide (naturalWidth s.wordSize n = some 16) || n.isMem) := by
  have hown : ∀ width : Nat, (16 == width) = (decide (some width = some 16) || false) := fun width => by
    rw [Bool.or_false]
    exact decide_eq_decide.mpr ⟨fun h => congrArg some h.symm, fun h => (Option.some.inj h).symm⟩
  cases n with
  | mem m => rfl
  | _ => exact hown _

/-- Outside floating-point mode the subtraction of `alloc` is that of its operand's 16 bits from `ap` (R196). -/
theorem State.scalarSub_ap_integer {s : State} {n : Operand} (len : Nat) (h : s.floatMode [.reg .ap, n] = false) :
    s.scalarSub (.reg .ap) n len =
      s.storeArith (.reg .ap) len (s.widthsAgree (.reg .ap) n) (subResult s.ap (s.readOp n 16)) := by
  have hap : s.readOp (.reg .ap) 16 = s.ap := BitVec.setWidth_eq s.ap
  simp only [State.scalarSub, h, Bool.false_eq_true, if_false]
  rw [← hap]
  rfl

/-! ### `mw` -/

/-- `mw` of a number inside the pool moves the window (R193). -/
theorem execMw_runs {a : Operand} (s : State) (h : NumberOperand 2 a) :
    execMw a s = .next ((s.moveWindow (s.windowAddr a)).advance (Instr.mw a).len) := by
  simp [execMw, h.scalar, h.fits]

/-! ### What an operand gives to `mw` and to an I/O instruction -/

/-- The 16-bit value at a memory address, most significant byte first (R41, R42). -/
theorem State.ofBytes_readBytes_two (s : State) (a : Word) :
    ofBytes 16 (s.readBytes a 2) = s.readByte a ++ s.readByte (a + 1#16) := by
  rw [State.readBytes_two, ofBytes_two]

/-- A data-pool operand gives `mw` two bytes and an I/O instruction two or eight, whatever the word size (R194, R200). -/
theorem State.windowAddr_ioVal_pool (s : State) (a : Byte) :
    s.windowAddr (.pool a) = s.poolByte a ++ s.poolByte (a + 1#8) ∧
      s.ioVal (.pool a) 16 = s.poolByte a ++ s.poolByte (a + 1#8) ∧
      s.ioVal (.pool a) 64 = ofBytes 64 (s.readPool a 8) :=
  ⟨s.readPoolWord_eq a, s.readPoolWord_eq a, rfl⟩

/-- A memory operand gives `mw` its address and an I/O instruction the value there (R194, R200). -/
theorem State.windowAddr_ioVal_mem (s : State) (m : MemRef) :
    s.windowAddr (.mem m) = s.ea m ∧
      s.ioVal (.mem m) 16 = s.readByte (s.ea m) ++ s.readByte (s.ea m + 1#16) ∧
      s.ioVal (.mem m) 64 = ofBytes 64 (s.readBytes (s.ea m) 8) :=
  ⟨rfl, s.ofBytes_readBytes_two (s.ea m), rfl⟩

/-- A literal gives `mw` and an I/O instruction its value, converted (R112). -/
theorem State.windowAddr_ioVal_lit (s : State) {l : Lit} {n : Nat} {v : BitVec n} (h : litValue l = v.setWidth 64) :
    s.windowAddr (.lit l) = v.setWidth 16 ∧ s.ioVal (.lit l) 16 = v.setWidth 16 ∧
      s.ioVal (.lit l) 64 = v.setWidth 64 := by
  have hconvert : (litValue l).setWidth 16 = v.setWidth 16 := by
    rw [h, BitVec.setWidth_setWidth_of_le v (by decide)]
  exact ⟨hconvert, hconvert, (BitVec.setWidth_eq _).trans h⟩

/-- A register gives `mw` and an I/O instruction its value, converted (R112). -/
theorem State.windowAddr_ioVal_reg (s : State) (r : Reg) :
    s.windowAddr (.reg r) = s.readReg r ∧ s.ioVal (.reg r) 16 = s.readReg r ∧
      s.ioVal (.reg r) 64 = (s.readReg r).setWidth 64 :=
  ⟨BitVec.setWidth_eq _, BitVec.setWidth_eq _, rfl⟩

/-- A flag gives `mw` and an I/O instruction the number 1 or 0 (R110, R112). -/
theorem State.windowAddr_ioVal_flag (s : State) (f : Flag) :
    s.windowAddr (.flag f) = (if s.flag f then 1#16 else 0#16) ∧
      s.ioVal (.flag f) 16 = (if s.flag f then 1#16 else 0#16) ∧
      s.ioVal (.flag f) 64 = (if s.flag f then 1#64 else 0#64) := by
  simp only [State.windowAddr, State.ioVal, State.readOp]
  cases s.flag f with
  | false | true => exact ⟨rfl, rfl, rfl⟩

/-! ### The statements about data transfer (spec/44_data_transfer.md) -/

/-- Settles O39: the scalar case of `mov` stores the source at the destination's width. -/
theorem movCopiesToAScalar : Obligations.MovCopiesToAScalar := by
  intro d src s h N
  exact ⟨_, execMov_runs (badMov_of_badDest src h.valid) h.destScalar h.sourceScalar h.destFits h.sourceFits,
    s.movScalar_spec src _ h.dest⟩

/-- Settles O40: the bytes stored are those of the source, which denote its value. -/
theorem movStoresToMemory : Obligations.MovStoresToMemory := by
  intro m src n s hmem hs hfit hwidth
  have hlen : (toBytes n (s.readOp src (8 * n))).length = n := length_toBytes n _
  have hn := naturalWidth_le hwidth
  have hread := s.readBytes_writeBytes (s.ea m) (toBytes n (s.readOp src (8 * n))) (by omega)
  have hkeeps := s.writeBytes_keeps (s.ea m) (toBytes n (s.readOp src (8 * n))) (by omega)
  rw [hlen] at hread hkeeps
  refine ⟨_, execMov_runs (badMov_mem m hmem) rfl hs rfl hfit, ?_⟩
  rw [State.movScalar_mem m _ hwidth]
  refine ⟨?_, rfl, rfl, hkeeps.advance _, (s.writeBytes_host _ _).trans (State.advance_host _ _)⟩
  rw [State.advance_readBytes, hread, ofBytes_toBytes]

/-- Settles O27: `alloc` is the subtraction of `sub` with destination `ap`, which is 16 bits wide. -/
theorem allocLowersTheAllocationPointer : Obligations.AllocLowersTheAllocationPointer := by
  intro n s hn hfit hmode b r
  have hstored : StoredArith s (s.scalarSub (.reg .ap) n (Instr.alloc n).len) (.reg .ap) (Instr.alloc n).len
      (s.widthsAgree (.reg .ap) n) r (decide (s.ap.toNat < b.toNat)) (decide (r.toInt ≠ s.ap.toInt - b.toInt)) := by
    rw [State.scalarSub_ap_integer _ hmode]
    refine .of_spec (s.storeArith_spec _ _ (subResult s.ap b) ⟨rfl, rfl, rfl⟩ rfl) ?_ ?_ ?_ ?_ ?_
    all_goals rw [subResult_eq]
  rw [State.widthsAgree_ap] at hstored
  exact ⟨_, execAlloc_runs hn hfit, (BitVec.setWidth_eq _).symm.trans hstored.value, hstored⟩

/-- Settles O43: the old location and the window read as `moveWindow_readByte` and `moveWindow_poolByte` say. -/
theorem mwMovesTheWindow : Obligations.MwMovesTheWindow := by
  intro a s h
  refine ⟨_, execMw_runs s h, rfl, fun i hi => ?_, fun i hi => ?_, rfl, rfl, (s.moveWindow_keeps _).advance _,
    (s.moveWindow_host _).trans (State.advance_host _ _)⟩
  · rw [State.advance_readByte, State.moveWindow_readByte, add_ofNat_sub_toNat _ (by omega),
      State.getElem?_readPool s _ hi, Option.getD_some, BitVec.zero_add]
  · have hindex : (BitVec.ofNat 8 i - 0x00#8).toNat = i := by
      rw [BitVec.sub_zero, BitVec.toNat_ofNat, Nat.mod_eq_of_lt (by omega)]
    rw [State.advance_poolByte, State.moveWindow_poolByte, hindex, State.getElem?_readBytes _ _ hi, Option.getD_some,
      State.advance_readByte]

/-- Settles O44: each form of operand gives its value by the rule of its form. -/
theorem addressAndIoValueOfEachOperandForm : Obligations.AddressAndIoValueOfEachOperandForm := by
  intro s
  refine ⟨s.windowAddr_ioVal_pool, fun v => s.windowAddr_ioVal_lit rfl, fun v => ?_,
    fun v => s.windowAddr_ioVal_lit rfl, fun v => ?_, s.windowAddr_ioVal_reg,
    fun r o => s.windowAddr_ioVal_mem (.off r o), fun r => s.windowAddr_ioVal_mem (.reg r),
    fun a => s.windowAddr_ioVal_mem (.abs a), s.windowAddr_ioVal_flag, rfl, rfl, rfl⟩
  · simpa using s.windowAddr_ioVal_lit (l := .b16 v) (v := v) rfl
  · simpa using s.windowAddr_ioVal_lit (l := .b64 v) (v := v) (BitVec.setWidth_eq v).symm

end Sys2Proof.Machine

/-! The statements about I/O, after the lemmas they need: what an instruction does to the console and to the files, what
a transfer does on each kind of channel, and how each I/O instruction runs or is refused. -/

namespace Sys2Proof.Machine

/-! ### The files and the console under any instruction -/

/-- What an instruction of a running program does to the host's side leaves a file open only on a file channel (R202,
R203). -/
theorem HostRule.openFileSound {s t : State} (h : HostRule s t) (hrun : s.halted = none) (hs : OpenFileSound s) :
    OpenFileSound t := by
  rcases h.openFile with hclosed | ⟨hhalted, hchan, hopen⟩
  · exact ⟨fun hne => absurd hclosed hne, fun _ => hclosed⟩
  · refine ⟨fun hne => ?_, fun hne => absurd (hhalted.trans hrun) hne⟩
    rcases hopen with hsame | hfile
    · rw [hchan]
      exact hs.1 (hsame ▸ hne)
    · exact hfile

/-- Only `in` takes console inputs, and only `out` and `outs` write the console log (R204 to R206). -/
theorem exec_console {i : Instr} {s t : State} (h : exec i s = .next t) :
    (t.conLog = s.conLog ∧ t.conIn = s.conIn) ∨ (t.conLog = s.conLog ∧ ∃ a b, i = .inp a b) ∨
      (((∃ a b, i = .out a b) ∨ ∃ a, i = .outs a) ∧ t.conIn = s.conIn) := by
  cases hi : isIo i with
  | false =>
    have hkept := exec_host hi h
    exact .inl ⟨hkept.conLog, hkept.conIn⟩
  | true =>
    rcases exec_io hi h with hkept | ⟨_, -, -, hlog, hin, -⟩ | ⟨u, len, rfl, ⟨a, b, _, _, rfl, hu⟩ | ⟨hout, bs, hu⟩⟩
    · exact .inl ⟨hkept.conLog, hkept.conIn⟩
    · exact .inl ⟨hlog, hin⟩
    · exact .inr (.inl ⟨(State.inputFrom_host hu).2, a, b, rfl⟩)
    · exact .inr (.inr ⟨hout, (State.sendBytes_host hu).2⟩)

/-! ### Channels -/

/-- Channel 0 is the console (R202). -/
theorem channelKind_console {c : Word} (h : c = 0#16) : channelKind c = .console := if_pos h

/-- Channels 1 to 255 are reserved (R202, U11). -/
theorem channelKind_reserved {c : Word} (h1 : 1 ≤ c.toNat) (h255 : c.toNat ≤ 255) : channelKind c = .reserved := by
  rcases channelKind_cases c with ⟨rfl, -⟩ | ⟨-, -, hk⟩ | ⟨h256, -⟩
  · exact absurd h1 (by decide)
  · exact hk
  · omega

/-- Channels of 256 and more are files (R202). -/
theorem channelKind_file {c : Word} (h : 256 ≤ c.toNat) : channelKind c = .file := by
  rcases channelKind_cases c with ⟨rfl, -⟩ | ⟨-, h255, -⟩ | ⟨-, hk⟩
  · exact absurd h (by decide)
  · omega
  · exact hk

/-- A path without an end lets no file transfer begin (R203, log entry 6). -/
theorem State.beginTransfer_no_path {s : State} (wanted : Config.FileMode) (h : s.channelPath = none) :
    s.beginTransfer wanted = .error .pathNeverEnds := by
  simp only [State.beginTransfer, h]

/-! ### Input -/

/-- The oldest waiting input is taken (R204). -/
theorem State.nextInput_waiting {s : State} {input : List Byte} {rest : List (List Byte)}
    (h : s.conIn = input :: rest) : s.nextInput = some (input, { s with conIn := rest }) := by
  rw [State.nextInput, h]

/-- Where no input waits the host is asked (R204, U12). -/
theorem State.nextInput_asks {s : State} (h : s.conIn = []) :
    s.nextInput = (Config.hostInput s.hostAsked).map fun input => (input, { s with hostAsked := s.hostAsked + 1 }) := by
  rw [State.nextInput, h]

/-- Taking an input changes no register, flag or byte of data (R204). -/
theorem State.nextInput_keeps {s u : State} {input : List Byte} (h : s.nextInput = some (input, u))
    (ms : List MemRange) : KeepsData s u [] [] ms := by
  obtain ⟨-, waiting, asked, rfl⟩ := State.nextInput_spec h
  apply KeepsData.of_eq <;> rfl

/-- Input from the console is stored in the state that has taken it (R204). -/
theorem State.inputFrom_console {s u : State} {input : List Byte} (a : Word) (cap : Nat) (hc : s.chan = 0#16)
    (h : s.nextInput = some (input, u)) : s.inputFrom a cap = .next (u.writeBytes a (input.take cap)) := by
  simp only [State.inputFrom, channelKind_console hc, h]

/-- Without an answer of the host `in` on the console never completes (U12). -/
theorem State.inputFrom_console_none {s : State} (a : Word) (cap : Nat) (hc : s.chan = 0#16) (h : s.nextInput = none) :
    s.inputFrom a cap = .fault .hostGivesNoAnswer := by
  simp only [State.inputFrom, channelKind_console hc, h]

/-- Input from a reserved channel is refused (R202, U11). -/
theorem State.inputFrom_reserved {s : State} (a : Word) (cap : Nat) (h1 : 1 ≤ s.chan.toNat)
    (h255 : s.chan.toNat ≤ 255) : s.inputFrom a cap = .refused .reservedChannel := by
  simp only [State.inputFrom, channelKind_reserved h1 h255]

/-- Input from a file is stored from the position on, which moves past it (R203, R204). -/
theorem State.inputFrom_file {s : State} {f : FileTransfer} (a : Word) (cap : Nat) (hc : 256 ≤ s.chan.toNat)
    (h : s.beginTransfer .reading = .ok f) :
    s.inputFrom a cap = .next ((f.state.writeBytes a ((f.contents.drop s.fpos.toNat).take cap)).movePosition
      ((f.contents.drop s.fpos.toNat).take cap).length) := by
  simp only [State.inputFrom, channelKind_file hc, h]

/-- A file transfer that does not begin stops `in` (R203, U12). -/
theorem State.inputFrom_file_error {s : State} {e : Fault} (a : Word) (cap : Nat) (hc : 256 ≤ s.chan.toNat)
    (h : s.beginTransfer .reading = .error e) : s.inputFrom a cap = .fault e := by
  simp only [State.inputFrom, channelKind_file hc, h]

/-- A store of as many bytes as fit below a stop address reads back and changes no byte beyond them (R204). -/
theorem State.writeBytes_take (s : State) (a : Word) (bs : List Byte) {cap : Nat} (hcap : cap ≤ 65536) :
    (s.writeBytes a (bs.take cap)).readBytes a (min cap bs.length) = bs.take (min cap bs.length) ∧
      KeepsData s (s.writeBytes a (bs.take cap)) [] [] [⟨a, min cap bs.length⟩] := by
  have hlen : (bs.take cap).length = min cap bs.length := List.length_take
  have hfits : (bs.take cap).length ≤ 65536 := by omega
  have hread := s.readBytes_writeBytes a (bs.take cap) hfits
  have hstore := s.writeBytes_keeps a (bs.take cap) hfits
  rw [hlen] at hread hstore
  exact ⟨hread.trans List.take_eq_take_min, hstore⟩

/-- The bytes between two 16-bit addresses are no more than memory holds (R40). -/
theorem sub_toNat_le_memory (a b : Word) : b.toNat - a.toNat ≤ 65536 := by omega

/-! ### Output -/

/-- Bytes sent to the console stand at the end of its log (R205). -/
theorem State.sendBytes_console {s : State} (bs : List Byte) (hc : s.chan = 0#16) :
    s.sendBytes bs = .next { s with conLog := s.conLog ++ bs } := by
  simp only [State.sendBytes, channelKind_console hc]

/-- Bytes sent to a reserved channel are refused (R202, U11). -/
theorem State.sendBytes_reserved {s : State} (bs : List Byte) (h1 : 1 ≤ s.chan.toNat) (h255 : s.chan.toNat ≤ 255) :
    s.sendBytes bs = .refused .reservedChannel := by
  simp only [State.sendBytes, channelKind_reserved h1 h255]

/-- Bytes sent to a file are written at the position, which moves past them (R203, R205). -/
theorem State.sendBytes_file {s : State} {f : FileTransfer} (bs : List Byte) (hc : 256 ≤ s.chan.toNat)
    (h : s.beginTransfer .writing = .ok f) :
    s.sendBytes bs = .next (State.movePosition { f.state with
      files := setFileContents s.files f.path (overwriteAt f.contents s.fpos.toNat bs) } bs.length) := by
  simp only [State.sendBytes, channelKind_file hc, h]

/-- A file transfer that does not begin stops an output (R203, U12). -/
theorem State.sendBytes_file_error {s : State} {e : Fault} (bs : List Byte) (hc : 256 ≤ s.chan.toNat)
    (h : s.beginTransfer .writing = .error e) : s.sendBytes bs = .fault e := by
  simp only [State.sendBytes, channelKind_file hc, h]

/-- Where the first 0x00 byte of memory from `a` on stands `n` bytes away, the string at `a` is the `n` bytes before it
(R206). -/
theorem State.stringAt_of_zero (s : State) (a : Word) {n : Nat} (hn : n < 65536)
    (hb : ∀ i < n, s.readByte (a + BitVec.ofNat 16 i) ≠ 0x00#8) (hz : s.readByte (a + BitVec.ofNat 16 n) = 0x00#8) :
    s.stringAt a = some ((List.range n).map fun i => s.readByte (a + BitVec.ofNat 16 i)) :=
  s.mem.stringAt_of_zero 65536 a n hn hb hz

/-! ### How the I/O instructions run -/

/-- `IOchan` of a number inside the pool selects the channel (R202). -/
theorem execIoChan_runs {c : Operand} (s : State) (h : NumberOperand 2 c) :
    execIoChan c s =
      .next (State.advance { s with openFile := none, chan := s.ioVal c 16, fpos := 0#64 } (Instr.ioChan c).len) := by
  simp [execIoChan, h.scalar, h.fits]

/-- `seek` of a number inside the pool sets the position (R207). -/
theorem execSeek_runs {p : Operand} (s : State) (h : NumberOperand 8 p) :
    execSeek p s = .next (State.advance { s with fpos := s.ioVal p 64 } (Instr.seek p).len) := by
  simp [execSeek, h.scalar, h.fits]

/-- `outs` sends the string at its address (R206). -/
theorem execOuts_sends {x : Operand} {s : State} {bs : List Byte} (h : NumberOperand 2 x)
    (hbs : s.stringAt (s.ioVal x 16) = some bs) :
    execOuts x s = advanceOutcome (Instr.outs x).len (s.sendBytes bs) := by
  simp [execOuts, h.scalar, h.fits, hbs]

/-- `outs` of a string without an end never completes (R206, U4). -/
theorem execOuts_no_string {x : Operand} {s : State} (h : NumberOperand 2 x)
    (hnone : s.stringAt (s.ioVal x 16) = none) : execOuts x s = .fault .outsNeverCompletes := by
  simp [execOuts, h.scalar, h.fits, hnone]

/-- `in` stores what its transfer reads between its addresses (R204). -/
theorem exec_inp (x y : Operand) (s : State) :
    exec (.inp x y) s = rangeCases x y (Instr.inp x y).len s s.inputFrom := rfl

/-- `out` sends the bytes between its addresses (R205). -/
theorem exec_out (x y : Operand) (s : State) :
    exec (.out x y) s = rangeCases x y (Instr.out x y).len s fun first n => s.sendBytes (s.readBytes first n) := rfl

/-- A valid `in` with its addresses in order carries out its transfer (R204). -/
theorem exec_inp_transfers {s : State} {x y : Operand} (hv : badSources x y = none) (hx : NumberOperand 2 x)
    (hy : NumberOperand 2 y) (hle : (s.ioVal x 16).toNat ≤ (s.ioVal y 16).toNat) :
    exec (.inp x y) s = advanceOutcome (Instr.inp x y).len
      (s.inputFrom (s.ioVal x 16) ((s.ioVal y 16).toNat - (s.ioVal x 16).toNat)) := by
  rw [exec_inp, rangeCases_transfer hv hx hy hle]

/-- A valid `out` with its addresses in order sends the bytes between them (R205). -/
theorem exec_out_sends {s : State} {x y : Operand} (hv : badSources x y = none) (hx : NumberOperand 2 x)
    (hy : NumberOperand 2 y) (hle : (s.ioVal x 16).toNat ≤ (s.ioVal y 16).toNat) :
    exec (.out x y) s = advanceOutcome (Instr.out x y).len
      (s.sendBytes (s.readBytes (s.ioVal x 16) ((s.ioVal y 16).toNat - (s.ioVal x 16).toNat))) := by
  rw [exec_out, rangeCases_transfer hv hx hy hle]

/-- `in` and `out` with the first address above the second are refused (U10). -/
theorem rangeCases_reversed {s : State} {x y : Operand} (hv : badSources x y = none) (hx : NumberOperand 2 x)
    (hy : NumberOperand 2 y) (hlt : (s.ioVal y 16).toNat < (s.ioVal x 16).toNat) (len : Nat)
    (transfer : Word → Nat → StepOutcome) : rangeCases x y len s transfer = .refused .ioRangeReversed := by
  simp [rangeCases, hv, hx.scalar, hy.scalar, hx.fits, hy.fits, hlt]

/-- `in` and `out` with an operand that runs past the pool are refused (U5). -/
theorem rangeCases_overrun {x y : Operand} (hv : badSources x y = none) (hx : isSimd x = false) (hy : isSimd y = false)
    (hfit : (fitsBytes 2 x && fitsBytes 2 y) = false) (len : Nat) (s : State) (transfer : Word → Nat → StepOutcome) :
    rangeCases x y len s transfer = .refused .poolOverrun := by
  simp [rangeCases, hv, hx, hy, hfit]

/-- An operand whose bytes run past the pool is a data-pool operand, no SIMD group (R44). -/
theorem isSimd_of_not_fitsBytes {n : Nat} {o : Operand} (h : fitsBytes n o = false) : isSimd o = false := by
  cases o with
  | simd g => cases h
  | _ => rfl

/-! ### Input from the console -/

/-- `in` on the console, `u` being the state that has taken the input: as much of it as fits below the stop address is
stored, and all else is as in `u` (R204). -/
theorem exec_inp_console {s u : State} {x y : Operand} {input : List Byte} (hv : badSources x y = none)
    (hx : NumberOperand 2 x) (hy : NumberOperand 2 y) (hc : s.chan = 0#16)
    (hle : (s.ioVal x 16).toNat ≤ (s.ioVal y 16).toNat) (hinput : s.nextInput = some (input, u)) :
    let n := min ((s.ioVal y 16).toNat - (s.ioVal x 16).toNat) input.length
    ∃ t, exec (.inp x y) s = .next t ∧ t.readBytes (s.ioVal x 16) n = input.take n ∧
      t.ip = s.ip + BitVec.ofNat 16 (Instr.inp x y).len ∧ t.perr = s.perr ∧
      KeepsData s t [] [] [⟨s.ioVal x 16, n⟩] ∧ KeepsHost u t := by
  have htransfer := exec_inp_transfers hv hx hy hle
  rw [State.inputFrom_console _ _ hc hinput] at htransfer
  obtain ⟨hread, hstore⟩ := u.writeBytes_take (s.ioVal x 16) input (sub_toNat_le_memory (s.ioVal x 16) (s.ioVal y 16))
  have htaken := State.nextInput_keeps hinput
  obtain ⟨-, waiting, asked, rfl⟩ := State.nextInput_spec hinput
  exact ⟨_, htransfer, hread, rfl, rfl, ((htaken _).trans hstore rfl).advance _,
    (State.writeBytes_host _ _ _).trans (State.advance_host _ _)⟩

/-! ### Output to a file -/

/-- Bytes sent to a file by an instruction of length `len` are written into the contents that the transfer acts on; the
position moves past them, and no other file and nothing else but `ip` changes (R203, R205). -/
theorem State.sendBytes_onContents {s : State} {path : List Byte} (bs : List Byte) (len : Nat) (hc : 256 ≤ s.chan.toNat)
    (hp : s.channelPath = some path) :
    OnContents s .writing path (s.openFile.map (·.mode) = some .writing) (advanceOutcome len (s.sendBytes bs))
      fun contents asked =>
        ∃ t, advanceOutcome len (s.sendBytes bs) = .next t ∧ t.ip = s.ip + BitVec.ofNat 16 len ∧ t.perr = s.perr ∧
          fileContents t.files path = some (contents.take s.fpos.toNat ++ bs ++
            contents.drop (s.fpos.toNat + bs.length)) ∧
          (∀ p, p ≠ path → fileContents t.files p = fileContents s.files p) ∧ KeepsData s t [] [] [] ∧
          KeepsHost { s with
            openFile := some ⟨path, s.channelMode .writing⟩, files := t.files, hostAsked := asked
            fpos := s.fpos + BitVec.ofNat 64 bs.length } t := by
  refine State.onContents hp decide_eq_true_iff (fun contents asked hbegin _ => ?_) fun herror => ?_
  · rw [State.sendBytes_file bs hc hbegin]
    refine ⟨_, rfl, rfl, rfl, ?_, fun p hne => ?_, ?_, ?_⟩
    · exact (fileContents_setFileContents s.files path path _).trans (if_pos rfl)
    · exact (fileContents_setFileContents s.files path p _).trans (if_neg hne)
    · apply KeepsData.of_eq <;> rfl
    · constructor <;> rfl
  · rw [State.sendBytes_file_error bs hc herror]
    rfl

/-! ### The statements about I/O (spec/45_io.md) -/

/-- Settles O15: a halt closes the open file, the discharge of an error touches no file, and every instruction follows
`HostRule`. -/
theorem stepKeepsFilesSound : Obligations.StepKeepsFilesSound := fun _ _ hs h =>
  step_preserves (P := fun s => OpenFileSound s ∧ FilesAreAMap s)
    (fun _ _ ⟨_, hmap⟩ => ⟨⟨fun hne => absurd rfl hne, fun _ => rfl⟩, hmap⟩) (fun _ hs => hs)
    (fun _ _ _ hrun ⟨hopen, hmap⟩ h => ⟨(exec_hostRule h).openFileSound hrun hopen, (exec_hostRule h).files hmap⟩) hs h

/-- Settles O23: how the log and the inputs change by `HostRule`, and whose doing it is by `exec_console`. -/
theorem consoleIsOnlyAppendedToAndTakenFrom : Obligations.ConsoleIsOnlyAppendedToAndTakenFrom := by
  intro i s t h
  refine ⟨(exec_hostRule h).conLog, (exec_hostRule h).conIn, fun hlog => ?_, fun hin => ?_⟩
  · rcases exec_console h with ⟨hsame, -⟩ | ⟨hsame, -⟩ | ⟨hout, -⟩
    · exact absurd hsame hlog
    · exact absurd hsame hlog
    · exact hout
  · rcases exec_console h with ⟨-, hsame⟩ | ⟨-, hinp⟩ | ⟨-, hsame⟩
    · exact absurd hsame hin
    · exact hinp
    · exact absurd hsame hin

/-- Settles O52: both instructions run in every state. -/
theorem nopAdvancesAndInthRecordsItsAddress : Obligations.NopAdvancesAndInthRecordsItsAddress := fun _ _ => ⟨rfl, rfl⟩

/-- Settles O53: the next states that `execIoChan_runs` and `execSeek_runs` name. -/
theorem iOchanAndSeekSetTheirState : Obligations.IOchanAndSeekSetTheirState := by
  refine ⟨fun c s h => ⟨_, execIoChan_runs s h, rfl, rfl, ?_, State.advance_host _ _⟩,
    fun p s h => ⟨_, execSeek_runs s h, rfl, rfl, ?_, State.advance_host _ _⟩⟩
  · apply KeepsData.of_eq <;> rfl
  · apply KeepsData.of_eq <;> rfl

/-- Settles O54: the input that `exec_inp_console` stores is the oldest waiting one or else the host's answer. -/
theorem inTakesOneConsoleInput : Obligations.InTakesOneConsoleInput := by
  intro x y s hv hx hy hc hle
  refine ⟨fun input waiting hwaiting => ?_, fun hempty => ?_⟩
  · exact exec_inp_console hv hx hy hc hle (State.nextInput_waiting hwaiting)
  · have hasks := State.nextInput_asks hempty
    split
    case h_1 input hanswer =>
      rw [hanswer, Option.map_some] at hasks
      exact exec_inp_console hv hx hy hc hle hasks
    case h_2 hanswer =>
      rw [hanswer, Option.map_none] at hasks
      rw [exec_inp_transfers hv hx hy hle, State.inputFrom_console_none _ _ hc hasks]
      rfl

/-- Settles O55: `State.onContents` gives the contents, and `State.writeBytes_take` says what their store does. -/
theorem inReadsAFileFromThePosition : Obligations.InReadsAFileFromThePosition := by
  intro x y s hv hx hy hc hle
  have htransfer := exec_inp_transfers hv hx hy hle
  refine ⟨fun path hp => ?_, fun hp => ?_⟩
  · refine State.onContents hp decide_eq_true_iff (fun contents asked hbegin _ => ?_) fun herror => ?_
    · rw [State.inputFrom_file _ _ hc hbegin, List.length_take, List.length_drop] at htransfer
      obtain ⟨hread, hstore⟩ := State.writeBytes_take
        { s with openFile := some ⟨path, s.channelMode .reading⟩, hostAsked := asked } (s.ioVal x 16)
        (contents.drop s.fpos.toNat) (sub_toNat_le_memory (s.ioVal x 16) (s.ioVal y 16))
      rw [List.length_drop] at hread hstore
      have hdata := (State.beginTransfer_keeps hbegin [] [] _).trans hstore rfl
      refine ⟨_, htransfer, hread, rfl, rfl, (hdata.trans (State.movePosition_keeps _ _ _ _ _) rfl).advance _, ?_⟩
      constructor <;> rfl
    · rw [htransfer, State.inputFrom_file_error _ _ hc herror]
      rfl
  · rw [htransfer, State.inputFrom_file_error _ _ hc (State.beginTransfer_no_path _ hp)]
    rfl

/-- Settles O56: the bytes of `exec_out_sends` are appended. -/
theorem outAppendsToTheConsoleLog : Obligations.OutAppendsToTheConsoleLog := by
  intro x y s hv hx hy hc hle
  have hsends := exec_out_sends hv hx hy hle
  rw [State.sendBytes_console _ hc] at hsends
  refine ⟨_, hsends, rfl, rfl, ?_, State.advance_host _ _⟩
  apply KeepsData.of_eq <;> rfl

/-- Settles O57: the string ends at the first 0x00 byte, and nowhere if there is none. -/
theorem outsAppendsAStringToTheConsoleLog : Obligations.OutsAppendsAStringToTheConsoleLog := by
  intro x n s hx
  refine ⟨fun hc hn hbefore hzero => ?_, fun hnone => ?_⟩
  · have hsends := execOuts_sends hx (s.stringAt_of_zero _ hn hbefore hzero)
    rw [State.sendBytes_console _ hc] at hsends
    refine ⟨_, hsends, rfl, rfl, ?_, State.advance_host _ _⟩
    apply KeepsData.of_eq <;> rfl
  · exact execOuts_no_string hx (s.mem.stringAt_of_no_zero 65536 _ hnone)

/-- Settles O58: `out` and `outs` send their bytes, and `State.sendBytes_onContents` says what a file does with them. -/
theorem outputToAFileIsWrittenAtThePosition : Obligations.OutputToAFileIsWrittenAtThePosition := by
  intro path bs s hc
  refine ⟨fun x y hv hx hy hle hbs => ?_, fun x hx hbs hp => ?_⟩
  · rw [exec_out_sends hv hx hy hle, ← hbs]
    refine ⟨s.sendBytes_onContents bs _ hc, fun hp => ?_⟩
    rw [State.sendBytes_file_error bs hc (State.beginTransfer_no_path _ hp)]
    rfl
  · rw [show exec (.outs x) s = _ from execOuts_sends hx hbs]
    exact s.sendBytes_onContents bs _ hc hp

/-- Settles O60: each refusal is that of its instruction's own rule or of the channel. -/
theorem ioFormsWithNoMeaningAreRefused : Obligations.IoFormsWithNoMeaningAreRefused := by
  refine ⟨fun x y s hv hx hy => ⟨fun hlt => ?_, fun hle h1 h255 => ?_⟩, fun x s bs hx h1 h255 hbs => ?_,
    fun x y s hv hx hy hfit => ?_, fun x s => ⟨fun hfit => ?_, fun hfit => ?_⟩⟩
  · rw [exec_inp, exec_out, rangeCases_reversed hv hx hy hlt, rangeCases_reversed hv hx hy hlt]
    exact ⟨rfl, rfl⟩
  · rw [exec_inp_transfers hv hx hy hle, exec_out_sends hv hx hy hle, State.inputFrom_reserved _ _ h1 h255,
      State.sendBytes_reserved _ h1 h255]
    exact ⟨rfl, rfl⟩
  · rw [show exec (.outs x) s = _ from execOuts_sends hx hbs, State.sendBytes_reserved _ h1 h255]
    rfl
  · rw [exec_inp, exec_out, rangeCases_overrun hv hx hy hfit, rangeCases_overrun hv hx hy hfit]
    exact ⟨rfl, rfl⟩
  · have hscalar := isSimd_of_not_fitsBytes hfit
    simp [exec, execMw, execIoChan, execOuts, hscalar, hfit]
  · have hscalar := isSimd_of_not_fitsBytes hfit
    simp [exec, execSeek, hscalar, hfit]

end Sys2Proof.Machine

/-! The statements about errors and exceptions, after the lemmas they need: where the start of a step leads, which bytes
are a branch that tests EF, and what an instruction that begins with no pending error leaves pending. -/

namespace Sys2Proof.Machine

/-! ### The start of a step -/

/-- A halted machine takes no step (R228). -/
theorem step_of_halted {s : State} (h : s.halted ≠ none) : step s = .fault .halted := by
  obtain ⟨code, hcode⟩ := Option.ne_none_iff_exists'.mp h
  simp [step, State.start, hcode]

/-- With no pending error a step begins by decoding (R228). -/
theorem State.start_of_ready {s : State} (h : Ready s) : s.start = s.startDecoded := by
  obtain ⟨hrun, hperr⟩ := h
  simp [State.start, hrun, hperr]

/-- A pending error is discharged by a branch that tests EF, and halts the program otherwise (R228). -/
theorem State.start_of_pending {s : State} {code : Byte} (hrun : s.halted = none) (hperr : s.perr = some code) :
    s.start = if testsErrorFlag (s.readByte s.ip) then s.discharge.startDecoded else .halts (s.halt code) := by
  simp [State.start, hrun, hperr]

/-- A step that begins by decoding executes the instruction decoded (R228). -/
theorem step_of_decode_ok {s u : State} {i : Instr} {rest : List Byte} (hstart : s.start = u.startDecoded)
    (hdecode : decode u.fetchBytes = .ok i rest) : step s = exec i u := by
  simp [step, hstart, State.startDecoded, hdecode]

/-- A step that begins by decoding halts where the bytes are no instruction (R228, R232). -/
theorem step_of_decode_bad {s u : State} {e : DecodeError} (hstart : s.start = u.startDecoded)
    (hdecode : decode u.fetchBytes = .bad e) : step s = .next (u.halt 0x06#8) := by
  simp [step, hstart, State.startDecoded, hdecode, State.invalidInstruction, invalidInstructionCode]

/-- The bytes fetched begin with the one at `ip` and the one after it (R60). -/
theorem State.fetchBytes_two (s : State) :
    ∃ rest, s.fetchBytes = s.readByte s.ip :: s.readByte (s.ip + 1#16) :: rest := by
  rw [State.fetchBytes_cons, List.range_succ_eq_map, List.map_cons, BitVec.add_zero]
  exact ⟨_, rfl⟩

/-! ### The branches that test EF -/

/-- A branch tests EF if its opcode is that of `jfl` or `sfl` and its branch ID is 5 (R61, R228). -/
theorem testsErrorFlag_iff {b0 : Byte} :
    testsErrorFlag b0 = true ↔
      (b0.extractLsb' 3 5 = 0x0D#5 ∨ b0.extractLsb' 3 5 = 0x0E#5) ∧ b0.extractLsb' 0 3 = 5#3 := by
  revert b0; decide

/-- An address is decoded wherever its two bytes are there (R66). -/
theorem decodeA_of_two_le {mk : Word → Instr} {bs : List Byte} (h : 2 ≤ bs.length) :
    decodeA mk bs = .ok (mk (ofBytes 16 (bs.take 2))) (bs.drop 2) := by
  rw [decodeA, takeValue_enough h, Decoded.andThen]

/-- Byte 0 of a branch that tests EF always decodes, the two bytes of its target being there (R62, R66). -/
theorem decode_of_testsErrorFlag {b0 : Byte} {bs : List Byte} (htest : testsErrorFlag b0 = true)
    (hlen : 2 ≤ bs.length) : ∃ i rest, decode (b0 :: bs) = .ok i rest := by
  obtain ⟨hop, hid⟩ : (opcodeOf b0 = 0x0D ∨ opcodeOf b0 = 0x0E) ∧ typeBitsOf b0 = 5#3 := by
    simpa [testsErrorFlag] using htest
  rcases hop with hjfl | hsfl
  · have hlayout : decodeLayout (b0 :: bs) = .ok (.jfl 5#3 (ofBytes 16 (bs.take 2))) (bs.drop 2) := by
      simp [decodeLayout, hjfl, hid, decodeA_of_two_le hlen]
    exact ⟨_, _, decode_of_valid hlayout rfl⟩
  · have hlayout : decodeLayout (b0 :: bs) = .ok (.sfl 5#3 (ofBytes 16 (bs.take 2))) (bs.drop 2) := by
      simp [decodeLayout, hsfl, hid, decodeA_of_two_le hlen]
    exact ⟨_, _, decode_of_valid hlayout rfl⟩

/-- A fetch whose byte 0 is that of a branch that tests EF always decodes (R228). -/
theorem State.decode_fetchBytes_of_testsErrorFlag {s : State} (htest : testsErrorFlag (s.readByte s.ip) = true) :
    ∃ i rest, decode s.fetchBytes = .ok i rest := by
  rw [State.fetchBytes_cons]
  exact decode_of_testsErrorFlag htest (by simp)

/-! ### What is pending after an instruction -/

/-- An instruction that begins with no pending error leaves one only with EF and RF set (R226, R229). -/
theorem exec_pendingErrorSound {i : Instr} {s t : State} (hperr : s.perr = none) (h : exec i s = .next t) :
    PendingErrorSound t := by
  intro hpending
  rcases (exec_does h).error with ⟨hsame, -⟩ | ⟨hEF, code, hcode⟩
  · exact absurd (hsame.trans hperr) hpending
  · refine ⟨hEF, Classical.byContradiction fun hRF => hpending ?_⟩
    rw [hcode, if_neg hRF, hperr]

/-- An instruction that sets EF and leaves RF at 1 leaves an error pending (R226). -/
theorem exec_perr_of_EF_set {i : Instr} {s t : State} (h : exec i s = .next t) (hclear : s.flag .EF = false)
    (hset : t.flag .EF = true) (hRF : t.flag .RF = true) : t.perr ≠ none := by
  rcases (exec_does h).error with ⟨-, hback⟩ | ⟨-, code, hcode⟩
  · rw [hback hset] at hclear
    cases hclear
  · rw [hcode, if_pos hRF]
    exact Option.some_ne_none code

/-! ### The statements about errors and exceptions (spec/60_exceptions.md) -/

/-- Settles O14: a halt leaves the pending error and `flg` alone, and every instruction begins with no pending error,
the one there was having been discharged. -/
theorem stepKeepsPendingErrorSound : Obligations.StepKeepsPendingErrorSound := by
  intro s t hs h
  obtain ⟨-, ⟨hperr, ⟨c, rfl⟩ | ⟨i, hi⟩⟩ | ⟨-, ⟨c, rfl⟩ | ⟨c, rfl⟩ | ⟨i, hi⟩⟩⟩ := step_next h
  · exact hs
  · exact exec_pendingErrorSound hperr hi
  · exact hs
  · exact fun hpending => absurd rfl hpending
  · exact exec_pendingErrorSound s.discharge_perr hi

/-- Settles O8: by where the start of the step leads; a byte 0 that discharges the error always decodes. -/
theorem pendingErrorCheckComesFirst : Obligations.PendingErrorCheckComesFirst := by
  refine fun s => ⟨step_of_halted, fun hrun hperr => ?_, fun code hrun hperr => ⟨fun htest => ?_, fun hother => ?_⟩⟩
  · have hstart := State.start_of_ready ⟨hrun, hperr⟩
    exact ⟨fun i rest => step_of_decode_ok hstart, fun e => step_of_decode_bad hstart⟩
  · have htest := testsErrorFlag_iff.mpr htest
    have hstart : s.start = s.discharge.startDecoded := by rw [State.start_of_pending hrun hperr, if_pos htest]
    obtain ⟨i, rest, hdecode⟩ := State.decode_fetchBytes_of_testsErrorFlag htest
    exact ⟨i, rest, hdecode, step_of_decode_ok hstart hdecode⟩
  · rw [step, State.start_of_pending hrun hperr, if_neg fun htest => hother (testsErrorFlag_iff.mp htest)]
    rfl

/-- Settles O21: what is pending afterwards is sound, and an error that sets EF while RF is 1 becomes pending. -/
theorem errorsArePendingExactlyWhileResponding : Obligations.ErrorsArePendingExactlyWhileResponding :=
  fun _ _ _ hperr h => ⟨exec_pendingErrorSound hperr h, exec_perr_of_EF_set h⟩

/-- Settles O7: with no pending error the step begins by decoding. -/
theorem stepRunsTheDecodedInstruction : Obligations.StepRunsTheDecodedInstruction := fun _ _ _ hready hdecode =>
  step_of_decode_ok (State.start_of_ready hready) hdecode

/-- Settles O9: the step is a halt with code 0x06, which keeps all data. -/
theorem invalidInstructionHaltsWithCode06 : Obligations.InvalidInstructionHaltsWithCode06 := fun s _ hready hdecode =>
  ⟨_, step_of_decode_bad (State.start_of_ready hready) hdecode, rfl, rfl, rfl, s.halt_keeps _ _ _ _, rfl⟩

/-- Settles O11: two zero bytes are an `exit` with code 0x00. -/
theorem zeroFilledMemoryHaltsWithCode00 : Obligations.ZeroFilledMemoryHaltsWithCode00 := by
  intro s hready hfirst hsecond
  obtain ⟨rest, hbytes⟩ := s.fetchBytes_two
  obtain ⟨hexit, -⟩ := exitAndItsAliasesHaltWithTheirOperand
  obtain ⟨i, hdecode, hexec⟩ := hexit 0x00#8 0x00#8 rest (.inl rfl)
  rw [hfirst, hsecond] at hbytes
  rw [step_of_decode_ok (State.start_of_ready hready) (hbytes ▸ hdecode), hexec]

end Sys2Proof.Machine

/-! The statements about reset, after the lemmas they need: what the places that R251 sets to zero, and `flg`, read as in
the state after reset, which holds no image and no file (log entry 3). -/

namespace Sys2Proof.Machine

/-! ### What the state after reset reads as -/

/-- The data-pool reads as zero at every address (R14). -/
@[simp] theorem State.reset_poolByte (a : Byte) : State.reset.poolByte a = 0x00#8 :=
  Vector.getElem_replicate a.isLt

/-- No image is loaded, so that memory reads as unlisted bytes do (R252). -/
@[simp] theorem State.reset_readByte (a : Word) : State.reset.readByte a = 0x00#8 := rfl

/-- The address registers read as zero (R16). -/
@[simp] theorem State.reset_readReg_ar (k : Fin 4) : State.reset.readReg (.ar k) = 0x0000#16 :=
  Vector.getElem_replicate k.isLt

/-- The flags register is stored in the form in which it is read: its hard-wired bits are right already (R31, R33). -/
theorem State.reset_flgRead : State.reset.flgRead = State.reset.flg := by decide

/-! ### The statements about reset (spec/70_reset_and_hazards.md) -/

/-- Settles O16: the flags are stored in read form, no memory cell and no file is listed, and no error, halt or open
file is there for the other two invariants to speak of. -/
theorem resetMeetsTheInvariants : Obligations.ResetMeetsTheInvariants := by
  have hmem : MemoryCanonical State.reset := rfl
  have hflags : FlagsHardWired State.reset := by
    rw [FlagsHardWired, ← State.reset_flgRead]
    exact flgForm_hardWired State.reset.flg
  have hperr : PendingErrorSound State.reset := fun hpending => absurd rfl hpending
  have hopen : OpenFileSound State.reset := ⟨fun hne => absurd rfl hne, fun _ => rfl⟩
  have hfiles : FilesAreAMap State.reset := List.nodup_nil
  exact ⟨hmem, hflags, hperr, hopen, hfiles⟩

/-- Settles O17: the address registers, `flg`, the pool and memory by what they read as; the rest are fields. -/
theorem resetHoldsTheValuesOfR251 : Obligations.ResetHoldsTheValuesOfR251 :=
  ⟨rfl, rfl, State.reset_readReg_ar, State.reset_flgRead, rfl, State.reset_poolByte, State.reset_readByte,
    rfl, rfl, rfl, rfl, rfl, rfl⟩

end Sys2Proof.Machine
